-- ==== Sys2Proof/Word.lean ====
section
/-! DEFINITION. The word types of the machine (00_scope.md R4, R5): 32-bit registers and addresses, 8-bit bytes,
16-bit halfwords. Arithmetic on them wraps (R5) and is BitVec's own. -/

namespace Sys2Proof

/-- A 32-bit register, address or instruction word (R4, R5). -/
abbrev Word := BitVec 32

/-- The unit of addressing (R60). -/
abbrev Byte := BitVec 8

/-- A 16-bit value (R62). -/
abbrev Half := BitVec 16

end Sys2Proof
end

