-- ==== Sys2Proof/Syntax/Operand.lean ====
section
/-! DEFINITION. The operand shapes of the instruction formats (30_encoding.md R122, R123): register numbers, condition
codes, shift types, operand 2 of the data-processing instructions, the offsets of the single transfers. -/

namespace Sys2Proof

/-- A visible register number, R0 to R15 (10_state.md R20); R15 is the program counter. -/
abbrev Reg := Fin 16

/-- The condition field `word[31:28]` (40_pipeline_condition.md R154). -/
inductive Cond where
  | eq | ne | cs | cc | mi | pl | vs | vc | hi | ls | ge | lt | gt | le | al
  /-- 1111, "never", which executes always (R155). -/
  | nv
deriving DecidableEq, Repr

/-- The shift type `word[6:5]`: 00 LSL, 01 LSR, 10 ASR, 11 ROR (R122). -/
inductive ShiftType where
  | lsl | lsr | asr | ror
deriving DecidableEq, Repr

/-- Operand 2 of a data-processing instruction (41_shifter_operand2.md R181): the formats DPI, DPR and DPM. -/
inductive Operand2 where
  /-- DPI: register `rm` shifted by the immediate `amount`; amount 0 has the meanings of R182 to R185. -/
  | shiftImm (type : ShiftType) (amount : BitVec 5) (rm : Reg)
  /-- DPR: register `rm` shifted by the low byte of register `rs` (R186 to R190). -/
  | shiftReg (type : ShiftType) (rs rm : Reg)
  /-- DPM: `imm8` rotated right by twice `rot` (R191). -/
  | imm (rot : BitVec 4) (imm8 : Byte)
deriving DecidableEq, Repr

/-- The offset of a word or byte transfer: the formats SDI and SDR (44_single_transfer.md R251, R252). -/
inductive WordOffset where
  | imm (imm12 : BitVec 12)
  | reg (type : ShiftType) (amount : BitVec 5) (rm : Reg)
deriving DecidableEq, Repr

/-- The offset of a halfword or signed transfer: the formats HSI (`immH ‖ immL`) and HSR (R253). -/
inductive HalfOffset where
  | imm (imm8 : Byte)
  | reg (rm : Reg)
deriving DecidableEq, Repr

end Sys2Proof
end

