-- ==== Sys2Proof/Syntax.lean ====
section
/-! DEFINITION. The instructions (30_encoding.md R122, R128 to R137; spec/opcode_table.json): one constructor for each of
the table's 51 mnemonics. The table's 118 rows are these with their operand forms, which are the constructors' operand
arguments (`Operand2`, `WordOffset`, `HalfOffset`, `p`), and the 16 rows of UNDEFINED. The condition field is no part of an
instruction: it is tested before decoding matters (R121, R151) and stands beside the instruction where a word is decoded
(log 24). Argument order: the S bit or P, U, W first, then the register fields from bit 19 down. -/

namespace Sys2Proof

/-- An instruction of the 32-bit encoding, without its condition (log 24). -/
inductive Instr where
  -- data processing (42_data_processing.md R200); `s` is the S bit
  | and (s : Bool) (rn rd : Reg) (op2 : Operand2)
  | eor (s : Bool) (rn rd : Reg) (op2 : Operand2)
  | sub (s : Bool) (rn rd : Reg) (op2 : Operand2)
  | rsb (s : Bool) (rn rd : Reg) (op2 : Operand2)
  | add (s : Bool) (rn rd : Reg) (op2 : Operand2)
  | adc (s : Bool) (rn rd : Reg) (op2 : Operand2)
  | sbc (s : Bool) (rn rd : Reg) (op2 : Operand2)
  | rsc (s : Bool) (rn rd : Reg) (op2 : Operand2)
  | tst (rn : Reg) (op2 : Operand2)
  | teq (rn : Reg) (op2 : Operand2)
  | cmp (rn : Reg) (op2 : Operand2)
  | cmn (rn : Reg) (op2 : Operand2)
  | orr (s : Bool) (rn rd : Reg) (op2 : Operand2)
  | mov (s : Bool) (rd : Reg) (op2 : Operand2)
  | bic (s : Bool) (rn rd : Reg) (op2 : Operand2)
  | mvn (s : Bool) (rd : Reg) (op2 : Operand2)
  -- status register transfer (47_status_transfer.md R330); `mask` is the field mask word[19:16]
  | mrsCpsr (rd : Reg)
  | mrsSpsr (rd : Reg)
  | msrCpsrReg (mask : BitVec 4) (rm : Reg)
  | msrSpsrReg (mask : BitVec 4) (rm : Reg)
  | msrCpsrImm (mask : BitVec 4) (rot : BitVec 4) (imm8 : Byte)
  | msrSpsrImm (mask : BitVec 4) (rot : BitVec 4) (imm8 : Byte)
  -- branch and exchange (46_branch.md R322)
  | bx (rm : Reg)
  -- multiply (43_multiply.md R231 to R236)
  | mul (s : Bool) (rd rs rm : Reg)
  | mla (s : Bool) (rd rn rs rm : Reg)
  | umull (s : Bool) (rdHi rdLo rs rm : Reg)
  | umlal (s : Bool) (rdHi rdLo rs rm : Reg)
  | smull (s : Bool) (rdHi rdLo rs rm : Reg)
  | smlal (s : Bool) (rdHi rdLo rs rm : Reg)
  -- swap (48_swap.md R350, R351)
  | swp (rn rd rm : Reg)
  | swpb (rn rd rm : Reg)
  -- halfword and signed transfers (44_single_transfer.md R250, R253)
  | strh (p u w : Bool) (rn rd : Reg) (off : HalfOffset)
  | ldrh (p u w : Bool) (rn rd : Reg) (off : HalfOffset)
  | ldrsb (p u w : Bool) (rn rd : Reg) (off : HalfOffset)
  | ldrsh (p u w : Bool) (rn rd : Reg) (off : HalfOffset)
  -- word and byte transfers (R250 to R252) and their T forms (R262)
  | str (p u w : Bool) (rn rd : Reg) (off : WordOffset)
  | ldr (p u w : Bool) (rn rd : Reg) (off : WordOffset)
  | strb (p u w : Bool) (rn rd : Reg) (off : WordOffset)
  | ldrb (p u w : Bool) (rn rd : Reg) (off : WordOffset)
  | strt (u : Bool) (rn rd : Reg) (off : WordOffset)
  | ldrt (u : Bool) (rn rd : Reg) (off : WordOffset)
  | strbt (u : Bool) (rn rd : Reg) (off : WordOffset)
  | ldrbt (u : Bool) (rn rd : Reg) (off : WordOffset)
  -- block transfers (45_block_transfer.md R290); the `User` ones have the S bit set
  | stm (p u w : Bool) (rn : Reg) (list : BitVec 16)
  | ldm (p u w : Bool) (rn : Reg) (list : BitVec 16)
  | stmUser (p u w : Bool) (rn : Reg) (list : BitVec 16)
  | ldmUser (p u w : Bool) (rn : Reg) (list : BitVec 16)
  -- branches (46_branch.md R320, R321)
  | b (imm24 : BitVec 24)
  | bl (imm24 : BitVec 24)
  -- software interrupt (49_swi_undefined.md R360)
  | swi (comment : BitVec 24)
  /-- Every word whose class selects no instruction (R361), with its `word[27:0]`. -/
  | undefined (bits : BitVec 28)
deriving DecidableEq, Repr

end Sys2Proof
end

