-- ==== Sys2Proof/WellFormed.lean ====
section
/-! DEFINITION. Which terms of `Instr` some word stands for. The types already bound every field; two things are left:
a plain word or byte transfer is never the P = 0, W = 1 pattern, which is the T form (30_encoding.md R133, R134), and an
UNDEFINED word is one whose class the table leaves without an instruction (R137). -/

namespace Sys2Proof

/-- The (mask, match) pairs over `word[27:0]` of the sixteen UNDEFINED rows of spec/opcode_table.json, in its order
(R128 to R136). -/
def undefinedRows : List (BitVec 28 × BitVec 28) :=
  [(0xE000000#28, 0xC000000#28), (0xF000000#28, 0xE000000#28), (0xE000010#28, 0x6000010#28),
   (0xFB00000#28, 0x3000000#28), (0xF900030#28, 0x1000020#28), (0xF900070#28, 0x1000040#28),
   (0xF9000F0#28, 0x1000080#28), (0xF9000B0#28, 0x1000030#28)] ++
  [(0xF9000F0#28, 0x1000050#28), (0xFB000F0#28, 0x1000010#28), (0xFF000F0#28, 0x1600010#28),
   (0xFB000F0#28, 0x1200090#28), (0xE1000D0#28, 0x00000D0#28), (0xFC000F0#28, 0x0400090#28),
   (0xF9000F0#28, 0x1100090#28), (0xF8000F0#28, 0x1800090#28)]

/-- Does a row of `undefinedRows` match these 28 bits (R137)? -/
def isUndefinedBits (bits : BitVec 28) : Bool :=
  undefinedRows.any fun row => bits &&& row.1 == row.2

/-- The terms that encode to a word (R133, R134, R137). -/
def WellFormed : Instr → Bool
  | .str p _ w _ _ _ | .ldr p _ w _ _ _ | .strb p _ w _ _ _ | .ldrb p _ w _ _ _ => p || !w
  | .undefined bits => isUndefinedBits bits
  | .and .. | .eor .. | .sub .. | .rsb .. | .add .. | .adc .. | .sbc .. | .rsc .. | .tst .. | .teq .. | .cmp .. | .cmn ..
  | .orr .. | .mov .. | .bic .. | .mvn .. | .mrsCpsr .. | .mrsSpsr .. | .msrCpsrReg .. | .msrSpsrReg .. | .msrCpsrImm ..
  | .msrSpsrImm .. | .bx .. | .mul .. | .mla .. | .umull .. | .umlal .. | .smull .. | .smlal .. | .swp .. | .swpb ..
  | .strh .. | .ldrh .. | .ldrsb .. | .ldrsh .. | .strt .. | .ldrt .. | .strbt .. | .ldrbt .. | .stm .. | .ldm ..
  | .stmUser .. | .ldmUser .. | .b .. | .bl .. | .swi .. => true

end Sys2Proof
end

