-- ==== Sys2Proof/Decode.lean ====
section
/-! DEFINITION. Decoding (30_encoding.md R120 to R137) and encoding. Decoding looks at the class field `word[27:20] ‖
word[7:4]` alone (R121, R125) and is total on words: a class without an instruction is `.undefined` (R127). Bits the
decoder ignores (R124) are written by the encoder as the architecture requires them (the parenthesised values of R122). -/

namespace Sys2Proof

/-- `word[lo+len-1 : lo]` (00_scope.md R5). -/
def bits (w : Word) (lo len : Nat) : BitVec len := w.extractLsb' lo len

/-- One bit of a word (R5). -/
def bit (w : Word) (i : Nat) : Bool := w.getLsbD i

/-- A four-bit register field (R122). -/
def regAt (w : Word) (lo : Nat) : Reg := (bits w lo 4).toFin

/-! ## Condition codes and shift types -/

/-- The condition code of `word[31:28]` (40_pipeline_condition.md R154, R155). -/
def Cond.ofField : Nat → Cond
  | 0 => .eq | 1 => .ne | 2 => .cs | 3 => .cc | 4 => .mi | 5 => .pl | 6 => .vs | 7 => .vc
  | 8 => .hi | 9 => .ls | 10 => .ge | 11 => .lt | 12 => .gt | 13 => .le | 14 => .al | _ => .nv

/-- The four bits of a condition code (R154). -/
def Cond.code : Cond → BitVec 4
  | .eq => 0 | .ne => 1 | .cs => 2 | .cc => 3 | .mi => 4 | .pl => 5 | .vs => 6 | .vc => 7
  | .hi => 8 | .ls => 9 | .ge => 10 | .lt => 11 | .gt => 12 | .le => 13 | .al => 14 | .nv => 15

/-- The condition field of a word, tested before anything else (R121). -/
def condOf (w : Word) : Cond := Cond.ofField (bits w 28 4).toNat

/-- The shift type of `word[6:5]` (R122). -/
def ShiftType.ofField : Nat → ShiftType
  | 0 => .lsl | 1 => .lsr | 2 => .asr | _ => .ror

/-- The two bits of a shift type (R122). -/
def ShiftType.code : ShiftType → BitVec 2
  | .lsl => 0 | .lsr => 1 | .asr => 2 | .ror => 3

/-- `word[6:5]` as a shift type. -/
def shiftTypeAt (w : Word) : ShiftType := ShiftType.ofField (bits w 5 2).toNat

/-! ## Operands (R123) -/

/-- The operand of format DPI. -/
def opDpi (w : Word) : Operand2 := .shiftImm (shiftTypeAt w) (bits w 7 5) (regAt w 0)

/-- The operand of format DPR. -/
def opDpr (w : Word) : Operand2 := .shiftReg (shiftTypeAt w) (regAt w 8) (regAt w 0)

/-- The operand of format DPM. -/
def opDpm (w : Word) : Operand2 := .imm (bits w 8 4) (bits w 0 8)

/-- The offset of formats HSI (`word[22]` = 1: `immH ‖ immL`) and HSR. -/
def halfOffsetAt (w : Word) : HalfOffset :=
  if bit w 22 then .imm (bits w 8 4 ++ bits w 0 4) else .reg (regAt w 0)

/-- The offset of format SDI. -/
def offSdi (w : Word) : WordOffset := .imm (bits w 0 12)

/-- The offset of format SDR. -/
def offSdr (w : Word) : WordOffset := .reg (shiftTypeAt w) (bits w 7 5) (regAt w 0)

/-! ## The decode table -/

/-- The trap entry (R127, R137). -/
def undef (w : Word) : Instr := .undefined (bits w 0 28)

/-- The data-processing instruction of opcode `word[24:21]` (R128, 42_data_processing.md R200); the compare opcodes are
asked for with S = 1 only. -/
def decodeDp (w : Word) (op2 : Operand2) : Instr :=
  let s := bit w 20
  let rn := regAt w 16
  let rd := regAt w 12
  match (bits w 21 4).toNat with
  | 0 => .and s rn rd op2 | 1 => .eor s rn rd op2 | 2 => .sub s rn rd op2 | 3 => .rsb s rn rd op2
  | 4 => .add s rn rd op2 | 5 => .adc s rn rd op2 | 6 => .sbc s rn rd op2 | 7 => .rsc s rn rd op2
  | 8 => .tst rn op2 | 9 => .teq rn op2 | 10 => .cmp rn op2 | 11 => .cmn rn op2
  | 12 => .orr s rn rd op2 | 13 => .mov s rd op2 | 14 => .bic s rn rd op2 | _ => .mvn s rd op2

/-- The miscellaneous rows, `hi` in 0x10, 0x12, 0x14, 0x16, with `lo` below 8 or even (R128, R129). -/
def decodeMisc (w : Word) : Instr :=
  match (bits w 4 4).toNat, (bits w 21 2).toNat with
  | 0, 0 => .mrsCpsr (regAt w 12)
  | 0, 1 => .msrCpsrReg (bits w 16 4) (regAt w 0)
  | 0, 2 => .mrsSpsr (regAt w 12)
  | 0, 3 => .msrSpsrReg (bits w 16 4) (regAt w 0)
  | 1, 1 => .bx (regAt w 0)
  | _, _ => undef w

/-- `lo` = 9: multiplies and swaps (R130). -/
def decodeNine (w : Word) : Instr :=
  let s := bit w 20
  match (bits w 21 4).toNat with
  | 0 => .mul s (regAt w 16) (regAt w 8) (regAt w 0)
  | 1 => .mla s (regAt w 16) (regAt w 12) (regAt w 8) (regAt w 0)
  | 4 => .umull s (regAt w 16) (regAt w 12) (regAt w 8) (regAt w 0)
  | 5 => .umlal s (regAt w 16) (regAt w 12) (regAt w 8) (regAt w 0)
  | 6 => .smull s (regAt w 16) (regAt w 12) (regAt w 8) (regAt w 0)
  | 7 => .smlal s (regAt w 16) (regAt w 12) (regAt w 8) (regAt w 0)
  | 8 => if s then undef w else .swp (regAt w 16) (regAt w 12) (regAt w 0)
  | 10 => if s then undef w else .swpb (regAt w 16) (regAt w 12) (regAt w 0)
  | _ => undef w

/-- `lo` = 0xB, 0xD, 0xF: halfword and signed transfers (R131). -/
def decodeHalf (w : Word) : Instr :=
  let p := bit w 24
  let u := bit w 23
  let wb := bit w 21
  let rn := regAt w 16
  let rd := regAt w 12
  let off := halfOffsetAt w
  match (bits w 5 2).toNat, bit w 20 with
  | 1, false => .strh p u wb rn rd off
  | 1, true => .ldrh p u wb rn rd off
  | 2, true => .ldrsb p u wb rn rd off
  | 3, true => .ldrsh p u wb rn rd off
  | _, _ => undef w

/-- `hi` 0x00 to 0x1F (R128 to R131). -/
def decode000 (w : Word) : Instr :=
  let misc := bits w 23 2 == 2#2 && !bit w 20
  if bit w 4 then
    if bit w 7 then
      if bits w 5 2 == 0#2 then decodeNine w else decodeHalf w
    else if misc then decodeMisc w else decodeDp w (opDpr w)
  else if misc then decodeMisc w else decodeDp w (opDpi w)

/-- `hi` 0x20 to 0x3F (R132). -/
def decode001 (w : Word) : Instr :=
  if bits w 23 2 == 2#2 && !bit w 20 then
    match (bits w 21 2).toNat with
    | 1 => .msrCpsrImm (bits w 16 4) (bits w 8 4) (bits w 0 8)
    | 3 => .msrSpsrImm (bits w 16 4) (bits w 8 4) (bits w 0 8)
    | _ => undef w
  else decodeDp w (opDpm w)

/-- A word or byte transfer (R133, R134): `word[22]` is B, `word[20]` is L; P = 0 with W = 1 is the T form. -/
def decodeSingle (w : Word) (off : WordOffset) : Instr :=
  let p := bit w 24
  let u := bit w 23
  let wb := bit w 21
  let rn := regAt w 16
  let rd := regAt w 12
  match !p && wb, bit w 22, bit w 20 with
  | false, false, false => .str p u wb rn rd off
  | false, false, true => .ldr p u wb rn rd off
  | false, true, false => .strb p u wb rn rd off
  | false, true, true => .ldrb p u wb rn rd off
  | true, false, false => .strt u rn rd off
  | true, false, true => .ldrt u rn rd off
  | true, true, false => .strbt u rn rd off
  | true, true, true => .ldrbt u rn rd off

/-- A block transfer (R135): `word[22]` is S, `word[20]` is L. -/
def decodeBlock (w : Word) : Instr :=
  let p := bit w 24
  let u := bit w 23
  let wb := bit w 21
  let rn := regAt w 16
  let list := bits w 0 16
  match bit w 22, bit w 20 with
  | false, false => .stm p u wb rn list
  | false, true => .ldm p u wb rn list
  | true, false => .stmUser p u wb rn list
  | true, true => .ldmUser p u wb rn list

/-- The instruction of a word (R125, R127): total, and independent of the condition field (R121). -/
def decodeWord (w : Word) : Instr :=
  match (bits w 25 3).toNat with
  | 0 => decode000 w
  | 1 => decode001 w
  | 2 => decodeSingle w (offSdi w)
  | 3 => if bit w 4 then undef w else decodeSingle w (offSdr w)
  | 4 => decodeBlock w
  | 5 => if bit w 24 then .bl (bits w 0 24) else .b (bits w 0 24)
  | 6 => undef w
  | _ => if bit w 24 then .swi (bits w 0 24) else undef w

/-! ## The class field and the mnemonics -/

/-- The class field `word[27:20] ‖ word[7:4]` (R121). -/
def classOf (w : Word) : BitVec 12 := bits w 20 8 ++ bits w 4 4

/-- A word of a class, every operand bit zero and the condition "always" (R121). -/
def wordOfClass (k : BitVec 12) : Word := 0xE#4 ++ k.extractLsb' 4 8 ++ 0#12 ++ k.extractLsb' 0 4 ++ 0#4

/-- The instruction's name in spec/opcode_table.json. -/
def Instr.mnemonic : Instr → String
  | .and .. => "AND"
  | .eor .. => "EOR"
  | .sub .. => "SUB"
  | .rsb .. => "RSB"
  | .add .. => "ADD"
  | .adc .. => "ADC"
  | .sbc .. => "SBC"
  | .rsc .. => "RSC"
  | .tst .. => "TST"
  | .teq .. => "TEQ"
  | .cmp .. => "CMP"
  | .cmn .. => "CMN"
  | .orr .. => "ORR"
  | .mov .. => "MOV"
  | .bic .. => "BIC"
  | .mvn .. => "MVN"
  | .mrsCpsr .. => "MRS__CPSR"
  | .mrsSpsr .. => "MRS__SPSR"
  | .msrCpsrReg .. => "MSR__CPSR__register"
  | .msrSpsrReg .. => "MSR__SPSR__register"
  | .msrCpsrImm .. => "MSR__CPSR__immediate"
  | .msrSpsrImm .. => "MSR__SPSR__immediate"
  | .bx .. => "BX"
  | .mul .. => "MUL"
  | .mla .. => "MLA"
  | .umull .. => "UMULL"
  | .umlal .. => "UMLAL"
  | .smull .. => "SMULL"
  | .smlal .. => "SMLAL"
  | .swp .. => "SWP"
  | .swpb .. => "SWPB"
  | .strh .. => "STRH"
  | .ldrh .. => "LDRH"
  | .ldrsb .. => "LDRSB"
  | .ldrsh .. => "LDRSH"
  | .str .. => "STR"
  | .ldr .. => "LDR"
  | .strb .. => "STRB"
  | .ldrb .. => "LDRB"
  | .strt .. => "STRT"
  | .ldrt .. => "LDRT"
  | .strbt .. => "STRBT"
  | .ldrbt .. => "LDRBT"
  | .stm .. => "STM"
  | .ldm .. => "LDM"
  | .stmUser .. => "STM__user_bank"
  | .ldmUser .. => "LDM__user_bank_or_CPSR_restore"
  | .b .. => "B"
  | .bl .. => "BL"
  | .swi .. => "SWI"
  | .undefined .. => "UNDEFINED"

/-! ## Bytes -/

/-- The little-endian word of four bytes, the first at the lowest address (20_memory.md R62). -/
def wordOfBytes (b0 b1 b2 b3 : Byte) : Word := b3 ++ b2 ++ b1 ++ b0

/-- The bytes of a word, lowest address first (R62). -/
def bytesOfWord (w : Word) : List Byte := [bits w 0 8, bits w 8 8, bits w 16 8, bits w 24 8]

/-- Why bytes hold no instruction. -/
inductive DecodeError where
  /-- Fewer than the four bytes every instruction has (R120). -/
  | tooShort
deriving DecidableEq, Repr

/-- Decode the instruction at the head of a list of bytes, with its condition, and give the rest (R120, R121). -/
def decode : List Byte → Except DecodeError (Cond × Instr × List Byte)
  | b0 :: b1 :: b2 :: b3 :: rest =>
    let w := wordOfBytes b0 b1 b2 b3
    .ok (condOf w, decodeWord w, rest)
  | _ => .error .tooShort

/-- The instruction the decoder reads from a word given as a number, bits above `nbits` zero: laid out as bytes and decoded. -/
def decodeTableWord (nbits w : Nat) : Option Instr :=
  match decode (bytesOfWord (BitVec.ofNat 32 (w % 2 ^ nbits))) with
  | .ok (_, i, _) => some i
  | .error _ => none

/-! ## The encoder (R122) -/

/-- One bit as a field. -/
def flag (b : Bool) : BitVec 1 := BitVec.ofBool b

/-- A register number as a field. -/
def regCode (r : Reg) : BitVec 4 := BitVec.ofFin r

/-- Formats DPI, DPR and DPM: `op` is `word[24:21]`. -/
def encodeDp (c : Cond) (op : BitVec 4) (s : Bool) (rn rd : BitVec 4) : Operand2 → Word
  | .shiftImm type amount rm =>
    c.code ++ 0b000#3 ++ op ++ flag s ++ rn ++ rd ++ amount ++ type.code ++ 0#1 ++ regCode rm
  | .shiftReg type rs rm =>
    c.code ++ 0b000#3 ++ op ++ flag s ++ rn ++ rd ++ regCode rs ++ 0#1 ++ type.code ++ 1#1 ++ regCode rm
  | .imm rot imm8 => c.code ++ 0b001#3 ++ op ++ flag s ++ rn ++ rd ++ rot ++ imm8

/-- Formats SDI and SDR. -/
def encodeSingle (c : Cond) (p u byte w load : Bool) (rn rd : Reg) : WordOffset → Word
  | .imm imm12 =>
    c.code ++ 0b010#3 ++ flag p ++ flag u ++ flag byte ++ flag w ++ flag load ++ regCode rn ++ regCode rd ++ imm12
  | .reg type amount rm =>
    c.code ++ 0b011#3 ++ flag p ++ flag u ++ flag byte ++ flag w ++ flag load ++ regCode rn ++ regCode rd ++ amount ++
      type.code ++ 0#1 ++ regCode rm

/-- Formats HSI and HSR: `sh` is `word[6:5]`. -/
def encodeHalf (c : Cond) (p u w load : Bool) (sh : BitVec 2) (rn rd : Reg) : HalfOffset → Word
  | .imm imm8 =>
    c.code ++ 0b000#3 ++ flag p ++ flag u ++ 1#1 ++ flag w ++ flag load ++ regCode rn ++ regCode rd ++
      imm8.extractLsb' 4 4 ++ 1#1 ++ sh ++ 1#1 ++ imm8.extractLsb' 0 4
  | .reg rm =>
    c.code ++ 0b000#3 ++ flag p ++ flag u ++ 0#1 ++ flag w ++ flag load ++ regCode rn ++ regCode rd ++ 0#4 ++
      1#1 ++ sh ++ 1#1 ++ regCode rm

/-- Format BDT. -/
def encodeBlock (c : Cond) (p u s w load : Bool) (rn : Reg) (list : BitVec 16) : Word :=
  c.code ++ 0b100#3 ++ flag p ++ flag u ++ flag s ++ flag w ++ flag load ++ regCode rn ++ list

/-- Formats MUL and MLL: `op` is `word[24:21]`, `hi` and `lo` are `word[19:16]` and `word[15:12]`. -/
def encodeMul (c : Cond) (op : BitVec 4) (s : Bool) (hi lo : BitVec 4) (rs rm : Reg) : Word :=
  c.code ++ 0b000#3 ++ op ++ flag s ++ hi ++ lo ++ regCode rs ++ 0b1001#4 ++ regCode rm

/-- Formats MRS, MSR (register), BX and SWP: the class is `0001 0 r 0 ‖ low`. -/
def encodeMisc (c : Cond) (op : BitVec 4) (f19 f15 f11 low f3 : BitVec 4) : Word :=
  c.code ++ 0b000#3 ++ op ++ 0#1 ++ f19 ++ f15 ++ f11 ++ low ++ f3

/-- Format MSI. -/
def encodeMsrImm (c : Cond) (op : BitVec 4) (mask rot : BitVec 4) (imm8 : Byte) : Word :=
  c.code ++ 0b001#3 ++ op ++ 0#1 ++ mask ++ 0xF#4 ++ rot ++ imm8

/-- The word of an instruction under a condition, ignored bits as the architecture requires them (R122, R124). -/
def encode (c : Cond) : Instr → Word
  | .and s rn rd op2 => encodeDp c 0 s (regCode rn) (regCode rd) op2
  | .eor s rn rd op2 => encodeDp c 1 s (regCode rn) (regCode rd) op2
  | .sub s rn rd op2 => encodeDp c 2 s (regCode rn) (regCode rd) op2
  | .rsb s rn rd op2 => encodeDp c 3 s (regCode rn) (regCode rd) op2
  | .add s rn rd op2 => encodeDp c 4 s (regCode rn) (regCode rd) op2
  | .adc s rn rd op2 => encodeDp c 5 s (regCode rn) (regCode rd) op2
  | .sbc s rn rd op2 => encodeDp c 6 s (regCode rn) (regCode rd) op2
  | .rsc s rn rd op2 => encodeDp c 7 s (regCode rn) (regCode rd) op2
  | .tst rn op2 => encodeDp c 8 true (regCode rn) 0 op2
  | .teq rn op2 => encodeDp c 9 true (regCode rn) 0 op2
  | .cmp rn op2 => encodeDp c 10 true (regCode rn) 0 op2
  | .cmn rn op2 => encodeDp c 11 true (regCode rn) 0 op2
  | .orr s rn rd op2 => encodeDp c 12 s (regCode rn) (regCode rd) op2
  | .mov s rd op2 => encodeDp c 13 s 0 (regCode rd) op2
  | .bic s rn rd op2 => encodeDp c 14 s (regCode rn) (regCode rd) op2
  | .mvn s rd op2 => encodeDp c 15 s 0 (regCode rd) op2
  | .mrsCpsr rd => encodeMisc c 8 0xF (regCode rd) 0 0 0
  | .mrsSpsr rd => encodeMisc c 10 0xF (regCode rd) 0 0 0
  | .msrCpsrReg mask rm => encodeMisc c 9 mask 0xF 0 0 (regCode rm)
  | .msrSpsrReg mask rm => encodeMisc c 11 mask 0xF 0 0 (regCode rm)
  | .msrCpsrImm mask rot imm8 => encodeMsrImm c 9 mask rot imm8
  | .msrSpsrImm mask rot imm8 => encodeMsrImm c 11 mask rot imm8
  | .bx rm => encodeMisc c 9 0xF 0xF 0xF 1 (regCode rm)
  | .mul s rd rs rm => encodeMul c 0 s (regCode rd) 0 rs rm
  | .mla s rd rn rs rm => encodeMul c 1 s (regCode rd) (regCode rn) rs rm
  | .umull s hi lo rs rm => encodeMul c 4 s (regCode hi) (regCode lo) rs rm
  | .umlal s hi lo rs rm => encodeMul c 5 s (regCode hi) (regCode lo) rs rm
  | .smull s hi lo rs rm => encodeMul c 6 s (regCode hi) (regCode lo) rs rm
  | .smlal s hi lo rs rm => encodeMul c 7 s (regCode hi) (regCode lo) rs rm
  | .swp rn rd rm => encodeMisc c 8 (regCode rn) (regCode rd) 0 9 (regCode rm)
  | .swpb rn rd rm => encodeMisc c 10 (regCode rn) (regCode rd) 0 9 (regCode rm)
  | .strh p u w rn rd off => encodeHalf c p u w false 1 rn rd off
  | .ldrh p u w rn rd off => encodeHalf c p u w true 1 rn rd off
  | .ldrsb p u w rn rd off => encodeHalf c p u w true 2 rn rd off
  | .ldrsh p u w rn rd off => encodeHalf c p u w true 3 rn rd off
  | .str p u w rn rd off => encodeSingle c p u false w false rn rd off
  | .ldr p u w rn rd off => encodeSingle c p u false w true rn rd off
  | .strb p u w rn rd off => encodeSingle c p u true w false rn rd off
  | .ldrb p u w rn rd off => encodeSingle c p u true w true rn rd off
  | .strt u rn rd off => encodeSingle c false u false true false rn rd off
  | .ldrt u rn rd off => encodeSingle c false u false true true rn rd off
  | .strbt u rn rd off => encodeSingle c false u true true false rn rd off
  | .ldrbt u rn rd off => encodeSingle c false u true true true rn rd off
  | .stm p u w rn list => encodeBlock c p u false w false rn list
  | .ldm p u w rn list => encodeBlock c p u false w true rn list
  | .stmUser p u w rn list => encodeBlock c p u true w false rn list
  | .ldmUser p u w rn list => encodeBlock c p u true w true rn list
  | .b imm24 => c.code ++ 0b1010#4 ++ imm24
  | .bl imm24 => c.code ++ 0b1011#4 ++ imm24
  | .swi comment => c.code ++ 0b1111#4 ++ comment
  | .undefined rest => c.code ++ rest

end Sys2Proof
end

