-- ==== Sys2Proof/Config.lean ====
section
/-! DEFINITION. What the specification leaves to the implementation. First the FREE VALUES, constants without a body about
which nothing can be proved; then the type of the parameters of 00_scope.md R4, which a machine is given as an argument: they
are a field of the state that no step changes (log 29), and their defaults are in Sys2Proof/Machine/Params.lean. -/

namespace Sys2Proof.Config

/-- The byte that draw number `n` of a device read gives at a byte address: "for a device register it may return anything"
(20_memory.md R61). FREE (log 4). -/
opaque deviceByte : Nat → Nat → Byte

/-- A word the specification calls unspecified, for draw number `n` (70_reset_and_hazards.md R411). FREE (log 23). -/
opaque freeWord : Nat → Word

/-- A result of MLA with Rd = Rm that nothing says more of, a function of the accumulator (43_multiply.md R232). FREE
(log 13). -/
opaque mlaAliasWord : Word → Word

end Sys2Proof.Config

namespace Sys2Proof.Machine

/-- The parameter `MLA_ALIAS_RESULT`, a function of the accumulator's value (R4, 43_multiply.md R232, 93 U8). -/
inductive MlaAlias where
  /-- This word whatever the accumulator holds; zero is the default. -/
  | constant (w : Word)
  /-- The accumulator: only the product is zeroed. -/
  | accumulator
  /-- Any function of the accumulator: a free value (log 13). -/
  | anyValue
deriving DecidableEq, Repr

/-- The parameter `LDM_BASE_FIRST` (R4, 45_block_transfer.md R298). -/
inductive LdmBaseFirst where
  /-- The loaded value stays in the base register, the default. -/
  | loaded
  /-- A base that is the lowest-numbered listed register ends holding the written-back address. -/
  | writeback
deriving DecidableEq, Repr

/-- The three ROM wait-state slots (21_waitstate.md R93). -/
inductive Slot where
  | slot0 | slot1 | slot2
deriving DecidableEq, Repr

/-- The regions the wait-state controller tells apart (21_waitstate.md R92). -/
inductive Region where
  | rom0 | rom1 | rom2 | sram | wram | video16 | fast
deriving DecidableEq, Repr

/-- The four cycle counts of a configurable region (21_waitstate.md R90): `T16[r][1]`, `T16[r][0]`, `T32[r][1]`, `T32[r][0]`. -/
structure RegionCost where
  n16 : Nat
  s16 : Nat
  n32 : Nat
  s32 : Nat
deriving DecidableEq, Repr

/-- A row of `REGIONS`: the addresses whose bits under `mask` are `value` (20_memory.md R72). -/
structure RegionRow where
  mask : Word
  value : Word
  region : Region
deriving DecidableEq, Repr

/-- The address map `REGIONS` (R4, 20_memory.md R72): the rows of the regions that are not `FAST`, the first that matches
counting; the window of the I/O registers; the place of the wait-control register in it. -/
structure Regions where
  rows : List RegionRow
  ioFirst : Word
  ioLast : Word
  waitControl : Word
deriving DecidableEq, Repr

/-- The parameters of this hardware (R4). -/
structure Params where
  /-- `STORE_PC_OFF`: what STR and STM store for R15 is the instruction's address plus this (44_single_transfer.md R261). -/
  storePcOff : Word
  /-- `MLA_ALIAS_RESULT`. -/
  mlaAlias : MlaAlias
  /-- `LDM_BASE_FIRST`. -/
  ldmBaseFirst : LdmBaseFirst
  /-- `RESET_PC` (70_reset_and_hazards.md R411). -/
  resetPc : Word
  /-- `REGIONS`. -/
  regions : Regions
  /-- `WS_N`: the wait states of a first access, by two control bits (21_waitstate.md R93). -/
  wsN : Vector Nat 4
  /-- `WS_S`: the wait states of a second access with the slot's bit clear, by slot (21_waitstate.md R93). -/
  wsS : Vector Nat 3
  /-- `PREBUF_CAP`: the capacity of the prefetch buffer in halfwords (21_waitstate.md R90). -/
  prebufCap : Nat
  /-- `SWP_LOCKED`: a swap holds the bus between its read and its write (20_memory.md R76). -/
  swpLocked : Bool
deriving DecidableEq, Repr

end Sys2Proof.Machine
end

