-- ==== Sys2Proof/Machine/Params.lean ====
section
/-! DEFINITION. The parameters of 00_scope.md R4 at the defaults the specification gives them, and what the core reads from
them: the address map (20_memory.md R72, 21_waitstate.md R92) and the wait tables (21_waitstate.md R93). -/

namespace Sys2Proof.Machine

/-! ## Defaults (R4) -/

/-- The rows of the default map (20 R72, 21 R92), by address bits 27:24 (log 17). -/
def defaultRows : List RegionRow :=
  [⟨0x0E000000#32, 0x08000000#32, .rom0⟩, ⟨0x0E000000#32, 0x0A000000#32, .rom1⟩, ⟨0x0E000000#32, 0x0C000000#32, .rom2⟩,
   ⟨0x0E000000#32, 0x0E000000#32, .sram⟩, ⟨0x0F000000#32, 0x02000000#32, .wram⟩, ⟨0x0F000000#32, 0x05000000#32, .video16⟩,
   ⟨0x0F000000#32, 0x06000000#32, .video16⟩]

/-- The default map: the I/O registers at 0x04000000 to 0x040003FE, the wait-control register at 0x04000204 (20 R72, 21 R94,
log 17). -/
def defaultRegions : Regions where
  rows := defaultRows
  ioFirst := 0x04000000#32
  ioLast := 0x040003FE#32
  waitControl := 0x04000204#32

/-- Every parameter at its default (R4). -/
def defaultParams : Params where
  storePcOff := 12#32
  mlaAlias := .constant 0#32
  ldmBaseFirst := .loaded
  resetPc := 0x00000000#32
  regions := defaultRegions
  wsN := #v[4, 3, 2, 8]
  wsS := #v[2, 4, 8]
  prebufCap := 8
  swpLocked := true

/-! ## The address map (20 R72, 21 R92) -/

/-- `Region(addr)`: the first row that matches, else `FAST`. -/
def regionOf (rows : List RegionRow) (addr : Word) : Region :=
  match rows with
  | [] => .fast
  | r :: rest => if addr &&& r.mask = r.value then r.region else regionOf rest addr

/-- `Region(addr)` (21 R92). -/
def Params.region (p : Params) (addr : Word) : Region := regionOf p.regions.rows addr

/-- `InCart(addr)`: the cartridge address window (21 R92). -/
def Params.inCart (p : Params) (addr : Word) : Bool :=
  match p.region addr with
  | .rom0 | .rom1 | .rom2 => true
  | .sram | .wram | .video16 | .fast => false

/-- The address of the wait-control register (21 R94). -/
def Params.waitControl (p : Params) : Word := p.regions.waitControl

/-- The addresses of the I/O registers: the window, and the two bytes of the wait-control register wherever it is put
(log 4). -/
def Params.isIo (p : Params) (addr : Word) : Bool :=
  (p.regions.ioFirst ≤ addr && addr ≤ p.regions.ioLast) || addr == p.waitControl || addr == p.waitControl + 1#32

/-! ## The wait tables (21 R93 to R95) -/

/-- `WS_N[control]`. -/
def Params.first (p : Params) (control : BitVec 2) : Nat := p.wsN[control.toNat]'control.isLt

/-- `WS_S[slot]`. -/
def Params.second (p : Params) (slot : Slot) : Nat :=
  match slot with
  | .slot0 => p.wsS[0]
  | .slot1 => p.wsS[1]
  | .slot2 => p.wsS[2]

/-- The counts `setWaitState(slot, controlBits)` derives (R93). -/
def slotCost (p : Params) (slot : Slot) (control : BitVec 3) : RegionCost :=
  let first := p.first (control.extractLsb' 0 2)
  let second := if control.getLsbD 2 then 1 else p.second slot
  { n16 := 1 + first, s16 := 1 + second, n32 := (1 + first) + (1 + second), s32 := 2 * (1 + second) }

/-- The counts of SRAM for its two control bits (R94, R95): one count for every access. -/
def sramCost (p : Params) (control : BitVec 2) : RegionCost :=
  let c := 1 + p.first control
  { n16 := c, s16 := c, n32 := c, s32 := c }

/-- The counts of the external work RAM, not configurable (R95). -/
def wramCost : RegionCost := { n16 := 3, s16 := 3, n32 := 6, s32 := 6 }

/-! ## MLA with Rd = Rm (43 R232) -/

/-- `MLA_ALIAS_RESULT(acc)`. -/
def Params.mlaResult (p : Params) (acc : Word) : Word :=
  match p.mlaAlias with
  | .constant w => w
  | .accumulator => acc
  | .anyValue => Config.mlaAliasWord acc

end Sys2Proof.Machine
end

