-- ==== Sys2Proof/Machine/State.lean ====
section
/-! DEFINITION. The state of the machine as plain data (10_state.md R20 to R43, 21_waitstate.md R90), the reasons a step
stops, and the state after reset. What the fields mean and how they are read and written is in Ops.lean, WaitState.lean,
Memory.lean and Bus.lean. -/

namespace Sys2Proof.Machine

/-! ## Modes and status words -/

/-- The seven modes (R27). -/
inductive Mode where
  | user | fiq | irq | supervisor | abort | undefined | system
deriving DecidableEq, Repr

/-- The five banked modes, each with a saved status word (R31). -/
inductive Banked where
  | fiq | irq | supervisor | abort | undefined
deriving DecidableEq, Repr

/-- CPSR (R26): the bits the word has. Bits 27:8 are not implemented and are no state; the mode field holds one of the
seven legal numbers (an illegal one is never installed, `Refusal.illegalMode`). -/
structure Cpsr where
  n : Bool
  z : Bool
  c : Bool
  v : Bool
  i : Bool
  f : Bool
  t : Bool
  mode : Mode
deriving DecidableEq, Repr

/-- A saved status word (R31): as CPSR, but the mode field can hold any five bits, legal or not. -/
structure Spsr where
  n : Bool
  z : Bool
  c : Bool
  v : Bool
  i : Bool
  f : Bool
  t : Bool
  m : BitVec 5
deriving DecidableEq, Repr

/-! ## Registers -/

/-- The thirty physical registers behind R0 to R14 (R21), by their names there. -/
inductive PhysReg where
  | r0 | r1 | r2 | r3 | r4 | r5 | r6 | r7
  | r8_usr | r9_usr | r10_usr | r11_usr | r12_usr | r13_usr | r14_usr
  | r8_fiq | r9_fiq | r10_fiq | r11_fiq | r12_fiq | r13_fiq | r14_fiq
  | r13_irq | r14_irq | r13_svc | r14_svc | r13_abt | r14_abt | r13_und | r14_und
deriving DecidableEq, Repr

/-! ## The wait-state controller (21_waitstate.md R90) -/

/-- The state of the controller (R90). -/
structure WaitState where
  wcnt : BitVec 16
  rom0 : RegionCost
  rom1 : RegionCost
  rom2 : RegionCost
  sram : RegionCost
  wram : RegionCost
  prefetchEn : Bool
  buffer : Nat
  clocks : Nat
  nonseq : Bool
  cycles : Nat
deriving DecidableEq, Repr

/-- The controller after reset (R91): the tables of R93 to R95 for `wcnt` = 0. -/
def WaitState.reset (p : Params) : WaitState where
  wcnt := 0
  rom0 := slotCost p .slot0 0
  rom1 := slotCost p .slot1 0
  rom2 := slotCost p .slot2 0
  sram := sramCost p 0
  wram := wramCost
  prefetchEn := false
  buffer := 0
  clocks := 0
  nonseq := true
  cycles := 0

/-! ## Memory and the outside -/

/-- Memory (20_memory.md R60): the bytes that differ from what an unlisted address reads as, by rising address. -/
abbrev Memory := List Host.Cell

/-- The attributes a data access carries on the bus (log 8). -/
structure BusAttr where
  /-- Presented as a User-mode access: the T forms (44_single_transfer.md R262). -/
  user : Bool
  /-- The access belongs to a swap that holds the bus from its read to its write (20_memory.md R76). -/
  locked : Bool
deriving DecidableEq, Repr

/-- A call of the core on the bus, the clock or the wait-state controller (20_memory.md R61, 21_waitstate.md R109), as
the lists of 97_test_vectors_3.md 3.13 name them. -/
inductive BusCall where
  | fetch32 (addr : Word)
  | memRead (addr : Word) (bytes : Nat) (attr : BusAttr)
  | memWrite (addr : Word) (bytes : Nat) (value : Word) (attr : BusAttr)
  | memReadRaw32 (addr : Word)
  | memWriteRaw32 (addr : Word) (value : Word)
  | internal
  | nonSeq
  | multiplier (cycles : Nat)
  | bulkCharge (transfers : Nat)
  | branch
deriving DecidableEq, Repr

/-- The calls from the platform into the core (60_exceptions.md R390), and a byte written by another bus master (R8). -/
inductive PlatformCall where
  /-- `branch(address)` (40_pipeline_condition.md R163). -/
  | branch (addr : Word)
  /-- `enterTHUMB()` (R164). -/
  | enterThumb
  /-- `triggerIRQ(mask)` (R377). -/
  | triggerIrq (mask : Word)
  /-- `switchRegisterBank(modeBits)`, with I, F, T of `modeFlags` if given (log 30). -/
  | switchBank (modeBits : BitVec 5) (modeFlags : Option (Bool × Bool × Bool))
  /-- `SPSRtoCPSR()`. -/
  | spsrToCpsr
  /-- `write(n, v)`. -/
  | writeReg (n : Reg) (v : Word)
  /-- `writeUser(n, v)`. -/
  | writeUser (n : Reg) (v : Word)
  /-- The flag write. -/
  | writeFlags (n z c v : Bool)
  /-- The halt toggle (R391). -/
  | setHalted (on : Bool)
  /-- The wait-control write (21_waitstate.md R94). -/
  | waitControl (value : BitVec 16)
  /-- The reset request (70_reset_and_hazards.md R410). -/
  | reset
  /-- Another bus master (DMA) writes a byte of memory (R8, R74). -/
  | dmaByte (addr : Word) (b : Byte)
deriving DecidableEq, Repr

/-- What the platform does for one step (R8): the calls before it, and the calls inside it, one list for each bus access or
cycle hook of the step, in their order (log 7). -/
structure Turn where
  before : List PlatformCall
  inside : List (List PlatformCall)
deriving DecidableEq, Repr

/-! ## Why a step stops -/

/-- No step of this core ends in a fault: "There is no recoverable-error channel inside the core" (R166). Every exception
the specification describes is taken and gives a next state. -/
inductive Fault where
deriving DecidableEq, Repr

/-- The refusals. The three besides `notModelled` are those the specification asks a model for (R166). -/
inductive Refusal where
  /-- Raised by `exec` for an instruction without a meaning yet; no arm raises it now. Safe. -/
  | notModelled (mnemonic : String)
  /-- Raised by a step that finds CPSR.T = 1, with the address R15 (30_encoding.md R141, 93 U23). Safe: no next state. -/
  | compactEncoding (address : Word)
  /-- Raised by MSR to CPSR, by a CPSR restore and by the platform's mode switch when the mode number is not one of the
  seven (R334, R160, 93 U6). Safe: no next state. -/
  | illegalMode (m : BitVec 5)
  /-- Raised by a single or block transfer that writes back to a base that is R15 (R271, R305, 93 U11). Safe: no next
  state. -/
  | writebackToR15
deriving DecidableEq, Repr

/-! ## The state -/

/-- The state of the machine. The first fourteen fields are the core's (10_state.md), `mem` is the platform's memory and
`ws` the wait-state controller; `params` are the parameters of R4 (log 29); `calls`, `agenda`, `inside`, `stop` and `draws`
are the model's own (log 8, log 7, log 6). -/
structure State where
  /-- The physical registers, by `PhysReg` (R21). -/
  regs : Vector Word 30
  /-- The program counter: the address of the next fetch (R24). -/
  r15 : Word
  cpsr : Cpsr
  spsrFiq : Spsr
  spsrIrq : Spsr
  spsrSvc : Spsr
  spsrAbt : Spsr
  spsrUnd : Spsr
  /-- The three pipeline latches (R33). -/
  fetch : Word
  decode : Word
  execute : Word
  /-- The bubble steps still to be taken (R34). -/
  refill : Fin 3
  /-- The interrupt request (R37, R377). -/
  irqLine : Bool
  /-- The halt input (R37, R391). -/
  halted : Bool
  mem : Memory
  ws : WaitState
  /-- The parameters of the hardware (R4), which no step changes (log 29). -/
  params : Params
  /-- The calls the core has made in this step, oldest first (log 8). An output: nothing reads it. -/
  calls : List BusCall
  /-- What the platform does for each coming step (log 7). -/
  agenda : List Turn
  /-- What the platform still does inside the present step: the next list at the next bus access or cycle hook (log 7). -/
  inside : List (List PlatformCall)
  /-- The refusal of a call the platform made inside the present step, which the step ends with (log 7). -/
  stop : Option Refusal
  /-- How many free values have been drawn (log 6). -/
  draws : Nat
deriving DecidableEq, Repr

/-- A saved status word of zeros (log 1). -/
def Spsr.zero : Spsr where
  n := false
  z := false
  c := false
  v := false
  i := false
  f := false
  t := false
  m := 0

/-- The machine right after reset (R41, R411): Supervisor mode, I = F = 1, T = 0, R15 = RESET_PC, refill = 2, the
controller as R91, the parameters at their defaults (log 16). What the specification leaves unspecified is zero here (log 1). -/
def State.reset : State where
  regs := Vector.replicate 30 0
  r15 := defaultParams.resetPc &&& 0xFFFFFFFC#32
  cpsr := { n := false, z := false, c := false, v := false, i := true, f := true, t := false, mode := .supervisor }
  spsrFiq := Spsr.zero
  spsrIrq := Spsr.zero
  spsrSvc := Spsr.zero
  spsrAbt := Spsr.zero
  spsrUnd := Spsr.zero
  fetch := 0
  decode := 0
  execute := 0
  refill := 2
  irqLine := false
  halted := false
  mem := []
  ws := WaitState.reset defaultParams
  params := defaultParams
  calls := []
  agenda := []
  inside := []
  stop := none
  draws := 0

end Sys2Proof.Machine
end

