-- ==== Sys2Proof/Machine/WaitState.lean ====
section
/-! DEFINITION. The wait-state controller and prefetch buffer (21_waitstate.md R90 to R112). Every function maps one state
of the controller to the next; `cart` says whether R15 is in the cartridge window, the one thing the controller reads from
the core (R109), `p` are the parameters. Nothing here changes a register, a flag or memory (R112). -/

namespace Sys2Proof.Machine

/-! ## Configuration -/

/-- Empty the prefetch buffer and its clock counter. -/
def WaitState.flush (ws : WaitState) : WaitState := { ws with buffer := 0, clocks := 0 }

/-- A write of the wait-control register (R94, R105). -/
def WaitState.setControl (ws : WaitState) (p : Params) (v : BitVec 16) : WaitState :=
  let en := v.getLsbD 14
  let ws' := if en = ws.prefetchEn then ws else ws.flush
  { ws' with
    wcnt := v
    rom0 := slotCost p .slot0 (v.extractLsb' 2 3)
    rom1 := slotCost p .slot1 (v.extractLsb' 5 3)
    rom2 := slotCost p .slot2 (v.extractLsb' 8 3)
    sram := sramCost p (v.extractLsb' 0 2)
    wram := wramCost
    prefetchEn := en }

/-! ## Costs -/

/-- The entry of a region's table: `wide` is a 32-bit access, `q` a non-sequential one. -/
def RegionCost.count (r : RegionCost) (wide q : Bool) : Nat :=
  match wide, q with
  | false, true => r.n16
  | false, false => r.s16
  | true, true => r.n32
  | true, false => r.s32

/-- The cycles of an access to a region (R93, R95). -/
def WaitState.cost (ws : WaitState) (r : Region) (wide q : Bool) : Nat :=
  match r with
  | .rom0 => ws.rom0.count wide q
  | .rom1 => ws.rom1.count wide q
  | .rom2 => ws.rom2.count wide q
  | .sram => ws.sram.count wide q
  | .wram => ws.wram.count wide q
  | .video16 => if wide then 2 else 1
  | .fast => 1

/-! ## Charging -/

/-- `Charge(total)` (R100): `free` of the cycles leave the ROM bus free. -/
def WaitState.charge (ws : WaitState) (cart : Bool) (free total : Nat) : WaitState :=
  let ws' := { ws with cycles := ws.cycles + total }
  if !cart then ws'.flush
  else if ws.prefetchEn then { ws' with clocks := ws'.clocks + free }
  else ws'

/-- `NonSeq()` (R97). -/
def WaitState.nonSeq (ws : WaitState) : WaitState := { ws with nonseq := true }

/-- Is an address at a 128 KiB boundary (R99)? -/
def atBoundary (addr : Word) : Bool := addr.extractLsb' 0 17 == 0#17

/-- The 128 KiB rule (R99), before the tag of a cartridge access is taken. -/
def WaitState.boundary (ws : WaitState) (addr : Word) : WaitState :=
  if atBoundary addr then
    let ws' := if ws.prefetchEn then ws.flush else ws
    ws'.nonSeq
  else ws

/-- Take the tag of one access and charge it (R96): `free` says whether the ROM bus is free meanwhile. -/
def WaitState.tagged (ws : WaitState) (cart free : Bool) (r : Region) (wide : Bool) : WaitState :=
  let n := ws.cost r wide ws.nonseq
  { ws with nonseq := false }.charge cart (if free then n else 0) n

/-- `ROMAccess` (R101). -/
def WaitState.romAccess (ws : WaitState) (p : Params) (cart : Bool) (addr : Word) (wide : Bool) : WaitState :=
  (ws.boundary addr).tagged cart false (p.region addr) wide

/-- The lazy drain of R102: one buffered unit for each sequential count the ROM bus had free. The loop runs at most
`cap` times, since each turn adds one unit. -/
def WaitState.drain (cap unit : Nat) : Nat → WaitState → WaitState
  | 0, ws => ws
  | fuel + 1, ws =>
    if ws.buffer < cap && unit ≤ ws.clocks then
      WaitState.drain cap unit fuel { ws with clocks := ws.clocks - unit, buffer := ws.buffer + 1 }
    else ws

/-- `ROMFetch` of 32 bits with prefetch enabled (R102): hit, half hit or miss. -/
def WaitState.romFetch (ws : WaitState) (p : Params) (cart : Bool) (addr : Word) : WaitState :=
  let r := p.region addr
  let unit := ws.cost r false false
  let ws := WaitState.drain p.prebufCap unit p.prebufCap (ws.boundary addr)
  if !ws.nonseq && 2 ≤ ws.buffer then
    { ws with buffer := ws.buffer - 2 }.charge cart 0 1
  else if !ws.nonseq && ws.buffer == 1 then
    let ws' := { ws with buffer := 0 }.charge cart 0 (max 1 (unit - ws.clocks))
    { ws' with clocks := 0 }
  else
    let ws' := { ws with nonseq := false }.charge cart 0 (max 1 (ws.cost r true ws.nonseq - ws.clocks))
    ws'.flush

/-- The cost of a `Fetch32` (R106, R107). -/
def WaitState.fetchCost (ws : WaitState) (p : Params) (cart : Bool) (addr : Word) : WaitState :=
  if p.inCart addr then
    if ws.prefetchEn then ws.romFetch p cart addr else ws.romAccess p cart addr true
  else ws.flush.nonSeq.tagged cart true (p.region addr) true

/-- The cost of a `MemRead` or `MemWrite` (R103, R107): 32-bit when `wide`. -/
def WaitState.dataCost (ws : WaitState) (p : Params) (cart : Bool) (addr : Word) (wide : Bool) : WaitState :=
  if p.inCart addr then (if ws.prefetchEn then ws.flush else ws).romAccess p cart addr wide
  else ws.tagged cart true (p.region addr) wide

/-- The count of one transfer of a block transfer (R108, and R99 for each cartridge access, log 21). -/
def WaitState.transferCost (ws : WaitState) (p : Params) (first : Bool) (addr : Word) : Nat :=
  ws.cost (p.region addr) true (first || (p.inCart addr && atBoundary addr))

/-- The counts of the transfers at `addr`, `addr + 4`, … (R108): those that leave the ROM bus free, and all. -/
def WaitState.bulkCounts (ws : WaitState) (p : Params) (first : Bool) : Nat → Word → Nat × Nat
  | 0, _ => (0, 0)
  | n + 1, addr =>
    let c := ws.transferCost p first addr
    let rest := ws.bulkCounts p false n (addr + 4#32)
    (rest.1 + (if p.inCart addr then 0 else c), rest.2 + c)

/-- Does one of the transfers at `addr`, `addr + 4`, … reach the cartridge window? -/
def touchesCart (p : Params) : Nat → Word → Bool
  | 0, _ => false
  | n + 1, addr => p.inCart addr || touchesCart p n (addr + 4#32)

/-- The bulk charge of a block transfer of `n` words whose first access is at `addr` (R103, R108). -/
def WaitState.bulk (ws : WaitState) (p : Params) (cart : Bool) (n : Nat) (addr : Word) : WaitState :=
  let ws := if touchesCart p n addr && ws.prefetchEn then ws.flush else ws
  let counts := ws.bulkCounts p true n addr
  { ws with nonseq := false }.charge cart counts.1 counts.2

/-- The branch hook (R98, 40_pipeline_condition.md R157). -/
def WaitState.branchHook (ws : WaitState) : WaitState := ws.flush.nonSeq

/-- The branch hook as the controller answers it in the entry step of an interrupt: with the sequential fetch cost at the R15
that is left, `addr`, since the step has made no fetch (70_reset_and_hazards.md R421). DESIGN CHOICE (log 31). -/
def WaitState.entryHook (ws : WaitState) (p : Params) (cart : Bool) (addr : Word) : WaitState :=
  (ws.charge cart 0 (ws.cost (p.region addr) true false)).branchHook

/-! ## The multiplier's cycles (70_reset_and_hazards.md R423) -/

/-- `m` for MUL, MLA, SMULL, SMLAL: the upper bytes of Rs all zeros or all ones. -/
def mulCyclesSigned (rs : Word) : Nat :=
  if rs.extractLsb' 8 24 = 0 ∨ rs.extractLsb' 8 24 = BitVec.allOnes 24 then 1
  else if rs.extractLsb' 16 16 = 0 ∨ rs.extractLsb' 16 16 = BitVec.allOnes 16 then 2
  else if rs.extractLsb' 24 8 = 0 ∨ rs.extractLsb' 24 8 = BitVec.allOnes 8 then 3
  else 4

/-- `m` for UMULL and UMLAL: only the all-zeros tests apply. -/
def mulCyclesUnsigned (rs : Word) : Nat :=
  if rs.extractLsb' 8 24 = 0 then 1
  else if rs.extractLsb' 16 16 = 0 then 2
  else if rs.extractLsb' 24 8 = 0 then 3
  else 4

end Sys2Proof.Machine
end

