-- ==== Sys2Proof/Machine/Bytes.lean ====
section
/-! DEFINITION. The bytes on the bus (20_memory.md R61, R62): what a read gives and what a write does, once the platform
answers; little-endian (R62). When it answers is in Bus.lean. -/

namespace Sys2Proof.Machine

/-- Note a call in the step's list (log 8). -/
def State.note (s : State) (c : BusCall) : State := { s with calls := s.calls ++ [c] }

/-- Run the controller on its state. -/
def State.clock (s : State) (f : WaitState → WaitState) : State := { s with ws := f s.ws }

/-! ## Reading -/

/-- A byte of the I/O window: the wait-control register reads as last written, with bit 13 zero and bit 15 free (21 R94,
log 5); every other register answers anything (20 R61, log 4). -/
def State.deviceByte (s : State) (a : Word) : Byte :=
  if a = s.params.waitControl then s.ws.wcnt.extractLsb' 0 8
  else if a = s.params.waitControl + 1#32 then
    (s.ws.wcnt.extractLsb' 8 8 &&& 0x5F#8) ||| (Config.deviceByte s.draws a.toNat &&& 0x80#8)
  else Config.deviceByte s.draws a.toNat

/-- What a read of one byte gives now. -/
def State.byteAt (s : State) (a : Word) : Byte :=
  if s.params.isIo a then s.deviceByte a else s.mem.read a.toNat

/-- The byte at an address, zero-extended. -/
def State.peek8 (s : State) (a : Word) : Word := (s.byteAt a).setWidth 32

/-- The halfword at an address, zero-extended (R62). -/
def State.peek16 (s : State) (a : Word) : Word := (s.byteAt (a + 1#32) ++ s.byteAt a).setWidth 32

/-- The word at an address (R62). -/
def State.peek32 (s : State) (a : Word) : Word :=
  s.byteAt (a + 3#32) ++ s.byteAt (a + 2#32) ++ s.byteAt (a + 1#32) ++ s.byteAt a

/-- Does one of the `n` bytes from `a` belong to the I/O registers? -/
def Params.touchesIo (p : Params) (a : Word) (n : Nat) : Bool := (List.range n).any fun k => p.isIo (a + BitVec.ofNat 32 k)

/-- After a read of `n` bytes that reached a device the next read may answer otherwise (20 R71, log 4). -/
def State.answered (s : State) (a : Word) (n : Nat) : State :=
  if s.params.touchesIo a n then { s with draws := s.draws + 1 } else s

/-! ## Writing -/

/-- The platform takes one byte: the wait-control register is set (21 R94, log 5), another device keeps what it gets to
itself (log 4), memory holds it. -/
def State.pokeByte (s : State) (a : Word) (b : Byte) : State :=
  if a = s.params.waitControl then s.clock fun ws => ws.setControl s.params (ws.wcnt.extractLsb' 8 8 ++ b)
  else if a = s.params.waitControl + 1#32 then s.clock fun ws => ws.setControl s.params (b ++ ws.wcnt.extractLsb' 0 8)
  else if s.params.isIo a then s
  else { s with mem := s.mem.write a.toNat b }

/-- Write the low halfword of `v` (R62). -/
def State.poke16 (s : State) (a : Word) (v : Word) : State :=
  (s.pokeByte a (v.extractLsb' 0 8)).pokeByte (a + 1#32) (v.extractLsb' 8 8)

/-- Write the word `v` (R62). -/
def State.poke32 (s : State) (a : Word) (v : Word) : State :=
  (s.poke16 a v).poke16 (a + 2#32) (v.extractLsb' 16 16 |>.setWidth 32)

end Sys2Proof.Machine
end

