-- ==== Sys2Proof/Machine/Ops.lean ====
section
/-! DEFINITION. Registers and their banks, the status words, the branch primitive and the guarded writes, taking an
exception and returning from one (10_state.md R20 to R32, 40_pipeline_condition.md R157 to R164, 60_exceptions.md R375). -/

namespace Sys2Proof.Machine

/-- The outcome of a step of this machine. -/
abbrev Result := Host.Outcome State Fault Refusal

/-- Go on from a next state; a fault or refusal stays. -/
def Result.andThen (o : Result) (f : State → Result) : Result :=
  match o with
  | .next s => f s
  | .fault r => .fault r
  | .refused r => .refused r

/-! ## Modes (R27) -/

/-- The value of `CPSR.M` for a mode. -/
def Mode.code : Mode → BitVec 5
  | .user => 0b10000#5
  | .fiq => 0b10001#5
  | .irq => 0b10010#5
  | .supervisor => 0b10011#5
  | .abort => 0b10111#5
  | .undefined => 0b11011#5
  | .system => 0b11111#5

/-- The mode of a mode number, none if it is not one of the seven (93 U6). -/
def Mode.ofCode (m : BitVec 5) : Option Mode :=
  match m.toNat with
  | 0b10000 => some .user
  | 0b10001 => some .fiq
  | 0b10010 => some .irq
  | 0b10011 => some .supervisor
  | 0b10111 => some .abort
  | 0b11011 => some .undefined
  | 0b11111 => some .system
  | _ => none

/-- `Privileged(m)`: every mode but User. -/
def Mode.privileged : Mode → Bool
  | .user => false
  | .fiq | .irq | .supervisor | .abort | .undefined | .system => true

/-- The bank of a mode's SPSR; none for User and System, which have none (`HasSPSR`). -/
def Mode.banked : Mode → Option Banked
  | .fiq => some .fiq
  | .irq => some .irq
  | .supervisor => some .supervisor
  | .abort => some .abort
  | .undefined => some .undefined
  | .user | .system => none

/-- The mode of a bank. -/
def Banked.mode : Banked → Mode
  | .fiq => .fiq
  | .irq => .irq
  | .supervisor => .supervisor
  | .abort => .abort
  | .undefined => .undefined

/-! ## The register file (R21, R23) -/

/-- Where a physical register stands in `State.regs`. -/
def PhysReg.index : PhysReg → Fin 30
  | .r0 => 0 | .r1 => 1 | .r2 => 2 | .r3 => 3 | .r4 => 4 | .r5 => 5 | .r6 => 6 | .r7 => 7
  | .r8_usr => 8 | .r9_usr => 9 | .r10_usr => 10 | .r11_usr => 11 | .r12_usr => 12 | .r13_usr => 13 | .r14_usr => 14
  | .r8_fiq => 15 | .r9_fiq => 16 | .r10_fiq => 17 | .r11_fiq => 18 | .r12_fiq => 19 | .r13_fiq => 20 | .r14_fiq => 21
  | .r13_irq => 22 | .r14_irq => 23 | .r13_svc => 24 | .r14_svc => 25 | .r13_abt => 26 | .r14_abt => 27
  | .r13_und => 28 | .r14_und => 29

/-- R13 of a mode (R21). -/
def Mode.r13 : Mode → PhysReg
  | .user | .system => .r13_usr
  | .fiq => .r13_fiq
  | .irq => .r13_irq
  | .supervisor => .r13_svc
  | .abort => .r13_abt
  | .undefined => .r13_und

/-- R14 of a mode (R21). -/
def Mode.r14 : Mode → PhysReg
  | .user | .system => .r14_usr
  | .fiq => .r14_fiq
  | .irq => .r14_irq
  | .supervisor => .r14_svc
  | .abort => .r14_abt
  | .undefined => .r14_und

/-- One of R8 to R12: FIQ has its own, the others share User's (R21). -/
def Mode.pick (m : Mode) (usr fiq : PhysReg) : PhysReg :=
  match m with
  | .fiq => fiq
  | .user | .irq | .supervisor | .abort | .undefined | .system => usr

/-- The physical register a visible number names in a mode (the table of R21); none for R15, which no mode banks. -/
def physical (m : Mode) (n : Reg) : Option PhysReg :=
  match n.val with
  | 0 => some .r0 | 1 => some .r1 | 2 => some .r2 | 3 => some .r3
  | 4 => some .r4 | 5 => some .r5 | 6 => some .r6 | 7 => some .r7
  | 8 => some (m.pick .r8_usr .r8_fiq)
  | 9 => some (m.pick .r9_usr .r9_fiq)
  | 10 => some (m.pick .r10_usr .r10_fiq)
  | 11 => some (m.pick .r11_usr .r11_fiq)
  | 12 => some (m.pick .r12_usr .r12_fiq)
  | 13 => some m.r13
  | 14 => some m.r14
  | _ => none

/-- A physical register's value. -/
def State.phys (s : State) (p : PhysReg) : Word := s.regs[p.index]

/-- Write a physical register. -/
def State.setPhys (s : State) (p : PhysReg) (v : Word) : State := { s with regs := s.regs.set p.index v }

/-- Visible register `n` through the bank of mode `m`; R15 is the raw program counter (00 R6). -/
def State.regIn (s : State) (m : Mode) (n : Reg) : Word :=
  match physical m n with
  | some p => s.phys p
  | none => s.r15

/-- Write visible register `n`, 0 to 14, through the bank of mode `m`. It never stands for a write of R15 (00 R6), which
leaves the state as it is (log 26). -/
def State.setRegIn (s : State) (m : Mode) (n : Reg) (v : Word) : State :=
  match physical m n with
  | some p => s.setPhys p v
  | none => s

/-- `x[n]` (00 R6). -/
def State.reg (s : State) (n : Reg) : Word := s.regIn s.cpsr.mode n

/-- `x[n] <- v` (00 R6). -/
def State.setReg (s : State) (n : Reg) (v : Word) : State := s.setRegIn s.cpsr.mode n v

/-- `xu[n]` (R23). -/
def State.userReg (s : State) (n : Reg) : Word := s.regIn .user n

/-- `xu[n] <- v` (R23). -/
def State.setUserReg (s : State) (n : Reg) (v : Word) : State := s.setRegIn .user n v

/-! ## Status words (R26, R31, R32) -/

/-- The 32-bit view of CPSR: bits 27:8 read as zero (R26). -/
def Cpsr.toWord (p : Cpsr) : Word :=
  flag p.n ++ flag p.z ++ flag p.c ++ flag p.v ++ 0#20 ++ flag p.i ++ flag p.f ++ flag p.t ++ p.mode.code

/-- The 32-bit view of an SPSR (R31). -/
def Spsr.toWord (p : Spsr) : Word :=
  flag p.n ++ flag p.z ++ flag p.c ++ flag p.v ++ 0#20 ++ flag p.i ++ flag p.f ++ flag p.t ++ p.m

/-- The saved status word holding the implemented bits of a word (R31). -/
def Spsr.ofWord (w : Word) : Spsr where
  n := bit w 31
  z := bit w 30
  c := bit w 29
  v := bit w 28
  i := bit w 7
  f := bit w 6
  t := bit w 5
  m := bits w 0 5

/-- A copy of CPSR, as exception entry saves it (60 R375). -/
def Cpsr.save (p : Cpsr) : Spsr :=
  { n := p.n, z := p.z, c := p.c, v := p.v, i := p.i, f := p.f, t := p.t, m := p.mode.code }

/-- The SPSR of a banked mode. -/
def State.spsrOf (s : State) : Banked → Spsr
  | .fiq => s.spsrFiq
  | .irq => s.spsrIrq
  | .supervisor => s.spsrSvc
  | .abort => s.spsrAbt
  | .undefined => s.spsrUnd

/-- Write the SPSR of a banked mode. -/
def State.setSpsrOf (s : State) (b : Banked) (p : Spsr) : State :=
  match b with
  | .fiq => { s with spsrFiq := p }
  | .irq => { s with spsrIrq := p }
  | .supervisor => { s with spsrSvc := p }
  | .abort => { s with spsrAbt := p }
  | .undefined => { s with spsrUnd := p }

/-- Replace CPSR; a change of mode is a change of bank at once (R22). -/
def State.setCpsr (s : State) (p : Cpsr) : State := { s with cpsr := p }

/-! ## The program counter (R24, R25, 40 R157) -/

/-- `AdvancePC` (00 R6). -/
def State.advancePC (s : State) : State := { s with r15 := s.r15 + 4#32 }

/-- The mask of a branch target in an instruction set (40 R157). -/
def branchMask (t : Bool) : Word := if t then 0xFFFFFFFE#32 else 0xFFFFFFFC#32

/-- `Branch(target)` (40 R157, R161) with what the controller does at its hook. -/
def State.branchVia (s : State) (hook : WaitState → WaitState) (target : Word) : State :=
  ({ s with r15 := target &&& branchMask s.cpsr.t, refill := 2 }.clock hook).note .branch

/-- `Branch(target)`, `pc <- target` (40 R157, R161; 21 R98). -/
def State.branch (s : State) (target : Word) : State := s.branchVia WaitState.branchHook target

/-- `GuardedWrite(n, v)` (40 R159). -/
def State.guardedWrite (s : State) (n : Reg) (v : Word) : State :=
  if n = 15 then s.branch v else (s.setReg n v).advancePC

/-- `RestoreCPSR()` (40 R160): nothing in User and System mode (R32), a refusal where the saved mode number is illegal. -/
def State.restoreCpsr (s : State) : Result :=
  match s.cpsr.mode.banked with
  | none => .next s
  | some b =>
    let p := s.spsrOf b
    match Mode.ofCode p.m with
    | some m => .next (s.setCpsr { n := p.n, z := p.z, c := p.c, v := p.v, i := p.i, f := p.f, t := p.t, mode := m })
    | none => .refused (.illegalMode p.m)

/-- `GuardedWriteRestore(15, v)` (40 R160): the return from an exception (60 R376). -/
def State.returnTo (s : State) (v : Word) : Result :=
  Result.andThen s.restoreCpsr fun s => .next (s.branch v)

/-! ## Taking an exception (60 R375) -/

/-- `Enter(mode, vector, setsF)`: the old CPSR goes to the SPSR of the new mode, R15 - 4 to its R14; I is set, F if
`setsF`, T is cleared, and the core branches to the vector. `hook` is what the controller does at the branch hook. -/
def State.enterVia (s : State) (hook : WaitState → WaitState) (b : Banked) (vector : Word) (setsF : Bool) : State :=
  let old := s.cpsr
  let ret := s.r15 - 4#32
  let s := s.setCpsr { old with mode := b.mode }
  let s := s.setSpsrOf b old.save
  let s := s.setReg 14 ret
  let s := s.setCpsr { s.cpsr with i := true, f := s.cpsr.f || setsF, t := false }
  s.branchVia hook vector

/-- `Enter(mode, vector, setsF)` with the branch hook of 21 R98. -/
def State.enter (s : State) (b : Banked) (vector : Word) (setsF : Bool) : State :=
  s.enterVia WaitState.branchHook b vector setsF

/-! ## Stored values of R15 (44 R261) -/

/-- `StoreValue(n)`: R15 is stored as the instruction's address, R15 - 8, plus `STORE_PC_OFF`, in every store that is not a
swap. DESIGN CHOICE (log 32) for STRB, STRH, STRT and STRBT, where 93 U14 gives the address + 8. -/
def State.storeValue (s : State) (n : Reg) : Word :=
  if n = 15 then s.r15 - 8#32 + s.params.storePcOff else s.reg n

end Sys2Proof.Machine
end

