-- ==== Sys2Proof/Machine/Platform.lean ====
section
/-! DEFINITION. The calls from the platform into the core (60_exceptions.md R390) and the reset sequence
(70_reset_and_hazards.md R411). -/

namespace Sys2Proof.Machine

/-- `Reset()` (R411): R14_svc and SPSR_svc become free values (log 23); everything not named keeps what it held. -/
def State.resetSequence (s : State) : State :=
  let s := s.setCpsr { s.cpsr with mode := .supervisor, i := true, f := true, t := false }
  let s := s.setPhys .r14_svc (Config.freeWord s.draws)
  let s := s.setSpsrOf .supervisor (Spsr.ofWord (Config.freeWord (s.draws + 1)))
  let s := { s with halted := false, ws := WaitState.reset s.params, draws := s.draws + 2 }
  s.branch s.params.resetPc

/-- `switchRegisterBank(modeBits)` with `modeFlags` (R390): the same legality as MSR (47_status_transfer.md R334), so that an
illegal mode number is refused and the T of `modeFlags` never makes T = 1. DEDUCED (log 30): it still clears T. -/
def State.switchBank (s : State) (m : BitVec 5) (flags : Option (Bool × Bool × Bool)) : Result :=
  match Mode.ofCode m with
  | none => .refused (.illegalMode m)
  | some mode =>
    match flags with
    | none => .next (s.setCpsr { s.cpsr with mode := mode })
    | some (i, f, t) => .next (s.setCpsr { s.cpsr with mode := mode, i := i, f := f, t := s.cpsr.t && t })

/-- One call (R390). A write of R15 is taken as `branch` (93 U26, log 22). -/
def platformCall (c : PlatformCall) (s : State) : Result :=
  match c with
  | .branch addr => .next (s.branch addr)
  | .enterThumb => .next (s.setCpsr { s.cpsr with t := true })
  | .triggerIrq mask => .next { s with irqLine := mask != 0#32 }
  | .switchBank m flags => s.switchBank m flags
  | .spsrToCpsr => s.restoreCpsr
  | .writeReg n v => if n = 15 then .next (s.branch v) else .next (s.setReg n v)
  | .writeUser n v => if n = 15 then .next (s.branch v) else .next (s.setUserReg n v)
  | .writeFlags n z c v => .next (s.setCpsr { s.cpsr with n := n, z := z, c := c, v := v })
  | .setHalted on => .next { s with halted := on }
  | .waitControl value => .next (s.clock fun ws => ws.setControl s.params value)
  | .reset => .next s.resetSequence
  | .dmaByte addr b => .next (s.pokeByte addr b)

/-- A list of calls, in order. -/
def runCalls (call : PlatformCall → State → Result) : List PlatformCall → State → Result
  | [], s => .next s
  | c :: rest, s => Result.andThen (call c s) (runCalls call rest)

/-- What the platform does before a step: the calls of the first turn of the agenda, which also says what it does inside the
step (log 7). -/
def platformTurn (s : State) : Result :=
  match s.agenda with
  | [] => .next s
  | turn :: rest => runCalls platformCall turn.before { s with agenda := rest, inside := turn.inside }

end Sys2Proof.Machine
end

