-- ==== Sys2Proof/Machine/Bus.lean ====
section
/-! DEFINITION. The calls of the core on the bus and the clock (20_memory.md R61, 21_waitstate.md R109). Each one charges its
cost and notes itself in `calls`; then the platform acts (00_scope.md R8), and only then the data are given or taken, so that
devices have advanced by the time a value is sampled (21 R107). -/

namespace Sys2Proof.Machine

/-! ## The platform inside a call (R8, 60_exceptions.md R388, R390; log 7) -/

/-- A reset asserted inside a call is performed between the steps (70_reset_and_hazards.md R410): first of all before the
next. -/
def deferReset (agenda : List Turn) : List Turn :=
  match agenda with
  | [] => [{ before := [.reset], inside := [] }]
  | turn :: rest => { turn with before := .reset :: turn.before } :: rest

/-- One call of the platform inside a call of the core. -/
def innerCall (c : PlatformCall) (s : State) : Result :=
  if c = .reset then .next { s with agenda := deferReset s.agenda } else platformCall c s

/-- The platform acts: the next list of `inside`. A call that is refused ends the step with its refusal. -/
def State.attend (s : State) : State :=
  match s.inside with
  | [] => s
  | batch :: rest =>
    match runCalls innerCall batch { s with inside := rest } with
    | .next t => t
    | .refused r => { s with inside := [], stop := some r }

/-- A call of cost `f`: charged, noted, the platform's turn. -/
def State.call (s : State) (f : WaitState → WaitState) (c : BusCall) : State := ((s.clock f).note c).attend

/-! ## Hooks -/

/-- `Internal()` (21 R100). -/
def State.internal (s : State) : State :=
  s.call (fun ws => ws.charge (s.params.inCart s.r15) 1 1) .internal

/-- `NonSeq()` (21 R97). -/
def State.nonSeq (s : State) : State := s.call WaitState.nonSeq .nonSeq

/-- The delegated multiply call of `m` internal cycles (43 R240, 70 R423). They are not those of `Internal()`, so the prefetch
buffer gets none of them (21 R100). -/
def State.multiplier (s : State) (m : Nat) : State :=
  s.call (fun ws => ws.charge (s.params.inCart s.r15) 0 m) (.multiplier m)

/-- The bulk charge of a block transfer of `n` words, the first accessed at `addr` (21 R108). -/
def State.bulkCharge (s : State) (n : Nat) (addr : Word) : State :=
  s.call (fun ws => ws.bulk s.params (s.params.inCart s.r15) n addr) (.bulkCharge n)

/-! ## Reading -/

/-- The cost of a data access (21 R103, R107). -/
def State.dataCost (s : State) (addr : Word) (wide : Bool) (ws : WaitState) : WaitState :=
  ws.dataCost s.params (s.params.inCart s.r15) addr wide

/-- `Fetch32(addr)` (20 R63). -/
def State.fetch32 (s : State) (addr : Word) : Word × State :=
  let s := s.call (fun ws => ws.fetchCost s.params (s.params.inCart s.r15) addr) (.fetch32 addr)
  (s.peek32 addr, s.answered addr 4)

/-- `MemRead(addr, 1)`. -/
def State.memRead8 (s : State) (addr : Word) (attr : BusAttr) : Word × State :=
  let s := s.call (s.dataCost addr false) (.memRead addr 1 attr)
  (s.peek8 addr, s.answered addr 1)

/-- `MemRead(addr, 2)`. -/
def State.memRead16 (s : State) (addr : Word) (attr : BusAttr) : Word × State :=
  let s := s.call (s.dataCost addr false) (.memRead addr 2 attr)
  (s.peek16 addr, s.answered addr 2)

/-- `MemRead(addr, 4)`. -/
def State.memRead32 (s : State) (addr : Word) (attr : BusAttr) : Word × State :=
  let s := s.call (s.dataCost addr true) (.memRead addr 4 attr)
  (s.peek32 addr, s.answered addr 4)

/-- `MemReadRaw32(addr)`: charges nothing itself (20 R61), and the platform's clock stands still (21 R108). -/
def State.memReadRaw32 (s : State) (addr : Word) : Word × State :=
  let s := s.note (.memReadRaw32 addr)
  (s.peek32 addr, s.answered addr 4)

/-! ## Writing -/

/-- A data write of cost `f` whose bytes `poke` stores. When the bus has been held since the read of a swap, nobody else acts
before the bytes are stored (20 R76, log 19). -/
def State.write (s : State) (f : WaitState → WaitState) (c : BusCall) (attr : BusAttr) (poke : State → State) : State :=
  if attr.locked then (poke ((s.clock f).note c)).attend else poke (s.call f c)

/-- `MemWrite(addr, 1, v)`. -/
def State.memWrite8 (s : State) (addr v : Word) (attr : BusAttr) : State :=
  s.write (s.dataCost addr false) (.memWrite addr 1 (v &&& 0xFF#32) attr) attr fun s => s.pokeByte addr (v.extractLsb' 0 8)

/-- `MemWrite(addr, 2, v)`. -/
def State.memWrite16 (s : State) (addr v : Word) (attr : BusAttr) : State :=
  s.write (s.dataCost addr false) (.memWrite addr 2 (v &&& 0xFFFF#32) attr) attr fun s => s.poke16 addr v

/-- `MemWrite(addr, 4, v)`. -/
def State.memWrite32 (s : State) (addr v : Word) (attr : BusAttr) : State :=
  s.write (s.dataCost addr true) (.memWrite addr 4 v attr) attr fun s => s.poke32 addr v

/-- `MemWriteRaw32(addr, v)`: charges nothing itself (20 R61), and the platform's clock stands still (21 R108). -/
def State.memWriteRaw32 (s : State) (addr v : Word) : State :=
  (s.note (.memWriteRaw32 addr v)).poke32 addr v

end Sys2Proof.Machine
end

