-- ==== Sys2Proof/Machine/Flags.lean ====
section
/-! DEFINITION. The condition unit and every flag computation (40_pipeline_condition.md R154, R155; 42_data_processing.md
R203, R204; 43_multiply.md R238). -/

namespace Sys2Proof.Machine

/-- `CondPass(c)` (40 R154); 1111 always passes (R155). -/
def condPass (c : Cond) (p : Cpsr) : Bool :=
  match c with
  | .eq => p.z
  | .ne => !p.z
  | .cs => p.c
  | .cc => !p.c
  | .mi => p.n
  | .pl => !p.n
  | .vs => p.v
  | .vc => !p.v
  | .hi => p.c && !p.z
  | .ls => !p.c || p.z
  | .ge => p.n == p.v
  | .lt => p.n != p.v
  | .gt => !p.z && p.n == p.v
  | .le => p.z || p.n != p.v
  | .al | .nv => true

/-- The result of an operation with the four flags it computes. -/
structure Sum where
  result : Word
  n : Bool
  z : Bool
  c : Bool
  v : Bool
deriving DecidableEq, Repr

/-- `AddWithCarry(p, q, cin)` (42 R204). -/
def addWithCarry (p q : Word) (cin : Bool) : Sum :=
  let usum := p.toNat + q.toNat + cin.toNat
  let result := BitVec.ofNat 32 usum
  { result := result
    n := result.msb
    z := result == 0#32
    c := 2 ^ 32 ≤ usum
    v := p.msb == q.msb && result.msb != p.msb }

/-- `ADD p q` (R204). -/
def addOp (p q : Word) : Sum := addWithCarry p q false

/-- `ADC p q` with the carry flag `c` (R204). -/
def adcOp (p q : Word) (c : Bool) : Sum := addWithCarry p q c

/-- `SUB p q`: C is not-borrow (R204). -/
def subOp (p q : Word) : Sum := addWithCarry p (~~~q) true

/-- `SBC p q` with the carry flag `c` (R204). -/
def sbcOp (p q : Word) (c : Bool) : Sum := addWithCarry p (~~~q) c

/-- The flags of a logical operation (42 R203): C only if the shifter gave a carry-out, V never. -/
def Cpsr.logical (p : Cpsr) (result : Word) (carry : Option Bool) : Cpsr :=
  { p with n := result.msb, z := result == 0#32, c := carry.getD p.c }

/-- The flags of an arithmetic operation (42 R204). -/
def Cpsr.arith (p : Cpsr) (r : Sum) : Cpsr := { p with n := r.n, z := r.z, c := r.c, v := r.v }

/-- The flags of a multiply (43 R238): N and Z; C and V are left unchanged (log 12). -/
def Cpsr.multiply (p : Cpsr) (n z : Bool) : Cpsr := { p with n := n, z := z }

end Sys2Proof.Machine
end

