-- ==== Sys2Proof/Machine/Operands.lean ====
section
/-! DEFINITION. The barrel shifter, operand 2 and the transfer offsets (41_shifter_operand2.md R180 to R192,
44_single_transfer.md R251 to R254). A shift gives a value and a carry-out, `none` where the shifter gives none. -/

namespace Sys2Proof.Machine

/-! ## The four shifts (R180) -/

/-- `LSL32`. -/
def lsl32 (v : Word) (n : Nat) : Word := v <<< n

/-- `LSR32`. -/
def lsr32 (v : Word) (n : Nat) : Word := v >>> n

/-- `ASR32`. -/
def asr32 (v : Word) (n : Nat) : Word := v.sshiftRight n

/-- `ROR32`; an amount of 32 or more counts modulo 32. -/
def ror32 (v : Word) (n : Nat) : Word :=
  let k := n % 32
  if k = 0 then v else lsr32 v k ||| lsl32 v (32 - k)

/-- The result of the shifter. -/
structure Shifted where
  value : Word
  carry : Option Bool
deriving DecidableEq, Repr

/-- The word of 32 copies of the sign bit. -/
def signFill (m : Word) : Word := if m.msb then 0xFFFFFFFF#32 else 0#32

/-! ## Shift by immediate (R182 to R185) -/

/-- `m` shifted by an immediate amount; `c` is the carry flag, read by RRX. -/
def shiftByImm (type : ShiftType) (amount : BitVec 5) (m : Word) (c : Bool) : Shifted :=
  let a := amount.toNat
  match type with
  | .lsl => if a = 0 then ⟨m, none⟩ else ⟨lsl32 m a, some (bit m (32 - a))⟩
  | .lsr => if a = 0 then ⟨0#32, some m.msb⟩ else ⟨lsr32 m a, some (bit m (a - 1))⟩
  | .asr => if a = 0 then ⟨signFill m, some m.msb⟩ else ⟨asr32 m a, some (bit m (a - 1))⟩
  | .ror =>
    if a = 0 then ⟨(if c then 0x80000000#32 else 0#32) ||| lsr32 m 1, some (bit m 0)⟩
    else ⟨ror32 m a, some (bit m (a - 1))⟩

/-! ## Shift by register (R186 to R190) -/

/-- `m` shifted by the amount `n`, the low byte of a register (R186). -/
def shiftByReg (type : ShiftType) (n : Nat) (m : Word) : Shifted :=
  if n = 0 then ⟨m, none⟩
  else
    match type with
    | .lsl =>
      if n < 32 then ⟨lsl32 m n, some (bit m (32 - n))⟩
      else if n = 32 then ⟨0#32, some (bit m 0)⟩
      else ⟨0#32, some false⟩
    | .lsr =>
      if n < 32 then ⟨lsr32 m n, some (bit m (n - 1))⟩
      else if n = 32 then ⟨0#32, some m.msb⟩
      else ⟨0#32, some false⟩
    | .asr => if n < 32 then ⟨asr32 m n, some (bit m (n - 1))⟩ else ⟨signFill m, some m.msb⟩
    | .ror => if n % 32 = 0 then ⟨m, some m.msb⟩ else ⟨ror32 m (n % 32), some (bit m (n % 32 - 1))⟩

/-! ## Rotated immediate (R191) -/

/-- `imm8` rotated right by twice `rot`. -/
def rotatedImm (rot : BitVec 4) (imm8 : Byte) : Shifted :=
  let v := ror32 (imm8.setWidth 32) (2 * rot.toNat)
  ⟨v, if rot = 0 then none else some v.msb⟩

/-! ## Operand 2 of the data-processing instructions (42 R201, R202) -/

/-- The register-specified shift, form DPR. -/
def Operand2.byRegister : Operand2 → Bool
  | .shiftReg .. => true
  | .shiftImm .. | .imm .. => false

/-- What an operand form does before its registers are read: form DPR advances R15 and takes its internal cycle (R202). -/
def State.beforeOperands (s : State) (op2 : Operand2) : State :=
  if Operand2.byRegister op2 then s.advancePC.internal else s

/-- Operand 2 in a state (the one after `beforeOperands`): registers are read as they stand, so that R15 reads as the
instruction's address + 8, or + 12 in form DPR. -/
def State.operand2 (s : State) : Operand2 → Shifted
  | .shiftImm type amount rm => shiftByImm type amount (s.reg rm) s.cpsr.c
  | .shiftReg type rs rm => shiftByReg type ((s.reg rs).extractLsb' 0 8).toNat (s.reg rm)
  | .imm rot imm8 => rotatedImm rot imm8

/-! ## Addresses of the single transfers (44 R251 to R254) -/

/-- The offset of a word or byte transfer; the carry-out is discarded (R252). -/
def State.wordOffset (s : State) : WordOffset → Word
  | .imm imm12 => imm12.setWidth 32
  | .reg type amount rm => (shiftByImm type amount (s.reg rm) s.cpsr.c).value

/-- The offset of a halfword or signed transfer (R253). -/
def State.halfOffset (s : State) : HalfOffset → Word
  | .imm imm8 => imm8.setWidth 32
  | .reg rm => s.reg rm

/-- An access address and the value written back to the base, if any (R254). -/
structure Effective where
  addr : Word
  writeback : Option Word
deriving DecidableEq, Repr

/-- The effective address of a single transfer (R254): pre-indexed by P = 1; post-indexed always writes back. -/
def effective (p u w : Bool) (base off : Word) : Effective :=
  let mod := if u then base + off else base - off
  if p then ⟨mod, if w then some mod else none⟩ else ⟨base, some mod⟩

/-! ## Addresses of the block transfers (45 R290 to R296) -/

/-- The listed registers, ascending (R292). -/
def listed (list : BitVec 16) : List Reg := (List.finRange 16).filter fun i => list.getLsbD i.val

/-- `n` of R291: the number of listed registers, 16 for the empty list (R296). -/
def transferCount (list : BitVec 16) : Nat := if list = 0 then 16 else (listed list).length

/-- The lowest address of a block transfer (R291, R296). -/
def blockStart (p u : Bool) (base : Word) (n : Nat) : Word :=
  let size := BitVec.ofNat 32 (4 * n)
  match p, u with
  | false, true => base
  | true, true => base + 4#32
  | false, false => base - size + 4#32
  | true, false => base - size

/-- `final`: the value written back (R291, R296). -/
def blockFinal (u : Bool) (base : Word) (n : Nat) : Word :=
  let size := BitVec.ofNat 32 (4 * n)
  if u then base + size else base - size

/-- A word-aligned address, `addr & ~3` (20 R64, R67, R68). -/
def align4 (addr : Word) : Word := addr &&& 0xFFFFFFFC#32

/-- A halfword-aligned address, `addr & ~1` (20 R65, R67). -/
def align2 (addr : Word) : Word := addr &&& 0xFFFFFFFE#32

end Sys2Proof.Machine
end

