-- ==== Sys2Proof/Machine/BlockTransfer.lean ====
section
/-! DEFINITION. The block transfers (45_block_transfer.md R290 to R305). The address arithmetic is `blockStart` and
`blockFinal` (Operands.lean, the tables of R291 and R296); here are the transfers with the writeback at the first one (R293),
the empty list (R296), and the four instructions. -/

namespace Sys2Proof.Machine

/-! ## Which bank -/

/-- Read a listed register: `user` is the S bit's user bank (R299). -/
def State.listedReg (s : State) (user : Bool) (i : Reg) : Word := if user then s.userReg i else s.reg i

/-- Write a listed register: `user` is the S bit's user bank (R300). -/
def State.setListedReg (s : State) (user : Bool) (i : Reg) (v : Word) : State :=
  if user then s.setUserReg i v else s.setReg i v

/-- The commit of the writeback, at the first transfer only (R293): to the current mode's base. -/
def State.commit (s : State) (rn : Reg) (wb : Option Word) : State :=
  match wb with
  | some v => s.setReg rn v
  | none => s

/-! ## The transfers (R292) -/

/-- The stores of R294 from `addr` up. -/
def storeWords (user : Bool) (rn : Reg) : List Reg → Option Word → Word → State → State
  | [], _, _, s => s
  | i :: rest, wb, addr, s =>
    let v := if i = 15 then s.storeValue 15 else s.listedReg user i
    storeWords user rn rest none (addr + 4#32) ((s.memWriteRaw32 (align4 addr) v).commit rn wb)

/-- The register write of one load: the value for R15 is kept for the branch (R295). -/
def State.takeLoaded (s : State) (user : Bool) (i : Reg) (v : Word) : State :=
  if i = 15 then s else s.setListedReg user i v

/-- Writeback and register write of one load, in the order `LDM_BASE_FIRST` gives (R295, R298). -/
def State.loadOne (s : State) (user : Bool) (rn : Reg) (wb : Option Word) (i : Reg) (v : Word) : State :=
  match s.params.ldmBaseFirst with
  | .loaded => (s.commit rn wb).takeLoaded user i v
  | .writeback => (s.takeLoaded user i v).commit rn wb

/-- The loads of R295 from `addr` up: the state after them and the value loaded for R15, if it is listed. -/
def loadWords (user : Bool) (rn : Reg) : List Reg → Option Word → Word → State → State × Option Word
  | [], _, _, s => (s, none)
  | i :: rest, wb, addr, s =>
    let r := s.memReadRaw32 (align4 addr)
    let next := loadWords user rn rest none (addr + 4#32) (r.2.loadOne user rn wb i r.1)
    (next.1, if i = 15 then some r.1 else next.2)

/-- The registers a block transfer moves: the empty list moves R15 alone (R296). -/
def transferred (list : BitVec 16) : List Reg := if list = 0 then [15] else listed list

/-! ## The two sequences (R304) -/

/-- STM (R294, R296, R299): `user` is the S bit. A writeback to R15 is refused (R305). -/
def State.storeMultiple (s : State) (p u w user : Bool) (rn : Reg) (list : BitVec 16) : Result :=
  if rn = 15 ∧ w then .refused .writebackToR15
  else
    let n := transferCount list
    let base := s.reg rn
    let start := blockStart p u base n
    let wb := if w then some (blockFinal u base n) else none
    let s := storeWords user rn (transferred list) wb start s.nonSeq
    .next ((s.bulkCharge (transferred list).length (align4 start)).nonSeq.advancePC)

/-- LDM (R295, R296, R300, R301, R303): `sbit` is the S bit; with R15 loaded it restores CPSR and the current bank is
loaded, otherwise it loads the user bank. -/
def State.loadMultiple (s : State) (p u w sbit : Bool) (rn : Reg) (list : BitVec 16) : Result :=
  if rn = 15 ∧ w then .refused .writebackToR15
  else
    let n := transferCount list
    let base := s.reg rn
    let start := blockStart p u base n
    let wb := if w then some (blockFinal u base n) else none
    let user := sbit && !(transferred list).contains 15
    let r := loadWords user rn (transferred list) wb start s.nonSeq
    let s := (r.1.bulkCharge (transferred list).length (align4 start)).internal.nonSeq
    match r.2 with
    | some v => if sbit then s.returnTo v else .next (s.branch v)
    | none => .next s.advancePC

/-! ## The instructions -/

/-- STM with S = 0 (R294, R296, R297, R302). -/
def execStm (p u w : Bool) (rn : Reg) (list : BitVec 16) (s : State) : Result := s.storeMultiple p u w false rn list

/-- LDM with S = 0 (R295, R296, R298, R303). -/
def execLdm (p u w : Bool) (rn : Reg) (list : BitVec 16) (s : State) : Result := s.loadMultiple p u w false rn list

/-- STM with S = 1 (R299). -/
def execStmUser (p u w : Bool) (rn : Reg) (list : BitVec 16) (s : State) : Result := s.storeMultiple p u w true rn list

/-- LDM with S = 1 (R300, R301). -/
def execLdmUser (p u w : Bool) (rn : Reg) (list : BitVec 16) (s : State) : Result := s.loadMultiple p u w true rn list

end Sys2Proof.Machine
end

