-- ==== Sys2Proof/Machine/Branch.lean ====
section
/-! DEFINITION. The branches (46_branch.md R320 to R323). -/

namespace Sys2Proof.Machine

/-- `R15 + (sext_24(imm24) << 2)`, R15 the instruction's address + 8 (R320). -/
def State.branchTarget (s : State) (imm24 : BitVec 24) : Word := s.r15 + ((imm24.signExtend 32) <<< 2)

/-- B (R320). -/
def execB (imm24 : BitVec 24) (s : State) : Result := .next (s.branch (s.branchTarget imm24))

/-- BL (R321): R14 of the current mode gets the address of the next instruction. -/
def execBl (imm24 : BitVec 24) (s : State) : Result :=
  .next ((s.setReg 14 (s.r15 - 4#32)).branch (s.branchTarget imm24))

/-- BX (R322): T is the low bit of the register, set before the branch masks the target. -/
def execBx (rm : Reg) (s : State) : Result :=
  let v := s.reg rm
  .next ((s.setCpsr { s.cpsr with t := v.getLsbD 0 }).branch v)

end Sys2Proof.Machine
end

