-- ==== Sys2Proof/Machine/DataProcessing.lean ====
section
/-! DEFINITION. The data-processing instructions (42_data_processing.md R200 to R224). One template (R201 to R206), one
definition per instruction. -/

namespace Sys2Proof.Machine

/-! ## Template -/

/-- What an operation computes: its result and the CPSR that S = 1 writes. -/
structure AluOut where
  result : Word
  cpsr : Cpsr
deriving DecidableEq, Repr

/-- A logical operation's output (R203). -/
def State.logicOut (s : State) (result : Word) (carry : Option Bool) : AluOut := ⟨result, s.cpsr.logical result carry⟩

/-- An arithmetic operation's output (R204). -/
def State.arithOut (s : State) (r : Sum) : AluOut := ⟨r.result, s.cpsr.arith r⟩

/-- The instruction's one `AdvancePC` on its non-branching path; form DPR has already made it (R202, R205, R223). -/
def State.afterOperation (s : State) (op2 : Operand2) : State :=
  if Operand2.byRegister op2 then s else s.advancePC

/-- The destination write (R205, R206): `sf` with Rd = 15 is the exception return. -/
def State.writeResult (s : State) (op2 : Operand2) (sf : Bool) (rd : Reg) (result : Word) : Result :=
  if rd = 15 then if sf then s.returnTo result else .next (s.branch result)
  else .next ((s.setReg rd result).afterOperation op2)

/-- The template: operands (R201, R202), flags if S = 1, destination (R205, R206). -/
def State.dataProcess (s : State) (sf : Bool) (rd : Reg) (op2 : Operand2) (f : State → Shifted → AluOut) : Result :=
  let s := s.beforeOperands op2
  let out := f s (s.operand2 op2)
  let s := if sf then s.setCpsr out.cpsr else s
  s.writeResult op2 sf rd out.result

/-- The compare template: flags only, whatever the Rd field holds (R215, R223). -/
def State.compare (s : State) (op2 : Operand2) (f : State → Shifted → AluOut) : Result :=
  let s := s.beforeOperands op2
  .next ((s.setCpsr (f s (s.operand2 op2)).cpsr).afterOperation op2)

/-! ## The instructions -/

/-- AND (R207). -/
def execAnd (sf : Bool) (rn rd : Reg) (op2 : Operand2) (s : State) : Result :=
  s.dataProcess sf rd op2 fun s b => s.logicOut (s.reg rn &&& b.value) b.carry

/-- EOR (R208). -/
def execEor (sf : Bool) (rn rd : Reg) (op2 : Operand2) (s : State) : Result :=
  s.dataProcess sf rd op2 fun s b => s.logicOut (s.reg rn ^^^ b.value) b.carry

/-- SUB (R209). -/
def execSub (sf : Bool) (rn rd : Reg) (op2 : Operand2) (s : State) : Result :=
  s.dataProcess sf rd op2 fun s b => s.arithOut (subOp (s.reg rn) b.value)

/-- RSB (R210). -/
def execRsb (sf : Bool) (rn rd : Reg) (op2 : Operand2) (s : State) : Result :=
  s.dataProcess sf rd op2 fun s b => s.arithOut (subOp b.value (s.reg rn))

/-- ADD (R211). -/
def execAdd (sf : Bool) (rn rd : Reg) (op2 : Operand2) (s : State) : Result :=
  s.dataProcess sf rd op2 fun s b => s.arithOut (addOp (s.reg rn) b.value)

/-- ADC (R212). -/
def execAdc (sf : Bool) (rn rd : Reg) (op2 : Operand2) (s : State) : Result :=
  s.dataProcess sf rd op2 fun s b => s.arithOut (adcOp (s.reg rn) b.value s.cpsr.c)

/-- SBC (R213). -/
def execSbc (sf : Bool) (rn rd : Reg) (op2 : Operand2) (s : State) : Result :=
  s.dataProcess sf rd op2 fun s b => s.arithOut (sbcOp (s.reg rn) b.value s.cpsr.c)

/-- RSC (R214). -/
def execRsc (sf : Bool) (rn rd : Reg) (op2 : Operand2) (s : State) : Result :=
  s.dataProcess sf rd op2 fun s b => s.arithOut (sbcOp b.value (s.reg rn) s.cpsr.c)

/-- TST (R215). -/
def execTst (rn : Reg) (op2 : Operand2) (s : State) : Result :=
  s.compare op2 fun s b => s.logicOut (s.reg rn &&& b.value) b.carry

/-- TEQ (R216). -/
def execTeq (rn : Reg) (op2 : Operand2) (s : State) : Result :=
  s.compare op2 fun s b => s.logicOut (s.reg rn ^^^ b.value) b.carry

/-- CMP (R217). -/
def execCmp (rn : Reg) (op2 : Operand2) (s : State) : Result :=
  s.compare op2 fun s b => s.arithOut (subOp (s.reg rn) b.value)

/-- CMN (R218). -/
def execCmn (rn : Reg) (op2 : Operand2) (s : State) : Result :=
  s.compare op2 fun s b => s.arithOut (addOp (s.reg rn) b.value)

/-- ORR (R219). -/
def execOrr (sf : Bool) (rn rd : Reg) (op2 : Operand2) (s : State) : Result :=
  s.dataProcess sf rd op2 fun s b => s.logicOut (s.reg rn ||| b.value) b.carry

/-- MOV (R220). -/
def execMov (sf : Bool) (rd : Reg) (op2 : Operand2) (s : State) : Result :=
  s.dataProcess sf rd op2 fun s b => s.logicOut b.value b.carry

/-- BIC (R221). -/
def execBic (sf : Bool) (rn rd : Reg) (op2 : Operand2) (s : State) : Result :=
  s.dataProcess sf rd op2 fun s b => s.logicOut (s.reg rn &&& ~~~b.value) b.carry

/-- MVN (R222). -/
def execMvn (sf : Bool) (rd : Reg) (op2 : Operand2) (s : State) : Result :=
  s.dataProcess sf rd op2 fun s b => s.logicOut (~~~b.value) b.carry

end Sys2Proof.Machine
end

