-- ==== Sys2Proof/Machine/Exception.lean ====
section
/-! DEFINITION. The exceptions and their vectors (60_exceptions.md R370, R373, R374) and the two instructions that raise one
(49_swi_undefined.md R360, R361). FIQ and the aborts are never raised (R378, R379). -/

namespace Sys2Proof.Machine

/-- The vector of the Undefined-instruction exception (R373). -/
def undefinedVector : Word := 0x00000004#32

/-- The vector of the software interrupt (R373). -/
def swiVector : Word := 0x00000008#32

/-- The vector of IRQ (R373). -/
def irqVector : Word := 0x00000018#32

/-- `raise SWI` (R374). -/
def State.raiseSwi (s : State) : State := s.enter .supervisor swiVector false

/-- `raise Undefined` (R374). -/
def State.raiseUndefined (s : State) : State := s.enter .undefined undefinedVector false

/-- The entry of an IRQ (R377): no fetch, and the branch hook as the one call to the controller (21_waitstate.md R109). -/
def State.raiseIrq (s : State) : State :=
  s.enterVia (fun ws => ws.entryHook s.params (s.params.inCart s.r15) s.r15) .irq irqVector false

/-- SWI (R360): the comment field is ignored. -/
def execSwi (_comment : BitVec 24) (s : State) : Result := .next s.raiseSwi

/-- An undefined instruction (R361). -/
def execUndefined (_bits : BitVec 28) (s : State) : Result := .next s.raiseUndefined

end Sys2Proof.Machine
end

