-- ==== Sys2Proof/Machine/Multiply.lean ====
section
/-! DEFINITION. The multiply instructions (43_multiply.md R230 to R240). Sources are read first, R15 as the instruction's
address + 8; then the one multiplier call; then flags and destinations. -/

namespace Sys2Proof.Machine

/-! ## Products (R230) -/

/-- `Mul32`. -/
def mul32 (p q : Word) : Word := BitVec.ofNat 32 (p.toNat * q.toNat)

/-- `UMul64`. -/
def umul64 (p q : Word) : BitVec 64 := BitVec.ofNat 64 (p.toNat * q.toNat)

/-- `SMul64`. -/
def smul64 (p q : Word) : BitVec 64 := BitVec.ofInt 64 (p.toInt * q.toInt)

/-- `hi(r)` and `lo(r)`. -/
def hi64 (r : BitVec 64) : Word := r.extractLsb' 32 32

/-- `lo(r)`. -/
def lo64 (r : BitVec 64) : Word := r.extractLsb' 0 32

/-! ## Shared sequences -/

/-- The flags of a multiply if S = 1 (R238): N and Z. -/
def State.mulFlags (s : State) (sf n z : Bool) : State :=
  if sf then s.setCpsr (s.cpsr.multiply n z) else s

/-- The end of MUL and MLA: flags, then the guarded write (R231, R232). -/
def State.finishMul (s : State) (sf : Bool) (rd : Reg) (result : Word) : State :=
  (s.mulFlags sf result.msb (result == 0#32)).guardedWrite rd result

/-- `WriteLong(RdLo, RdHi, r)` (R237): the low half to R15 is dropped, the high half to R15 branches. -/
def State.writeLong (s : State) (rdLo rdHi : Reg) (r : BitVec 64) : State :=
  (if rdLo = 15 then s else s.setReg rdLo (lo64 r)).guardedWrite rdHi (hi64 r)

/-- A long multiply of value `r` whose multiplier call takes `m` cycles (R238, R240). -/
def State.finishLong (s : State) (sf : Bool) (rdHi rdLo : Reg) (r : BitVec 64) (m : Nat) : State :=
  ((s.multiplier m).mulFlags sf r.msb (r == 0#64)).writeLong rdLo rdHi r

/-- The accumulator `x[RdHi] ‖ x[RdLo]` (R234, R236). -/
def State.accumulator (s : State) (rdHi rdLo : Reg) : BitVec 64 := s.reg rdHi ++ s.reg rdLo

/-! ## The instructions -/

/-- MUL (R231): zero when Rd and Rm are the same register, without a multiplier call (R240). -/
def execMul (sf : Bool) (rd rs rm : Reg) (s : State) : Result :=
  if rd = rm then .next (s.finishMul sf rd 0#32)
  else .next ((s.multiplier (mulCyclesSigned (s.reg rs))).finishMul sf rd (mul32 (s.reg rm) (s.reg rs)))

/-- MLA (R232): `MLA_ALIAS_RESULT` when Rd and Rm are the same register, then without a multiplier call (R240). DESIGN CHOICE
(log 13) where that result is not zero: no call is made for it either. -/
def execMla (sf : Bool) (rd rn rs rm : Reg) (s : State) : Result :=
  if rd = rm then .next (s.finishMul sf rd (s.params.mlaResult (s.reg rn)))
  else
    .next ((s.multiplier (mulCyclesSigned (s.reg rs) + 1)).finishMul sf rd (mul32 (s.reg rm) (s.reg rs) + s.reg rn))

/-- UMULL (R233). -/
def execUmull (sf : Bool) (rdHi rdLo rs rm : Reg) (s : State) : Result :=
  .next (s.finishLong sf rdHi rdLo (umul64 (s.reg rm) (s.reg rs)) (mulCyclesUnsigned (s.reg rs) + 1))

/-- UMLAL (R234). -/
def execUmlal (sf : Bool) (rdHi rdLo rs rm : Reg) (s : State) : Result :=
  .next (s.finishLong sf rdHi rdLo (umul64 (s.reg rm) (s.reg rs) + s.accumulator rdHi rdLo)
    (mulCyclesUnsigned (s.reg rs) + 2))

/-- SMULL (R235). -/
def execSmull (sf : Bool) (rdHi rdLo rs rm : Reg) (s : State) : Result :=
  .next (s.finishLong sf rdHi rdLo (smul64 (s.reg rm) (s.reg rs)) (mulCyclesSigned (s.reg rs) + 1))

/-- SMLAL (R236). -/
def execSmlal (sf : Bool) (rdHi rdLo rs rm : Reg) (s : State) : Result :=
  .next (s.finishLong sf rdHi rdLo (smul64 (s.reg rm) (s.reg rs) + s.accumulator rdHi rdLo)
    (mulCyclesSigned (s.reg rs) + 2))

end Sys2Proof.Machine
end

