-- ==== Sys2Proof/Machine/SingleTransfer.lean ====
section
/-! DEFINITION. The single data transfers (44_single_transfer.md R250 to R272): the load and store sequences of R259 and
R260, the access of each instruction (20_memory.md R64 to R67), one definition per instruction. -/

namespace Sys2Proof.Machine

/-! ## Bus attributes -/

/-- An ordinary data access. -/
def plainAccess : BusAttr := { user := false, locked := false }

/-- The access of a T form, presented as a User-mode access (R262). -/
def userAccess : BusAttr := { user := true, locked := false }

/-! ## The reads -/

/-- A word read: the aligned word rotated so that the addressed byte is lowest (20 R64, R255). -/
def readWord (attr : BusAttr) (s : State) (addr : Word) : Word × State :=
  let r := s.memRead32 (align4 addr) attr
  (ror32 r.1 (8 * (addr.extractLsb' 0 2).toNat), r.2)

/-- A byte read, zero-extended (R257). -/
def readByte (attr : BusAttr) (s : State) (addr : Word) : Word × State := s.memRead8 addr attr

/-- A halfword read: at an odd address the aligned halfword rotated by 8 (20 R65, R267). -/
def readHalf (s : State) (addr : Word) : Word × State :=
  let r := s.memRead16 (align2 addr) plainAccess
  (if addr.getLsbD 0 then ror32 r.1 8 else r.1, r.2)

/-- A signed byte read (R269). -/
def readSignedByte (s : State) (addr : Word) : Word × State :=
  let r := s.memRead8 addr plainAccess
  ((r.1.extractLsb' 0 8).signExtend 32, r.2)

/-- A signed halfword read: at an odd address the addressed byte, sign-extended (20 R66, R270). -/
def readSignedHalf (s : State) (addr : Word) : Word × State :=
  if addr.getLsbD 0 then readSignedByte s addr
  else
    let r := s.memRead16 addr plainAccess
    ((r.1.extractLsb' 0 16).signExtend 32, r.2)

/-! ## The writes (20 R67) -/

/-- A word write, to the aligned word (R256). -/
def writeWord (attr : BusAttr) (s : State) (addr v : Word) : State := s.memWrite32 (align4 addr) v attr

/-- A byte write (R258). -/
def writeByte (attr : BusAttr) (s : State) (addr v : Word) : State := s.memWrite8 addr v attr

/-- A halfword write, to the aligned halfword (R268). -/
def writeHalf (s : State) (addr v : Word) : State := s.memWrite16 (align2 addr) v plainAccess

/-! ## The sequences -/

/-- The writeback, if any, to the base (R254). -/
def State.writeBack (s : State) (rn : Reg) (wb : Option Word) : State :=
  match wb with
  | some v => s.setReg rn v
  | none => s

/-- The load sequence (R259) at an effective address; a writeback to R15 is refused (R271 (a)). -/
def State.load (s : State) (e : Effective) (rn rd : Reg) (read : State → Word → Word × State) : Result :=
  if rn = 15 ∧ e.writeback.isSome then .refused .writebackToR15
  else
    let r := read s.nonSeq e.addr
    .next (((r.2.nonSeq.writeBack rn e.writeback).internal).guardedWrite rd r.1)

/-- The store sequence (R260). -/
def State.store (s : State) (e : Effective) (rn rd : Reg) (write : State → Word → Word → State) : Result :=
  if rn = 15 ∧ e.writeback.isSome then .refused .writebackToR15
  else .next (((write s.nonSeq e.addr (s.storeValue rd)).nonSeq.writeBack rn e.writeback).advancePC)

/-- The effective address of a word or byte transfer (R251, R252, R254). -/
def State.wordAddress (s : State) (p u w : Bool) (rn : Reg) (off : WordOffset) : Effective :=
  effective p u w (s.reg rn) (s.wordOffset off)

/-- The effective address of a halfword or signed transfer (R253, R254). -/
def State.halfAddress (s : State) (p u w : Bool) (rn : Reg) (off : HalfOffset) : Effective :=
  effective p u w (s.reg rn) (s.halfOffset off)

/-! ## The instructions -/

/-- LDR (R255). -/
def execLdr (p u w : Bool) (rn rd : Reg) (off : WordOffset) (s : State) : Result :=
  s.load (s.wordAddress p u w rn off) rn rd (readWord plainAccess)

/-- STR (R256). -/
def execStr (p u w : Bool) (rn rd : Reg) (off : WordOffset) (s : State) : Result :=
  s.store (s.wordAddress p u w rn off) rn rd (writeWord plainAccess)

/-- LDRB (R257). -/
def execLdrb (p u w : Bool) (rn rd : Reg) (off : WordOffset) (s : State) : Result :=
  s.load (s.wordAddress p u w rn off) rn rd (readByte plainAccess)

/-- STRB (R258). -/
def execStrb (p u w : Bool) (rn rd : Reg) (off : WordOffset) (s : State) : Result :=
  s.store (s.wordAddress p u w rn off) rn rd (writeByte plainAccess)

/-- LDRT (R263): post-indexed, with writeback (R262). -/
def execLdrt (u : Bool) (rn rd : Reg) (off : WordOffset) (s : State) : Result :=
  s.load (s.wordAddress false u true rn off) rn rd (readWord userAccess)

/-- STRT (R264). -/
def execStrt (u : Bool) (rn rd : Reg) (off : WordOffset) (s : State) : Result :=
  s.store (s.wordAddress false u true rn off) rn rd (writeWord userAccess)

/-- LDRBT (R265). -/
def execLdrbt (u : Bool) (rn rd : Reg) (off : WordOffset) (s : State) : Result :=
  s.load (s.wordAddress false u true rn off) rn rd (readByte userAccess)

/-- STRBT (R266). -/
def execStrbt (u : Bool) (rn rd : Reg) (off : WordOffset) (s : State) : Result :=
  s.store (s.wordAddress false u true rn off) rn rd (writeByte userAccess)

/-- LDRH (R267). -/
def execLdrh (p u w : Bool) (rn rd : Reg) (off : HalfOffset) (s : State) : Result :=
  s.load (s.halfAddress p u w rn off) rn rd readHalf

/-- STRH (R268). -/
def execStrh (p u w : Bool) (rn rd : Reg) (off : HalfOffset) (s : State) : Result :=
  s.store (s.halfAddress p u w rn off) rn rd writeHalf

/-- LDRSB (R269). -/
def execLdrsb (p u w : Bool) (rn rd : Reg) (off : HalfOffset) (s : State) : Result :=
  s.load (s.halfAddress p u w rn off) rn rd readSignedByte

/-- LDRSH (R270). -/
def execLdrsh (p u w : Bool) (rn rd : Reg) (off : HalfOffset) (s : State) : Result :=
  s.load (s.halfAddress p u w rn off) rn rd readSignedHalf

end Sys2Proof.Machine
end

