-- ==== Sys2Proof/Machine/StatusTransfer.lean ====
section
/-! DEFINITION. The status register transfers (47_status_transfer.md R330 to R337). The field mask is `word[19:16]`: bit 3
selects the flags, bit 0 the control field, bits 2 and 1 select bits that do not exist (R330). -/

namespace Sys2Proof.Machine

/-- The flags field selected (R330). -/
def maskF (mask : BitVec 4) : Bool := mask.getLsbD 3

/-- The control field selected (R330). -/
def maskC (mask : BitVec 4) : Bool := mask.getLsbD 0

/-- The value MRS from SPSR reads: CPSR in a mode without an SPSR (R332, 10 R32). -/
def State.spsrWord (s : State) : Word :=
  match s.cpsr.mode.banked with
  | some b => (s.spsrOf b).toWord
  | none => s.cpsr.toWord

/-- MSR to CPSR of the operand `op` (R333, R334): flags in every mode, the control field outside User mode; T is never
written, and an illegal mode number is refused. -/
def State.msrCpsr (s : State) (mask : BitVec 4) (op : Word) : Result :=
  let p := if maskF mask then { s.cpsr with n := bit op 31, z := bit op 30, c := bit op 29, v := bit op 28 } else s.cpsr
  if maskC mask && s.cpsr.mode.privileged then
    match Mode.ofCode (bits op 0 5) with
    | some m => .next (s.setCpsr { p with i := bit op 7, f := bit op 6, mode := m }).advancePC
    | none => .refused (.illegalMode (bits op 0 5))
  else .next (s.setCpsr p).advancePC

/-- The selected fields of an SPSR from `op` (R335). -/
def Spsr.withFields (p : Spsr) (mask : BitVec 4) (op : Word) : Spsr :=
  let q := Spsr.ofWord op
  let p := if maskF mask then { p with n := q.n, z := q.z, c := q.c, v := q.v } else p
  if maskC mask then { p with i := q.i, f := q.f, t := q.t, m := q.m } else p

/-- MSR to SPSR of the operand `op` (R335): nothing in User and System mode. -/
def State.msrSpsr (s : State) (mask : BitVec 4) (op : Word) : Result :=
  match s.cpsr.mode.banked with
  | some b => .next (s.setSpsrOf b ((s.spsrOf b).withFields mask op)).advancePC
  | none => .next s.advancePC

/-! ## The instructions -/

/-- MRS from CPSR (R331). -/
def execMrsCpsr (rd : Reg) (s : State) : Result := .next (s.guardedWrite rd s.cpsr.toWord)

/-- MRS from SPSR (R332). -/
def execMrsSpsr (rd : Reg) (s : State) : Result := .next (s.guardedWrite rd s.spsrWord)

/-- MSR to CPSR, register form (R333, R336). -/
def execMsrCpsrReg (mask : BitVec 4) (rm : Reg) (s : State) : Result := s.msrCpsr mask (s.reg rm)

/-- MSR to SPSR, register form (R335, R336). -/
def execMsrSpsrReg (mask : BitVec 4) (rm : Reg) (s : State) : Result := s.msrSpsr mask (s.reg rm)

/-- MSR to CPSR, immediate form (R333, R336). -/
def execMsrCpsrImm (mask rot : BitVec 4) (imm8 : Byte) (s : State) : Result :=
  s.msrCpsr mask (rotatedImm rot imm8).value

/-- MSR to SPSR, immediate form (R335, R336). -/
def execMsrSpsrImm (mask rot : BitVec 4) (imm8 : Byte) (s : State) : Result :=
  s.msrSpsr mask (rotatedImm rot imm8).value

end Sys2Proof.Machine
end

