-- ==== Sys2Proof/Machine/Swap.lean ====
section
/-! DEFINITION. The swaps (48_swap.md R350 to R352). -/

namespace Sys2Proof.Machine

/-- The accesses of a swap: the bus is held from the read to the write when `SWP_LOCKED` (20 R76). -/
def State.swapAccess (s : State) : BusAttr := { user := false, locked := s.params.swpLocked }

/-- The sequence of a swap: registers first, then the read, then the write, then the destination (R350, R352).
Its cycles are those of these hooks (R352 (d)); DEDUCED (log 20): they are the total 1S + 2N + 1I of 70_reset_and_hazards.md
R421 when the step's own fetch is the N it is "after a data access or branch". -/
def State.swap (s : State) (rn rd rm : Reg) (read : State → Word → Word × State) (write : State → Word → Word → State) :
    State :=
  let addr := s.reg rn
  let src := s.reg rm
  let r := read s.nonSeq addr
  ((write r.2 addr src).nonSeq.internal).guardedWrite rd r.1

/-- SWP (R350): the read is rotated like LDR, the write is not. -/
def execSwp (rn rd rm : Reg) (s : State) : Result :=
  .next (s.swap rn rd rm (readWord s.swapAccess) (writeWord s.swapAccess))

/-- SWPB (R351). -/
def execSwpb (rn rd rm : Reg) (s : State) : Result :=
  .next (s.swap rn rd rm (readByte s.swapAccess) (writeByte s.swapAccess))

end Sys2Proof.Machine
end

