-- ==== Sys2Proof/Machine/Dispatch.lean ====
section
/-! DEFINITION. `Execute(w)` of 40_pipeline_condition.md R156: the meaning of each instruction, its condition passed. -/

namespace Sys2Proof.Machine

def exec (i : Instr) (s : State) : Host.Outcome State Fault Refusal :=
  match i with
  -- data processing
  | .and sf rn rd op2 => Sys2Proof.Machine.execAnd sf rn rd op2 s
  | .eor sf rn rd op2 => Sys2Proof.Machine.execEor sf rn rd op2 s
  | .sub sf rn rd op2 => Sys2Proof.Machine.execSub sf rn rd op2 s
  | .rsb sf rn rd op2 => Sys2Proof.Machine.execRsb sf rn rd op2 s
  | .add sf rn rd op2 => Sys2Proof.Machine.execAdd sf rn rd op2 s
  | .adc sf rn rd op2 => Sys2Proof.Machine.execAdc sf rn rd op2 s
  | .sbc sf rn rd op2 => Sys2Proof.Machine.execSbc sf rn rd op2 s
  | .rsc sf rn rd op2 => Sys2Proof.Machine.execRsc sf rn rd op2 s
  | .tst rn op2 => Sys2Proof.Machine.execTst rn op2 s
  | .teq rn op2 => Sys2Proof.Machine.execTeq rn op2 s
  | .cmp rn op2 => Sys2Proof.Machine.execCmp rn op2 s
  | .cmn rn op2 => Sys2Proof.Machine.execCmn rn op2 s
  | .orr sf rn rd op2 => Sys2Proof.Machine.execOrr sf rn rd op2 s
  | .mov sf rd op2 => Sys2Proof.Machine.execMov sf rd op2 s
  | .bic sf rn rd op2 => Sys2Proof.Machine.execBic sf rn rd op2 s
  | .mvn sf rd op2 => Sys2Proof.Machine.execMvn sf rd op2 s
  -- status register transfer
  | .mrsCpsr rd => Sys2Proof.Machine.execMrsCpsr rd s
  | .mrsSpsr rd => Sys2Proof.Machine.execMrsSpsr rd s
  | .msrCpsrReg mask rm => Sys2Proof.Machine.execMsrCpsrReg mask rm s
  | .msrSpsrReg mask rm => Sys2Proof.Machine.execMsrSpsrReg mask rm s
  | .msrCpsrImm mask rot imm8 => Sys2Proof.Machine.execMsrCpsrImm mask rot imm8 s
  | .msrSpsrImm mask rot imm8 => Sys2Proof.Machine.execMsrSpsrImm mask rot imm8 s
  -- branch and exchange
  | .bx rm => Sys2Proof.Machine.execBx rm s
  -- multiply
  | .mul sf rd rs rm => Sys2Proof.Machine.execMul sf rd rs rm s
  | .mla sf rd rn rs rm => Sys2Proof.Machine.execMla sf rd rn rs rm s
  | .umull sf rdHi rdLo rs rm => Sys2Proof.Machine.execUmull sf rdHi rdLo rs rm s
  | .umlal sf rdHi rdLo rs rm => Sys2Proof.Machine.execUmlal sf rdHi rdLo rs rm s
  | .smull sf rdHi rdLo rs rm => Sys2Proof.Machine.execSmull sf rdHi rdLo rs rm s
  | .smlal sf rdHi rdLo rs rm => Sys2Proof.Machine.execSmlal sf rdHi rdLo rs rm s
  -- swap
  | .swp rn rd rm => Sys2Proof.Machine.execSwp rn rd rm s
  | .swpb rn rd rm => Sys2Proof.Machine.execSwpb rn rd rm s
  -- single transfers
  | .strh p u w rn rd off => Sys2Proof.Machine.execStrh p u w rn rd off s
  | .ldrh p u w rn rd off => Sys2Proof.Machine.execLdrh p u w rn rd off s
  | .ldrsb p u w rn rd off => Sys2Proof.Machine.execLdrsb p u w rn rd off s
  | .ldrsh p u w rn rd off => Sys2Proof.Machine.execLdrsh p u w rn rd off s
  | .str p u w rn rd off => Sys2Proof.Machine.execStr p u w rn rd off s
  | .ldr p u w rn rd off => Sys2Proof.Machine.execLdr p u w rn rd off s
  | .strb p u w rn rd off => Sys2Proof.Machine.execStrb p u w rn rd off s
  | .ldrb p u w rn rd off => Sys2Proof.Machine.execLdrb p u w rn rd off s
  | .strt u rn rd off => Sys2Proof.Machine.execStrt u rn rd off s
  | .ldrt u rn rd off => Sys2Proof.Machine.execLdrt u rn rd off s
  | .strbt u rn rd off => Sys2Proof.Machine.execStrbt u rn rd off s
  | .ldrbt u rn rd off => Sys2Proof.Machine.execLdrbt u rn rd off s
  -- block transfers
  | .stm p u w rn list => Sys2Proof.Machine.execStm p u w rn list s
  | .ldm p u w rn list => Sys2Proof.Machine.execLdm p u w rn list s
  | .stmUser p u w rn list => Sys2Proof.Machine.execStmUser p u w rn list s
  | .ldmUser p u w rn list => Sys2Proof.Machine.execLdmUser p u w rn list s
  -- branches
  | .b imm24 => Sys2Proof.Machine.execB imm24 s
  | .bl imm24 => Sys2Proof.Machine.execBl imm24 s
  -- exceptions
  | .swi comment => Sys2Proof.Machine.execSwi comment s
  | .undefined bits => Sys2Proof.Machine.execUndefined bits s

end Sys2Proof.Machine
end

