-- ==== Sys2Proof/Machine/Pipeline.lean ====
section
/-! DEFINITION. The pipeline sequencer (40_pipeline_condition.md R150 to R156, R165; 60_exceptions.md R377). -/

namespace Sys2Proof.Machine

/-- The latches advance: `execute <- decode ; decode <- fetch` (R151, R152). -/
def State.shiftLatches (s : State) : State := { s with execute := s.decode, decode := s.fetch }

/-- `fetch <- Fetch32(R15)` (R151, R152). -/
def State.fetchNext (s : State) : State :=
  let r := s.fetch32 s.r15
  { r.2 with fetch := r.1 }

/-- One bubble fewer to take (R152). -/
def lessRefill (n : Fin 3) : Fin 3 :=
  match n with
  | 0 => 0
  | 1 => 0
  | 2 => 1

/-- `BubbleStep()` (R152). -/
def State.bubbleStep (s : State) : State :=
  let s := s.fetchNext.advancePC.shiftLatches
  { s with refill := lessRefill s.refill }

/-- The execute stage of a normal step: the word two fetches old, if its condition passes (R151, R153). -/
def State.executeStage (s : State) : Result :=
  if condPass (condOf s.execute) s.cpsr then exec (decodeWord s.execute) s else .next s.advancePC

/-- `NormalStep()` (R151). -/
def State.normalStep (s : State) : Result :=
  Result.andThen s.fetchNext.executeStage fun s => .next s.shiftLatches

/-- `Step()` (R150), the platform's turn over. -/
def coreStep (s : State) : Result :=
  if s.halted then .next s
  else if s.cpsr.t then .refused (.compactEncoding s.r15)
  else if s.refill ≠ 0 then .next s.bubbleStep
  else if s.irqLine && !s.cpsr.i then .next s.raiseIrq
  else s.normalStep

/-- A step begins: its list of calls is empty (log 8), and nothing is left of what the platform did inside the last one. -/
def State.fresh (s : State) : State := { s with calls := [], inside := [], stop := none }

/-- A step ends: with the refusal of a call the platform made inside it, if there was one (log 7). -/
def State.endStep (s : State) : Result :=
  match s.stop with
  | some r => .refused r
  | none => .next { s with inside := [] }

/-- One step of the machine: the platform has its turn (log 7), then `Step()`. -/
def machineStep (s : State) : Result :=
  Result.andThen (platformTurn s.fresh) fun s => Result.andThen (coreStep s) State.endStep

/-! ## Placing an instruction (log 25) -/

/-- The bubbles still to come as a number of bytes: the instruction executed next stands at R15 - 8 plus this. -/
def refillBytes (n : Fin 3) : Word :=
  match n with
  | 0 => 0#32
  | 1 => 4#32
  | 2 => 8#32

/-- `s` with the word `w` at the address of the instruction executed next, and the bubbles that lead to it taken: `execute`
holds `w`, `decode` the word after it if that was still to be fetched, R15 is its address + 8. The inputs that would keep the
next step from it are cleared (halt, interrupt request, compact encoding, agenda). -/
def State.placeWord (s : State) (w : Word) : State :=
  let r15 := s.r15 + refillBytes s.refill
  let a := r15 - 8#32
  let s' : State :=
    { s with
      mem := (((s.mem.write a.toNat (bits w 0 8)).write (a + 1#32).toNat (bits w 8 8)).write (a + 2#32).toNat
        (bits w 16 8)).write (a + 3#32).toNat (bits w 24 8)
      r15 := r15
      execute := w
      refill := 0
      irqLine := false
      halted := false
      cpsr := { s.cpsr with t := false }
      agenda := [] }
  if s.refill = 0 then s' else { s' with decode := s'.peek32 (a + 4#32) }

end Sys2Proof.Machine
end

