-- ==== Sys2Proof/Machine/Step.lean ====
section
/-! DEFINITION. The step function and the placing of one instruction; both only call Pipeline.lean. -/

namespace Sys2Proof.Machine

/-- One step (40_pipeline_condition.md R150). -/
def step (s : State) : Host.Outcome State Fault Refusal := machineStep s

/-- `s` with an instruction of `nbits` bits, the rest zero, placed so that the next step runs it (log 25). -/
def State.withFetchWord (s : State) (nbits w : Nat) : State := s.placeWord (BitVec.ofNat 32 (w % 2 ^ nbits))

end Sys2Proof.Machine
end

