-- ==== Sys2Proof/Safety.lean ====
section
/-! DEFINITION. The terms in which statements about the machine are made: what an instruction leaves alone, how it ends,
when it is refused, and the invariant every step keeps. -/

namespace Sys2Proof.Machine

/-! ## How an instruction ends -/

/-- The instruction answers a next state, which has the property `P`. -/
def Completes (i : Instr) (s : State) (P : State → Prop) : Prop := ∃ t, exec i s = .next t ∧ P t

/-- The next instruction in memory follows (10_state.md R25). -/
structure FallsThrough (s t : State) : Prop where
  pc : t.r15 = s.r15 + 4#32
  refill : t.refill = s.refill

/-- A branch to `a` has been made (40_pipeline_condition.md R157). -/
structure BranchedTo (t : State) (a : Word) : Prop where
  pc : t.r15 = a
  refill : t.refill = 2

/-! ## Frames -/

/-- No register changes but the listed ones, no saved status word but the listed ones, no latch, no input and no parameter.
R15, `refill`, CPSR, memory and the wait-state controller are not spoken of. -/
structure Frame (s t : State) (changed : List PhysReg) (saved : List Banked := []) : Prop where
  regs : ∀ p, p ∉ changed → t.phys p = s.phys p
  spsrs : ∀ b, b ∉ saved → t.spsrOf b = s.spsrOf b
  latches : t.fetch = s.fetch ∧ t.decode = s.decode ∧ t.execute = s.execute
  inputs : t.irqLine = s.irqLine ∧ t.halted = s.halted ∧ t.agenda = s.agenda
  fixed : t.params = s.params ∧ t.inside = s.inside ∧ t.stop = s.stop

/-- No byte of memory changes, nor the wait-control register. -/
structure NoStore (s t : State) : Prop where
  memory : ∀ a, t.mem.read a = s.mem.read a
  control : t.ws.wcnt = s.ws.wcnt

/-- Is `x` one of the `n` bytes from `a`? -/
def within (a : Word) (n : Nat) (x : Word) : Prop := ∃ k, k < n ∧ x = a + BitVec.ofNat 32 k

/-- The `n` bytes from `a` are the little-endian bytes of `v` (20_memory.md R62), wherever that is (log 3), those of the I/O
window apart, where memory keeps what it held (log 4); no other byte of memory changes, and the wait-control register only if
it is stored to. -/
structure Stored (s t : State) (a : Word) (n : Nat) (v : Word) : Prop where
  bytes : ∀ k, k < n → s.params.isIo (a + BitVec.ofNat 32 k) = false →
    t.mem.read (a + BitVec.ofNat 32 k).toNat = v.extractLsb' (8 * k) 8
  others : ∀ x : Word, ¬ within a n x ∨ s.params.isIo x = true → t.mem.read x.toNat = s.mem.read x.toNat
  control : ¬ within a n s.params.waitControl → ¬ within a n (s.params.waitControl + 1#32) → t.ws.wcnt = s.ws.wcnt

/-- The registers the visible number `n` names in the present mode: none for R15. -/
def State.named (s : State) (n : Reg) : List PhysReg := (physical s.cpsr.mode n).toList

/-- The registers a writeback to `rn` changes. -/
def State.writtenBack (s : State) (rn : Reg) (wb : Bool) : List PhysReg := if wb then s.named rn else []

/-! ## Data processing -/

/-- Register `n` as a data-processing instruction reads it: R15 one word further in form DPR (42_data_processing.md R201,
R202). -/
def State.operandReg (s : State) (op2 : Operand2) (n : Reg) : Word :=
  if n = 15 then s.r15 + (if Operand2.byRegister op2 then 4#32 else 0#32) else s.reg n

/-- Operand 2 with its carry-out (41_shifter_operand2.md R180, R186, R191): Rm shifted by the immediate amount, with the carry
flag as it was before; Rm shifted by the low byte of Rs, both read one word further where they are R15; the rotated immediate.
What the three shifter functions give is said by the statements on the barrel shifter. -/
def State.shifted (s : State) (op2 : Operand2) : Shifted :=
  match op2 with
  | .shiftImm type amount rm => shiftByImm type amount (if rm = 15 then s.r15 else s.reg rm) s.cpsr.c
  | .shiftReg type rs rm =>
    shiftByReg type ((if rs = 15 then s.r15 + 4#32 else s.reg rs).toNat % 256) (if rm = 15 then s.r15 + 4#32 else s.reg rm)
  | .imm rot imm8 => rotatedImm rot imm8

/-- One instruction of a family, by S bit and destination, with the result and the CPSR of S = 1 its rule gives. -/
structure DataForm where
  instr : Bool → Reg → Instr
  result : Word
  flags : Cpsr

/-- The flags of a logical result (42 R203). -/
def Cpsr.ofLogical (p : Cpsr) (r : Word) (carry : Option Bool) : Cpsr :=
  { p with n := r.msb, z := decide (r = 0#32), c := carry.getD p.c }

/-- The flags of an arithmetic result whose carry is `c` and whose exact signed value is `x` (42 R204). -/
def Cpsr.ofArith (p : Cpsr) (r : Word) (c : Prop) [Decidable c] (x : Int) : Cpsr :=
  { p with n := r.msb, z := decide (r = 0#32), c := decide c, v := decide (x < -(2 ^ 31) ∨ 2 ^ 31 ≤ x) }

/-- The logical instructions with a destination (42 R207, R208, R219 to R222). -/
def State.logicalForms (s : State) (rn : Reg) (op2 : Operand2) : List DataForm :=
  let a := s.operandReg op2 rn
  let b := (s.shifted op2).value
  let form (i : Bool → Reg → Instr) (r : Word) : DataForm := ⟨i, r, s.cpsr.ofLogical r (s.shifted op2).carry⟩
  [form (.and · rn · op2) (a &&& b), form (.eor · rn · op2) (a ^^^ b), form (.orr · rn · op2) (a ||| b),
   form (.mov · · op2) b, form (.bic · rn · op2) (a &&& ~~~b), form (.mvn · · op2) (~~~b)]

/-- The arithmetic instructions with a destination, in exact integers (42 R204, R209 to R214). -/
def State.arithForms (s : State) (rn : Reg) (op2 : Operand2) : List DataForm :=
  let a := s.operandReg op2 rn
  let b := (s.shifted op2).value
  let c := s.cpsr.c.toNat
  let form (i : Bool → Reg → Instr) (r : Word) (carry : Prop) [Decidable carry] (x : Int) : DataForm :=
    ⟨i, r, s.cpsr.ofArith r carry x⟩
  [form (.sub · rn · op2) (a - b) (b.toNat ≤ a.toNat) (a.toInt - b.toInt),
   form (.rsb · rn · op2) (b - a) (a.toNat ≤ b.toNat) (b.toInt - a.toInt),
   form (.add · rn · op2) (a + b) (2 ^ 32 ≤ a.toNat + b.toNat) (a.toInt + b.toInt),
   form (.adc · rn · op2) (a + b + BitVec.ofNat 32 c) (2 ^ 32 ≤ a.toNat + b.toNat + c) (a.toInt + b.toInt + c),
   form (.sbc · rn · op2) (a - b - BitVec.ofNat 32 (1 - c)) (b.toNat + (1 - c) ≤ a.toNat) (a.toInt - b.toInt - (1 - c)),
   form (.rsc · rn · op2) (b - a - BitVec.ofNat 32 (1 - c)) (a.toNat + (1 - c) ≤ b.toNat) (b.toInt - a.toInt - (1 - c))]

/-- The compare instructions, whose S bit is fixed and which have no destination (42 R215 to R218, R223). -/
def State.compareForms (s : State) (rn : Reg) (op2 : Operand2) : List (Instr × Cpsr) :=
  let a := s.operandReg op2 rn
  let b := (s.shifted op2).value
  [(.tst rn op2, s.cpsr.ofLogical (a &&& b) (s.shifted op2).carry),
   (.teq rn op2, s.cpsr.ofLogical (a ^^^ b) (s.shifted op2).carry),
   (.cmp rn op2, s.cpsr.ofArith (a - b) (b.toNat ≤ a.toNat) (a.toInt - b.toInt)),
   (.cmn rn op2, s.cpsr.ofArith (a + b) (2 ^ 32 ≤ a.toNat + b.toNat) (a.toInt + b.toInt))]

/-! ## Multiplies -/

/-- The CPSR of a multiply of value `r` (43 R238; C and V kept, log 12). -/
def Cpsr.ofProduct {w : Nat} (p : Cpsr) (sf : Bool) (r : BitVec w) : Cpsr :=
  if sf then { p with n := r.msb, z := decide (r = 0#w) } else p

/-- The long multiplies with their 64-bit values (43 R233 to R236). -/
def State.longForms (s : State) (sf : Bool) (rdHi rdLo rs rm : Reg) : List (Instr × BitVec 64) :=
  let p := s.reg rm
  let q := s.reg rs
  let acc : Nat := (s.reg rdHi).toNat * 2 ^ 32 + (s.reg rdLo).toNat
  [(.umull sf rdHi rdLo rs rm, BitVec.ofNat 64 (p.toNat * q.toNat)),
   (.umlal sf rdHi rdLo rs rm, BitVec.ofNat 64 (p.toNat * q.toNat + acc)),
   (.smull sf rdHi rdLo rs rm, BitVec.ofInt 64 (p.toInt * q.toInt)),
   (.smlal sf rdHi rdLo rs rm, BitVec.ofInt 64 (p.toInt * q.toInt + acc))]

/-! ## Single transfers -/

/-- A single transfer by its transferred register, with its effective address and, for a load, the value it reads. -/
structure TransferForm where
  instr : Reg → Instr
  address : Effective
  value : Word

/-- The word an LDR reads: the aligned word rotated so that the addressed byte is lowest (20_memory.md R64). -/
def State.rotatedWord (s : State) (addr : Word) : Word := (s.peek32 (align4 addr)).rotateRight (8 * (addr.toNat % 4))

/-- The loads of words and bytes with their values (44 R255, R257, R263, R265). -/
def State.wordLoads (s : State) (p u w : Bool) (rn : Reg) (off : WordOffset) : List TransferForm :=
  let e := s.wordAddress p u w rn off
  let post := s.wordAddress false u true rn off
  [⟨(.ldr p u w rn · off), e, s.rotatedWord e.addr⟩, ⟨(.ldrb p u w rn · off), e, s.peek8 e.addr⟩,
   ⟨(.ldrt u rn · off), post, s.rotatedWord post.addr⟩, ⟨(.ldrbt u rn · off), post, s.peek8 post.addr⟩]

/-- The halfword and signed loads with their values (44 R267, R269, R270). -/
def State.halfLoads (s : State) (p u w : Bool) (rn : Reg) (off : HalfOffset) : List TransferForm :=
  let e := s.halfAddress p u w rn off
  let odd := e.addr.toNat % 2 = 1
  let signedByte := (s.byteAt e.addr).signExtend 32
  [⟨(.ldrh p u w rn · off), e, if odd then (s.peek16 (align2 e.addr)).rotateRight 8 else s.peek16 e.addr⟩,
   ⟨(.ldrsb p u w rn · off), e, signedByte⟩,
   ⟨(.ldrsh p u w rn · off), e,
     if odd then signedByte else (s.byteAt (e.addr + 1#32) ++ s.byteAt e.addr).signExtend 32⟩]

/-- A store by its transferred register, with its effective address, the address of the first byte stored and how many. -/
structure StoreForm where
  instr : Reg → Instr
  address : Effective
  first : Word
  bytes : Nat

/-- What a store of R15 stores: the instruction's address plus `STORE_PC_OFF` (44 R261). -/
def State.storedPc (s : State) : Word := s.r15 - 8#32 + s.params.storePcOff

/-- The stores (44 R256, R258, R264, R266, R268): the low address bits of the width are dropped (20_memory.md R67). -/
def State.stores (s : State) (p u w : Bool) (rn : Reg) (off : WordOffset) (half : HalfOffset) : List StoreForm :=
  let e := s.wordAddress p u w rn off
  let post := s.wordAddress false u true rn off
  let h := s.halfAddress p u w rn half
  [⟨(.str p u w rn · off), e, align4 e.addr, 4⟩, ⟨(.strb p u w rn · off), e, e.addr, 1⟩,
   ⟨(.strt u rn · off), post, align4 post.addr, 4⟩, ⟨(.strbt u rn · off), post, post.addr, 1⟩,
   ⟨(.strh p u w rn · half), h, align2 h.addr, 2⟩]

/-! ## Block transfers -/

/-- How many registers below `i` a list names. -/
def rank (list : BitVec 16) (i : Nat) : Nat := (List.range i).countP fun j => list.getLsbD j

/-- The number of registers a list names. -/
def population (list : BitVec 16) : Nat := rank list 16

/-- The address of the word of register `i` in a block transfer from `start` (45 R292). -/
def slot (list : BitVec 16) (start : Word) (i : Reg) : Word := align4 (start + BitVec.ofNat 32 (4 * rank list i.val))

/-- Does a word lie outside the I/O window, whole? -/
def State.plainWord (s : State) (a : Word) : Prop := ∀ k, k < 4 → s.params.isIo (a + BitVec.ofNat 32 k) = false

/-- What a listed register is read as by STM: R15 as the instruction's address plus `STORE_PC_OFF`, the base as written back
when it is not the first transferred, any other as it is (45 R294, R297, R299, R302). `m` is the bank it is read from. -/
def State.blockValue (s : State) (m : Mode) (w : Bool) (rn : Reg) (list : BitVec 16) (final : Word) (i : Reg) : Word :=
  if i = 15 then s.storedPc
  else if w = true ∧ rank list i.val ≠ 0 ∧ physical m i = physical s.cpsr.mode rn then final
  else s.regIn m i

/-- What a listed register R0 to R14 holds after LDM: the word at its place, but where `LDM_BASE_FIRST` is `writeback` and the
base is the lowest listed register, the value written back (45 R295, R298, R300). `m` is the bank it is written to. -/
def State.loadedValue (s : State) (m : Mode) (w : Bool) (rn : Reg) (list : BitVec 16) (start final : Word) (i : Reg) : Word :=
  if s.params.ldmBaseFirst = .writeback ∧ w = true ∧ rank list i.val = 0 ∧ physical m i = physical s.cpsr.mode rn then final
  else s.peek32 (slot list start i)

/-- The registers of a list in the bank of a mode. -/
def listedIn (m : Mode) (list : BitVec 16) : List PhysReg := (listed list).filterMap (physical m)

/-! ## Refusals -/

end Sys2Proof.Machine

namespace Sys2Proof

open Machine

/-- Does the instruction write back to a base that is R15 (44 R271, 45 R305)? -/
def Instr.writesBackToPc : Instr → Bool
  | .str p _ w rn _ _ | .ldr p _ w rn _ _ | .strb p _ w rn _ _ | .ldrb p _ w rn _ _ => rn == 15 && (!p || w)
  | .strh p _ w rn _ _ | .ldrh p _ w rn _ _ | .ldrsb p _ w rn _ _ | .ldrsh p _ w rn _ _ => rn == 15 && (!p || w)
  | .strt _ rn _ _ | .ldrt _ rn _ _ | .strbt _ rn _ _ | .ldrbt _ rn _ _ => rn == 15
  | .stm _ _ w rn _ | .ldm _ _ w rn _ | .stmUser _ _ w rn _ | .ldmUser _ _ w rn _ => rn == 15 && w
  | .and .. | .eor .. | .sub .. | .rsb .. | .add .. | .adc .. | .sbc .. | .rsc .. | .tst .. | .teq .. | .cmp .. | .cmn ..
  | .orr .. | .mov .. | .bic .. | .mvn .. | .mrsCpsr .. | .mrsSpsr .. | .msrCpsrReg .. | .msrSpsrReg .. | .msrCpsrImm ..
  | .msrSpsrImm .. | .bx .. | .mul .. | .mla .. | .umull .. | .umlal .. | .smull .. | .smlal .. | .swp .. | .swpb ..
  | .b .. | .bl .. | .swi .. | .undefined .. => false

/-- The mode number the instruction would install in CPSR, if any: MSR to the control field outside User mode, and the CPSR
restore of a return in a mode with an SPSR (47 R333, 40 R160). -/
def Instr.installs (s : State) : Instr → Option (BitVec 5)
  | .msrCpsrReg mask rm => if maskC mask && s.cpsr.mode.privileged then some (bits (s.reg rm) 0 5) else none
  | .msrCpsrImm mask rot imm8 =>
    if maskC mask && s.cpsr.mode.privileged then some (bits (rotatedImm rot imm8).value 0 5) else none
  | .and sf _ rd _ | .eor sf _ rd _ | .sub sf _ rd _ | .rsb sf _ rd _ | .add sf _ rd _ | .adc sf _ rd _ | .sbc sf _ rd _
  | .rsc sf _ rd _ | .orr sf _ rd _ | .mov sf rd _ | .bic sf _ rd _ | .mvn sf rd _ =>
    if sf && rd == 15 then s.cpsr.mode.banked.map fun b => (s.spsrOf b).m else none
  | .ldmUser _ _ _ _ list =>
    if list == 0#16 || list.getLsbD 15 then s.cpsr.mode.banked.map fun b => (s.spsrOf b).m else none
  | .tst .. | .teq .. | .cmp .. | .cmn .. | .mrsCpsr .. | .mrsSpsr .. | .msrSpsrReg .. | .msrSpsrImm .. | .bx .. | .mul ..
  | .mla .. | .umull .. | .umlal .. | .smull .. | .smlal .. | .swp .. | .swpb .. | .strh .. | .ldrh .. | .ldrsb .. | .ldrsh ..
  | .str .. | .ldr .. | .strb .. | .ldrb .. | .strt .. | .ldrt .. | .strbt .. | .ldrbt .. | .stm .. | .ldm .. | .stmUser ..
  | .b .. | .bl .. | .swi .. | .undefined .. => none

end Sys2Proof

namespace Sys2Proof.Machine

/-- A legal mode number (10_state.md R27, 93 U6). -/
def legalMode (m : BitVec 5) : Bool := (Mode.ofCode m).isSome

/-! ## Steps -/

/-- The core steps in the 32-bit encoding (40_pipeline_condition.md R150). -/
structure Awake (s : State) : Prop where
  awake : s.halted = false
  primary : s.cpsr.t = false

/-- The core steps in the 32-bit encoding and the platform does nothing, before the step or inside it. -/
structure Running (s : State) : Prop extends Awake s where
  quiet : s.agenda = []

/-- No interrupt is taken: the line is low or masked (60_exceptions.md R377). -/
def State.uninterrupted (s : State) : Prop := s.irqLine = false ∨ s.cpsr.i = true

/-- The state of a step at the moment its word executes: the fetch made, the calls noted (40 R151). -/
def State.fetched (s : State) : State := s.fresh.fetchNext

/-! ## The invariant -/

/-- The controller's tables and its prefetch bit are those its control value gives (21_waitstate.md R93 to R95). -/
structure WaitState.Configured (ws : WaitState) (p : Params) : Prop where
  rom0 : ws.rom0 = slotCost p .slot0 (ws.wcnt.extractLsb' 2 3)
  rom1 : ws.rom1 = slotCost p .slot1 (ws.wcnt.extractLsb' 5 3)
  rom2 : ws.rom2 = slotCost p .slot2 (ws.wcnt.extractLsb' 8 3)
  sram : ws.sram = sramCost p (ws.wcnt.extractLsb' 0 2)
  wram : ws.wram = wramCost
  prefetch : ws.prefetchEn = ws.wcnt.getLsbD 14

/-- A platform call that cannot leave R15 misaligned for the instruction set in force: every one but those that can clear
CPSR.T without a branch (60_exceptions.md R390). -/
def PlatformCall.keepsAlignment : PlatformCall → Bool
  | .switchBank _ (some _) | .spsrToCpsr => false
  | .switchBank _ none | .branch .. | .enterThumb | .triggerIrq .. | .writeReg .. | .writeUser .. | .writeFlags ..
  | .setHalted .. | .waitControl .. | .reset | .dmaByte .. => true

/-- A turn of the platform none of whose calls can. -/
def Turn.keepsAlignment (turn : Turn) : Prop :=
  (∀ c ∈ turn.before, c.keepsAlignment = true) ∧ ∀ batch ∈ turn.inside, ∀ c ∈ batch, c.keepsAlignment = true

/-- What every step keeps: memory is in its canonical form, the controller is configured and its buffer within capacity, R15
is a multiple of the instruction width (10_state.md R25), and the platform makes no call that could break that. -/
structure Inv (s : State) : Prop where
  memory : s.mem.wf
  configured : s.ws.Configured s.params
  buffered : s.ws.buffer ≤ s.params.prebufCap
  aligned : s.r15 &&& branchMask s.cpsr.t = s.r15
  agenda : ∀ turn ∈ s.agenda, turn.keepsAlignment

end Sys2Proof.Machine
end

