-- ==== Sys2Proof/Certificates/Slice0/Obligations.lean ====
section
/-! DEFINITION. The statements about the model that are to be proved, in the terms of Sys2Proof/Safety.lean. Each docstring
names the rule of spec/ it formalises, or the log entry it rests on. The parameters of 00_scope.md R4 are a field of every
state (log 29), so that a statement about every state is one about every value of them. Where an instruction calls the
platform, the premise `s.inside = []` says that the platform does nothing inside it (log 7). -/

open Sys2Proof Sys2Proof.Machine

/-! ## Encoding (30_encoding.md) -/

/-- Decoding the bytes of an encoded well-formed instruction gives it back, with its condition and the bytes that follow: no
bit of an encoding is dropped. -/
def Obligations.DecodeOfEncode : Prop :=
  ∀ (c : Cond) (i : Instr) (rest : List Byte), WellFormed i = true →
    decode (bytesOfWord (encode c i) ++ rest) = .ok (c, i, rest)

/-- Whatever a word decodes to is well-formed: in particular a word the decoder calls undefined is one of an UNDEFINED row of
the table, and no P = 0, W = 1 word is a plain transfer (R133, R134, R137). -/
def Obligations.DecodedIsWellFormed : Prop := ∀ w : Word, WellFormed (decodeWord w) = true

/-- The class field alone selects the instruction (R121, R125). -/
def Obligations.ClassSelectsInstruction : Prop :=
  ∀ v w : Word, classOf v = classOf w → (decodeWord v).mnemonic = (decodeWord w).mnemonic

/-- 1149 of the 4096 class values are Undefined (R137). -/
def Obligations.UndefinedClassCount : Prop :=
  (List.range 4096).countP (fun k => (decodeWord (wordOfClass (BitVec.ofNat 12 k))).mnemonic = "UNDEFINED") = 1149

/-- A word of each family, from the spec's examples, decodes to the instruction it stands for. -/
def Obligations.SampleWordsDecode : Prop :=
  decodeWord 0xE0901000#32 = .add true 0 1 (.shiftImm .lsl 0 0) ∧
  decodeWord 0xE1B00251#32 = .mov true 0 (.shiftReg .asr 2 1) ∧
  decodeWord 0xE3510010#32 = .cmp 1 (.imm 0 0x10) ∧
  decodeWord 0xE0232190#32 = .mla false 3 2 1 0 ∧
  decodeWord 0xE0C32190#32 = .smull false 3 2 1 0 ∧
  decodeWord 0xE7910102#32 = .ldr true true false 1 0 (.reg .lsl 2 2) ∧
  decodeWord 0xE4E10001#32 = .strbt true 1 0 (.imm 1) ∧
  decodeWord 0xE1D100F6#32 = .ldrsh true true false 1 0 (.imm 6) ∧
  decodeWord 0xE92D4003#32 = .stm true false true 13 0x4003 ∧
  decodeWord 0xE8FD8003#32 = .ldmUser false true true 13 0x8003 ∧
  decodeWord 0xEB00003E#32 = .bl 0x3E ∧
  decodeWord 0xE12FFF1E#32 = .bx 14 ∧
  decodeWord 0xE129F000#32 = .msrCpsrReg 9 0 ∧
  decodeWord 0xE14F0000#32 = .mrsSpsr 0 ∧
  decodeWord 0xE1420091#32 = .swpb 2 0 1 ∧
  decodeWord 0xEF060000#32 = .swi 0x060000 ∧
  decodeWord 0xE7F000F0#32 = .undefined 0x7F000F0

/-! ## Registers and memory (10_state.md, 20_memory.md) -/

/-- A register written in one mode is read in another exactly where the bank table makes them one physical register: the same
number, and a shared register, or two modes with the same bank for it; no write touches any other register (R21, R22). -/
def Obligations.BankedReadAfterWrite : Prop :=
  ∀ (s : State) (m m' : Mode) (n n' : Reg) (v : Word), n ≠ 15 →
    (s.setRegIn m n v).regIn m' n' =
      if n = n' ∧ (n.val ≤ 7 ∨ (n.val ≤ 12 ∧ (m = .fiq ↔ m' = .fiq)) ∨ m = m' ∨
          (m ∈ [Mode.user, .system] ∧ m' ∈ [Mode.user, .system])) then v
      else s.regIn m' n'

/-- A memory byte reads as last written, and a write leaves every other byte alone; the canonical form is kept (R62; the form
is the model's, log 2). -/
def Obligations.MemoryReadAfterWrite : Prop :=
  ∀ (m : Memory) (a b : Word) (v : Byte), m.wf →
    Memory.read (m.write a.toNat v) b.toNat = (if b = a then v else Memory.read m b.toNat) ∧ (m.write a.toNat v).wf

/-- The reset state: what R41 and R91 give, with RESET_PC at its default 0x00000000, which is the model's choice of a
parameter (log 16). The general registers, flags and SPSRs, whose reset value the spec leaves open, are not spoken of
(log 1). -/
def Obligations.ResetValues : Prop :=
  State.reset.params.resetPc = 0x00000000#32 ∧ State.reset.r15 = 0x00000000#32 ∧ State.reset.refill = 2 ∧
      State.reset.cpsr.mode = .supervisor ∧
  State.reset.cpsr.i = true ∧ State.reset.cpsr.f = true ∧ State.reset.cpsr.t = false ∧ State.reset.halted = false ∧
  State.reset.ws = { (State.reset.ws.setControl State.reset.params 0x0000#16) with
    wcnt := 0x0000#16, prefetchEn := false, buffer := 0, clocks := 0, nonseq := true, cycles := 0 }

/-- The reset call of the platform (R411): Supervisor mode, interrupts masked, the controller as R91, a branch to RESET_PC,
whatever that parameter is; of the registers and saved status words only R14_svc and SPSR_svc may change,
    and flags and memory stay. -/
def Obligations.ResetCall : Prop :=
  ∀ s : State, ∃ t, platformCall .reset s = .next t ∧
    t.cpsr = { s.cpsr with mode := .supervisor, i := true, f := true, t := false } ∧ t.halted = false ∧
    BranchedTo t (s.params.resetPc &&& 0xFFFFFFFC#32) ∧ t.ws = WaitState.reset s.params ∧ t.params = s.params ∧
    t.mem = s.mem ∧ t.irqLine = s.irqLine ∧
    (∀ p, p ≠ .r14_svc → t.phys p = s.phys p) ∧ (∀ b, b ≠ .supervisor → t.spsrOf b = s.spsrOf b)

/-! ## Conditions and steps (40_pipeline_condition.md) -/

/-- The condition table: the sixteen rows of flags N, Z, C, V, in each the sixteen columns EQ to NV (R154, R155). -/
def Obligations.ConditionTable : Prop :=
  ∀ (p : Cpsr) (c : Fin 16),
    condPass (Cond.ofField c.val) p =
      (([0x556B, 0x5657, 0x65AB, 0x6697, 0x9567, 0x9657, 0xA567, 0xA657] ++
        [0x5957, 0x5A6B, 0x6997, 0x6AAB, 0x9957, 0x9A67, 0xA957, 0xAA67] : List Nat)[
          8 * p.n.toNat + 4 * p.z.toNat + 2 * p.c.toNat + p.v.toNat]?.getD 0).testBit (15 - c.val)

/-- A step runs the decoded instruction. Let `u` be the state after the platform's turn (the state itself, begun afresh, when
the agenda is empty). When the word in `execute` decodes to `i` and its condition passes once the word at R15 has been
fetched, the step is `exec i` there, then the latches advance,
    and it ends with the refusal of a call the platform made inside
it, if there was one (R151, R156; the platform's part is log 7). -/
def Obligations.StepRunsDecoded : Prop :=
  ∀ (s u : State) (c : Cond) (i : Instr) (rest : List Byte), platformTurn s.fresh = .next u → Awake u → u.refill = 0 →
    u.uninterrupted → decode (bytesOfWord u.execute ++ rest) = .ok (c, i, rest) → condPass c u.fetchNext.cpsr = true →
    step s = Result.andThen (exec i u.fetchNext) fun t => State.endStep { t with execute := t.decode, decode := t.fetch }

/-- The state at which the word executes when the platform does nothing is the one before the step but for the `fetch` latch,
which holds the word at R15, the calls, the controller's counters and the draws (R151; 21_waitstate.md R112). What the
platform does inside the fetch comes after its charge and before its data (21_waitstate.md R107, 00_scope.md R8, log 7). -/
def Obligations.FetchComesFirst : Prop :=
  (∀ s : State,
    s.fetched.fetch = s.peek32 s.r15 ∧ s.fetched.calls = [.fetch32 s.r15] ∧ s.fetched.ws.wcnt = s.ws.wcnt ∧
    (s.plainWord s.r15 → s.fetched.draws = s.draws) ∧
    s.fetched = { s.fresh with
      fetch := s.fetched.fetch, calls := s.fetched.calls, ws := s.fetched.ws, draws := s.fetched.draws }) ∧
  ∀ (u t : State) (batch : List PlatformCall) (later : List (List PlatformCall)), u.inside = batch :: later →
    runCalls innerCall batch { u with
      inside := later, ws := u.ws.fetchCost u.params (u.params.inCart u.r15) u.r15,
      calls := u.calls ++ [.fetch32 u.r15] } = .next t →
    u.fetchNext.fetch = t.peek32 u.r15 ∧ u.fetchNext.mem = t.mem ∧ u.fetchNext.regs = t.regs ∧
      u.fetchNext.r15 = t.r15 ∧ u.fetchNext.cpsr = t.cpsr ∧ u.fetchNext.ws = t.ws ∧ u.fetchNext.inside = later

/-- A word whose condition fails does nothing but its fetch: R15 advances by 4 and so do the latches (R153). -/
def Obligations.FailedConditionOnlyAdvances : Prop :=
  ∀ s : State, Running s → s.refill = 0 → s.uninterrupted → condPass (condOf s.execute) s.cpsr = false →
    ∃ t, step s = .next t ∧ FallsThrough s t ∧ t.fetch = s.peek32 s.r15 ∧ t.decode = s.peek32 s.r15 ∧
      t.execute = s.decode ∧ t.cpsr = s.cpsr ∧ t.regs = s.regs ∧ (∀ b, t.spsrOf b = s.spsrOf b) ∧ t.mem = s.mem ∧
      t.ws.wcnt = s.ws.wcnt ∧ t.irqLine = s.irqLine ∧ t.halted = s.halted ∧ t.agenda = [] ∧ t.calls = [.fetch32 s.r15]

/-- A bubble step fetches, adds 4 to R15, advances the latches and counts `refill` down; it writes no register, no flag and
no memory, and it is taken whatever the interrupt line says (R152, 60_exceptions.md R377). -/
def Obligations.BubbleStepOnlyFetches : Prop :=
  ∀ s : State, Running s → s.refill ≠ 0 →
    ∃ t, step s = .next t ∧ t.r15 = s.r15 + 4#32 ∧ t.refill.val + 1 = s.refill.val ∧ t.fetch = s.peek32 s.r15 ∧
      t.decode = s.peek32 s.r15 ∧ t.execute = s.decode ∧ t.cpsr = s.cpsr ∧ t.regs = s.regs ∧
      (∀ b, t.spsrOf b = s.spsrOf b) ∧ t.mem = s.mem ∧ t.ws.wcnt = s.ws.wcnt ∧ t.irqLine = s.irqLine ∧
      t.halted = false ∧ t.agenda = [] ∧ t.calls = [.fetch32 s.r15]

/-- After a branch exactly two bubble steps pass; then R15 is the target + 8 and `execute` holds the word at the target
(R161), which stands in memory outside the I/O window. -/
def Obligations.TwoBubblesAfterBranch : Prop :=
  ∀ s : State, Running s → s.refill = 2 → s.plainWord s.r15 →
    ∃ t u, step s = .next t ∧ step t = .next u ∧ u.refill = 0 ∧ u.r15 = s.r15 + 8#32 ∧ u.regs = s.regs ∧
      u.cpsr = s.cpsr ∧ u.mem = s.mem ∧ (∀ b, u.spsrOf b = s.spsrOf b) ∧
      u.execute = wordOfBytes (s.mem.read s.r15.toNat) (s.mem.read (s.r15 + 1#32).toNat)
        (s.mem.read (s.r15 + 2#32).toNat) (s.mem.read (s.r15 + 3#32).toNat)

/-- While the platform holds `halted`, a step changes nothing (R165); of the model's own fields, the list of calls of the step
is empty and nothing is left of what the platform did inside an earlier step (log 7, log 8). -/
def Obligations.HaltedStepChangesNothing : Prop :=
  ∀ s : State, s.agenda = [] → s.halted = true → step s = .next s.fresh

/-- With T = 1 the step is refused, naming the address (R150; 30_encoding.md R141). -/
def Obligations.CompactEncodingRefused : Prop :=
  ∀ s : State, s.agenda = [] → s.halted = false → s.cpsr.t = true → step s = .refused (.compactEncoding s.r15)

/-- The interrupt entry (60_exceptions.md R375, R377): at a step that would be a normal step, with the line high and I = 0,
CPSR goes to SPSR_irq, R15 - 4 to R14_irq, the mode is IRQ with I = 1, and the core branches to 0x18; nothing is fetched,
executed or stored, and the latches stay. -/
def Obligations.InterruptEntry : Prop :=
  ∀ s : State, Running s → s.refill = 0 → s.irqLine = true → s.cpsr.i = false →
    ∃ t, step s = .next t ∧ t.cpsr = { s.cpsr with mode := .irq, i := true, t := false } ∧ t.spsrIrq = s.cpsr.save ∧
      t.phys .r14_irq = s.r15 - 4#32 ∧ BranchedTo t 0x00000018#32 ∧ Frame s.fresh t [.r14_irq] [.irq] ∧ NoStore s t ∧
      t.calls = [.branch]

/-! ## The barrel shifter (41_shifter_operand2.md) -/

/-- Shift by register, in exact arithmetic: the value and the carry-out for every amount 1 to 255, and amount 0 (R186 to
R190). -/
def Obligations.ShiftByRegister : Prop :=
  ∀ (m : Word) (n : Nat), n < 256 →
    (∀ type, n = 0 → shiftByReg type n m = ⟨m, none⟩) ∧
    (0 < n → (shiftByReg .lsl n m).value.toNat = m.toNat * 2 ^ n % 2 ^ 32 ∧
      (shiftByReg .lsl n m).carry = some (decide (n ≤ 32) && m.getLsbD (32 - n))) ∧
    (0 < n → (shiftByReg .lsr n m).value.toNat = m.toNat / 2 ^ n ∧
      (shiftByReg .lsr n m).carry = some (m.getLsbD (n - 1))) ∧
    (0 < n → (shiftByReg .asr n m).value.toInt = m.toInt / 2 ^ n ∧
      (shiftByReg .asr n m).carry = some (m.getLsbD (min (n - 1) 31))) ∧
    (0 < n → (shiftByReg .ror n m).value = m.rotateRight n ∧
      (shiftByReg .ror n m).carry = some (m.rotateRight n).msb)

/-- Shift by immediate, in exact arithmetic: LSL #0 is no shift and gives no carry, LSR #0 and ASR #0 are shifts by 32, ROR #0
is the 33-bit rotate through the carry flag `c` (R182 to R185). -/
def Obligations.ShiftByImmediate : Prop :=
  ∀ (m : Word) (amount : BitVec 5) (c : Bool),
    let a := amount.toNat
    let full := if a = 0 then 32 else a
    shiftByImm .lsl amount m c = ⟨BitVec.ofNat 32 (m.toNat * 2 ^ a), if a = 0 then none else some (m.getLsbD (32 - a))⟩ ∧
    shiftByImm .lsr amount m c = ⟨BitVec.ofNat 32 (m.toNat / 2 ^ full), some (m.getLsbD (full - 1))⟩ ∧
    shiftByImm .asr amount m c = ⟨BitVec.ofInt 32 (m.toInt / 2 ^ full), some (m.getLsbD (full - 1))⟩ ∧
    shiftByImm .ror amount m c =
      if a = 0 then ⟨BitVec.ofNat 32 (c.toNat * 2 ^ 31 + m.toNat / 2), some (m.getLsbD 0)⟩
      else ⟨m.rotateRight a, some (m.getLsbD (a - 1))⟩

/-- The rotated immediate: its value, and a carry-out, bit 31 of the value, if the rotation is not zero (R191). -/
def Obligations.RotatedImmediate : Prop :=
  ∀ (rot : BitVec 4) (imm8 : Byte),
    (rotatedImm rot imm8).value = (imm8.setWidth 32).rotateRight (2 * rot.toNat) ∧
    (rotatedImm rot imm8).carry = if rot = 0 then none else some ((imm8.setWidth 32).rotateRight (2 * rot.toNat)).msb

/-! ## Data processing (42_data_processing.md) -/

/-- Operand 2 is, in each of its forms, the shifter function of R180, R186 or R191 applied to what the form names: Rm and the
carry flag with an immediate amount, Rm and the low byte of Rs with a register amount, both one word further where they are
R15 (R202), `imm8` and the rotation. With it AND, EOR, ORR, MOV, BIC, MVN with a destination other than R15 complete in every
state, in every operand form: the result (R207, R208, R219 to R222), the flags with S = 1 and none with S = 0 (R203, R205),
R15 + 4, and nothing else. That V stays is the spec's general knowledge (G15, log 27). -/
def Obligations.LogicalToRegister : Prop :=
  (∀ (s : State) (type : ShiftType) (amount : BitVec 5) (rs rm : Reg) (rot : BitVec 4) (imm8 : Byte), s.inside = [] →
    let read := fun (n : Reg) (past : Word) => if n = 15 then s.r15 + past else s.reg n
    let used := fun (op2 : Operand2) => (s.beforeOperands op2).operand2 op2
    used (.shiftImm type amount rm) = shiftByImm type amount (read rm 0#32) s.cpsr.c ∧
    used (.shiftReg type rs rm) = shiftByReg type ((read rs 4#32).toNat % 256) (read rm 4#32) ∧
    used (.imm rot imm8) = rotatedImm rot imm8 ∧ ∀ op2, used op2 = s.shifted op2) ∧
  ∀ (s : State) (sf : Bool) (rn rd : Reg) (op2 : Operand2), s.inside = [] → rd ≠ 15 → ∀ f ∈ s.logicalForms rn op2,
    Completes (f.instr sf rd) s fun t => t.reg rd = f.result ∧ t.cpsr = (if sf then f.flags else s.cpsr) ∧
      FallsThrough s t ∧ Frame s t (s.named rd) ∧ NoStore s t

/-- SUB, RSB, ADD, ADC, SBC, RSC with a destination other than R15 likewise (R209 to R214, R205): C is the carry out of an
addition and not-borrow of a subtraction in exact unsigned numbers, V says that the exact signed result does not fit in 32
bits (R204, the spec's decision D8, log 27). -/
def Obligations.ArithmeticToRegister : Prop :=
  ∀ (s : State) (sf : Bool) (rn rd : Reg) (op2 : Operand2), s.inside = [] → rd ≠ 15 → ∀ f ∈ s.arithForms rn op2,
    Completes (f.instr sf rd) s fun t => t.reg rd = f.result ∧ t.cpsr = (if sf then f.flags else s.cpsr) ∧
      FallsThrough s t ∧ Frame s t (s.named rd) ∧ NoStore s t

/-- TST, TEQ, CMP, CMN complete in every state and write the flags alone (R215 to R218; the flags R203 and R204 with D8, no
destination whatever the Rd field is R223 with D12, log 27). -/
def Obligations.ComparesSetFlagsOnly : Prop :=
  ∀ (s : State) (rn : Reg) (op2 : Operand2), s.inside = [] → ∀ f ∈ s.compareForms rn op2,
    Completes f.1 s fun t => t.cpsr = f.2 ∧ FallsThrough s t ∧ Frame s t [] ∧ NoStore s t

/-- With S = 0 and destination R15 the twelve branch to the result, masked to a multiple of 4, and change nothing else
(R205; 40_pipeline_condition.md R157). -/
def Obligations.DataToPcBranches : Prop :=
  ∀ (s : State) (rn : Reg) (op2 : Operand2), s.inside = [] → s.cpsr.t = false →
      ∀ f ∈ s.logicalForms rn op2 ++ s.arithForms rn op2,
    Completes (f.instr false 15) s fun t => BranchedTo t (f.result &&& 0xFFFFFFFC#32) ∧ t.cpsr = s.cpsr ∧
      Frame s t [] ∧ NoStore s t

/-- With S = 1 and destination R15 the twelve return from an exception: in a mode with an SPSR whose mode number is legal CPSR
is replaced whole by it, and the branch is masked by the restored T; in User and System mode the computed flags stay and the
branch is plain; an illegal mode number is refused (R206; 40 R160, 10 R32, 93 U6). -/
def Obligations.DataReturnRestores : Prop :=
  ∀ (s : State) (rn : Reg) (op2 : Operand2), s.inside = [] → ∀ f ∈ s.logicalForms rn op2 ++ s.arithForms rn op2,
    match s.cpsr.mode.banked with
    | some b =>
      match Mode.ofCode (s.spsrOf b).m with
      | some m =>
        Completes (f.instr true 15) s fun t =>
          t.cpsr.save = s.spsrOf b ∧ t.cpsr.mode = m ∧ BranchedTo t (f.result &&& branchMask (s.spsrOf b).t) ∧
          Frame s t [] ∧ NoStore s t
      | none => exec (f.instr true 15) s = .refused (.illegalMode (s.spsrOf b).m)
    | none =>
      Completes (f.instr true 15) s fun t =>
        t.cpsr = f.flags ∧ BranchedTo t (f.result &&& branchMask s.cpsr.t) ∧ Frame s t [] ∧ NoStore s t

/-! ## Multiplies (43_multiply.md) -/

/-- MUL and MLA with a destination other than R15: the product modulo 2^32, with the accumulator for MLA; where Rd and Rm are
the same field, zero for MUL and `MLA_ALIAS_RESULT` of the accumulator for MLA (R231, R232); N and Z with S = 1, C and V kept
(log 12). -/
def Obligations.MultiplyToRegister : Prop :=
  ∀ (s : State) (sf : Bool) (rd rn rs rm : Reg), s.inside = [] → rd ≠ 15 →
    let product := BitVec.ofNat 32 ((s.reg rm).toNat * (s.reg rs).toNat)
    ∀ f ∈ [(Instr.mul sf rd rs rm, if rd = rm then 0#32 else product),
        (Instr.mla sf rd rn rs rm, if rd = rm then s.params.mlaResult (s.reg rn) else product + s.reg rn)],
      Completes f.1 s fun t => t.reg rd = f.2 ∧ t.cpsr = s.cpsr.ofProduct sf f.2 ∧ FallsThrough s t ∧
        Frame s t (s.named rd) ∧ NoStore s t

/-- UMULL, UMLAL, SMULL, SMLAL with RdHi other than R15: the high half goes to RdHi, the low half to RdLo unless that is R15
or RdHi itself; flags over all 64 bits with S = 1, C and V kept (R233 to R238, log 12). -/
def Obligations.LongMultiplyToRegisters : Prop :=
  ∀ (s : State) (sf : Bool) (rdHi rdLo rs rm : Reg), s.inside = [] → rdHi ≠ 15 → ∀ f ∈ s.longForms sf rdHi rdLo rs rm,
    Completes f.1 s fun t => t.reg rdHi = f.2.extractLsb' 32 32 ∧
      (rdLo ≠ 15 → rdLo ≠ rdHi → t.reg rdLo = f.2.extractLsb' 0 32) ∧ t.cpsr = s.cpsr.ofProduct sf f.2 ∧
      FallsThrough s t ∧ Frame s t (s.named rdHi ++ s.named rdLo) ∧ NoStore s t

/-- A multiply whose (high) destination is R15 branches; the low half of a long one still goes to RdLo (R231, R232, R237). -/
def Obligations.MultiplyToPcBranches : Prop :=
  ∀ (s : State) (sf : Bool) (rdLo rn rs rm : Reg), s.inside = [] → s.cpsr.t = false →
    let product := BitVec.ofNat 32 ((s.reg rm).toNat * (s.reg rs).toNat)
    (∀ f ∈ [(Instr.mul sf 15 rs rm, if rm = 15 then 0#32 else product),
        (Instr.mla sf 15 rn rs rm, if rm = 15 then s.params.mlaResult (s.reg rn) else product + s.reg rn)],
      Completes f.1 s fun t => BranchedTo t (f.2 &&& 0xFFFFFFFC#32) ∧ t.cpsr = s.cpsr.ofProduct sf f.2 ∧
        Frame s t [] ∧ NoStore s t) ∧
    ∀ f ∈ s.longForms sf 15 rdLo rs rm,
      Completes f.1 s fun t => BranchedTo t (f.2.extractLsb' 32 32 &&& 0xFFFFFFFC#32) ∧
        (rdLo ≠ 15 → t.reg rdLo = f.2.extractLsb' 0 32) ∧ t.cpsr = s.cpsr.ofProduct sf f.2 ∧
        Frame s t (s.named rdLo) ∧ NoStore s t

/-! ## Single transfers and swaps (44_single_transfer.md, 48_swap.md) -/

/-- The effective address and the value written back (R251, R253, R254), the base read as it stands. -/
def Obligations.EffectiveAddress : Prop :=
  ∀ (s : State) (p u w : Bool) (rn rm : Reg) (imm12 : BitVec 12) (imm8 : Byte),
    let ea (off : Word) : Effective :=
      let moved := if u then s.reg rn + off else s.reg rn - off
      ⟨if p then moved else s.reg rn, if p && !w then none else some moved⟩
    s.wordAddress p u w rn (.imm imm12) = ea (BitVec.ofNat 32 imm12.toNat) ∧
    (∀ type amount, s.wordAddress p u w rn (.reg type amount rm) = ea (shiftByImm type amount (s.reg rm) s.cpsr.c).value) ∧
    s.halfAddress p u w rn (.imm imm8) = ea (BitVec.ofNat 32 imm8.toNat) ∧
    s.halfAddress p u w rn (.reg rm) = ea (s.reg rm)

/-- Every load to a register other than R15 completes unless it writes back to R15: the value read, the base written back
before it, and nothing else changes, flags and memory included (R255, R257, R259, R263, R265, R267, R269, R270). -/
def Obligations.LoadsToRegister : Prop :=
  ∀ (s : State) (p u w : Bool) (rn rd : Reg) (off : WordOffset) (half : HalfOffset), s.inside = [] → rd ≠ 15 →
    ∀ f ∈ s.wordLoads p u w rn off ++ s.halfLoads p u w rn half, (rn = 15 → f.address.writeback = none) →
      Completes (f.instr rd) s fun t => t.reg rd = f.value ∧
        (∀ v, f.address.writeback = some v → rn ≠ rd → t.reg rn = v) ∧ t.cpsr = s.cpsr ∧ FallsThrough s t ∧
        Frame s t (s.named rd ++ s.writtenBack rn f.address.writeback.isSome) ∧ NoStore s t

/-- Every load to R15 branches to the loaded value, masked, and writes back its base; T does not change (R259). -/
def Obligations.LoadsToPcBranch : Prop :=
  ∀ (s : State) (p u w : Bool) (rn : Reg) (off : WordOffset) (half : HalfOffset), s.inside = [] → s.cpsr.t = false →
    ∀ f ∈ s.wordLoads p u w rn off ++ s.halfLoads p u w rn half, (rn = 15 → f.address.writeback = none) →
      Completes (f.instr 15) s fun t => BranchedTo t (f.value &&& 0xFFFFFFFC#32) ∧
        (∀ v, f.address.writeback = some v → t.reg rn = v) ∧ t.cpsr = s.cpsr ∧
        Frame s t (s.writtenBack rn f.address.writeback.isSome) ∧ NoStore s t

/-- Every store completes unless it writes back to R15: the low bytes of the register, R15 as the instruction's address plus
`STORE_PC_OFF`, go to the bytes at the aligned address; the base is written back after; no other byte, register or flag
changes (R256, R258, R260, R261, R264, R266, R268; 20_memory.md R67). That the bytes read back as stored at every address
outside the I/O window, ROM and unmapped addresses included, is the model's choice (log 3), and so is that the window keeps
nothing (log 4) and what STRB, STRH, STRT and STRBT store for R15 (log 32). -/
def Obligations.StoresReachTheirBytes : Prop :=
  ∀ (s : State) (p u w : Bool) (rn rd : Reg) (off : WordOffset) (half : HalfOffset), s.inside = [] → s.mem.wf →
    ∀ f ∈ s.stores p u w rn off half, (rn = 15 → f.address.writeback = none) →
      Completes (f.instr rd) s fun t =>
        Stored s t f.first f.bytes (if rd = 15 then s.storedPc else s.reg rd) ∧
        (∀ v, f.address.writeback = some v → t.reg rn = v) ∧ t.cpsr = s.cpsr ∧ FallsThrough s t ∧
        Frame s t (s.writtenBack rn f.address.writeback.isSome)

/-- A halfword store to the wait-control register reconfigures the controller (21_waitstate.md R93, R94, R105; that the store
reaches it where the map puts it is log 5). -/
def Obligations.WaitControlStore : Prop :=
  ∀ (s : State) (p u w : Bool) (rn rd : Reg) (half : HalfOffset), s.inside = [] → rd ≠ 15 → rn ≠ 15 →
      s.ws.Configured s.params →
    align2 (s.halfAddress p u w rn half).addr = s.params.waitControl →
      Completes (.strh p u w rn rd half) s fun t =>
        t.ws.wcnt = (s.reg rd).extractLsb' 0 16 ∧ t.ws.Configured s.params ∧ t.mem = s.mem ∧
        ((s.reg rd).getLsbD 14 ≠ s.ws.wcnt.getLsbD 14 → t.ws.buffer = 0 ∧ t.ws.clocks = 0)

/-- SWP and SWPB with a destination other than R15: the old word, rotated as LDR does, or the old byte goes to Rd, the source
register's word or byte to memory, not rotated, and nothing else changes (R350, R351, R352). That it reads back at every
address outside the I/O window is log 3, that the window keeps nothing log 4. -/
def Obligations.SwapsExchange : Prop :=
  ∀ (s : State) (rn rd rm : Reg), s.inside = [] → rd ≠ 15 → s.mem.wf →
    ∀ f ∈ [(Instr.swp rn rd rm, s.rotatedWord (s.reg rn), align4 (s.reg rn), 4),
        (Instr.swpb rn rd rm, s.peek8 (s.reg rn), s.reg rn, 1)],
      Completes f.1 s fun t => t.reg rd = f.2.1 ∧ Stored s t f.2.2.1 f.2.2.2 (s.reg rm) ∧ t.cpsr = s.cpsr ∧
        FallsThrough s t ∧ Frame s t (s.named rd)

/-- SWP and SWPB with destination R15 branch to the old word or byte, and store as before (R350, R351, R352; log 3, log 4). -/
def Obligations.SwapsToPcBranch : Prop :=
  ∀ (s : State) (rn rm : Reg), s.inside = [] → s.cpsr.t = false → s.mem.wf →
    ∀ f ∈ [(Instr.swp rn 15 rm, s.rotatedWord (s.reg rn), align4 (s.reg rn), 4),
        (Instr.swpb rn 15 rm, s.peek8 (s.reg rn), s.reg rn, 1)],
      Completes f.1 s fun t => BranchedTo t (f.2.1 &&& 0xFFFFFFFC#32) ∧ Stored s t f.2.2.1 f.2.2.2 (s.reg rm) ∧
        t.cpsr = s.cpsr ∧ Frame s t []

/-! ## Block transfers (45_block_transfer.md) -/

/-- The start address and the written-back value of the four modes, for a list of registers and, as if sixteen, for the empty
list (R290, R291, R296). -/
def Obligations.BlockAddresses : Prop :=
  ∀ (base : Word) (list : BitVec 16),
    let n := if population list = 0 then 16 else population list
    let size := BitVec.ofNat 32 (4 * n)
    transferCount list = n ∧
    blockStart false true base n = base ∧ blockStart true true base n = base + 4#32 ∧
    blockStart false false base n = base - size + 4#32 ∧ blockStart true false base n = base - size ∧
    blockFinal true base n = base + size ∧ blockFinal false base n = base - size

/-- STM, and STM with the S bit, which reads the user bank, of a list that is not empty: each listed register's word lies at
its place from the start address up, the lowest register lowest; the base is written back with the value of the table, at
once after the first word, so that a base that is not the first stores it; no other byte, register or flag changes (R290 to
R294, R297, R299, R302; R15 stored as the instruction's address plus `STORE_PC_OFF`). That the words read back at every
address outside the I/O window is log 3, that the window keeps nothing log 4. -/
def Obligations.StoreMultiple : Prop :=
  ∀ (s : State) (p u w : Bool) (rn : Reg) (list : BitVec 16), s.inside = [] → list ≠ 0 → ¬ (rn = 15 ∧ w = true) → s.mem.wf →
    let start := blockStart p u (s.reg rn) (population list)
    let final := blockFinal u (s.reg rn) (population list)
    ∀ f ∈ [(Instr.stm p u w rn list, s.cpsr.mode), (Instr.stmUser p u w rn list, Mode.user)],
      Completes f.1 s fun t =>
        (∀ i : Reg, list.getLsbD i.val = true → ∀ k, k < 4 → s.params.isIo (slot list start i + BitVec.ofNat 32 k) = false →
          t.mem.read (slot list start i + BitVec.ofNat 32 k).toNat =
            (s.blockValue f.2 w rn list final i).extractLsb' (8 * k) 8) ∧
        (∀ x : Word, (∀ i : Reg, list.getLsbD i.val = true → ¬ within (slot list start i) 4 x) →
          t.mem.read x.toNat = s.mem.read x.toNat) ∧
        ((∀ i : Reg, list.getLsbD i.val = true → ¬ within (slot list start i) 4 s.params.waitControl ∧
          ¬ within (slot list start i) 4 (s.params.waitControl + 1#32)) → t.ws.wcnt = s.ws.wcnt) ∧
        (w = true → t.reg rn = final) ∧ t.cpsr = s.cpsr ∧ FallsThrough s t ∧ Frame s t (s.writtenBack rn w)

/-- LDM, and LDM with the S bit, which writes the user bank, of a list without R15: each listed register gets the word at its
place (outside the I/O window), the base, if it is not loaded itself, the value of the table; nothing else changes (R290 to
R293, R295, R300). A base that is loaded keeps the loaded value, but where `LDM_BASE_FIRST` is `writeback` and it is the
lowest listed register it keeps the value written back (R298). -/
def Obligations.LoadMultiple : Prop :=
  ∀ (s : State) (p u w : Bool) (rn : Reg) (list : BitVec 16), s.inside = [] → list ≠ 0 → list.getLsbD 15 = false →
    ¬ (rn = 15 ∧ w = true) →
    let start := blockStart p u (s.reg rn) (population list)
    let final := blockFinal u (s.reg rn) (population list)
    ∀ f ∈ [(Instr.ldm p u w rn list, s.cpsr.mode), (Instr.ldmUser p u w rn list, Mode.user)],
      Completes f.1 s fun t =>
        (∀ i : Reg, list.getLsbD i.val = true → s.plainWord (slot list start i) →
          t.regIn f.2 i = s.loadedValue f.2 w rn list start final i) ∧
        (w = true → (∀ q ∈ s.named rn, q ∉ listedIn f.2 list) → t.reg rn = final) ∧ t.cpsr = s.cpsr ∧
        FallsThrough s t ∧ Frame s t (listedIn f.2 list ++ s.writtenBack rn w) ∧ NoStore s t

/-- LDM with R15 in its list loads the other registers as before, into the current mode's bank, and branches to the word loaded
for R15, masked (R295, R303); a loaded base as `LDM_BASE_FIRST` says (R298). -/
def Obligations.LoadMultipleToPc : Prop :=
  ∀ (s : State) (p u w : Bool) (rn : Reg) (list : BitVec 16), s.inside = [] → list.getLsbD 15 = true → ¬ (rn = 15 ∧
      w = true) →
    s.cpsr.t = false →
    let start := blockStart p u (s.reg rn) (population list)
    let final := blockFinal u (s.reg rn) (population list)
    s.plainWord (slot list start 15) →
      Completes (.ldm p u w rn list) s fun t =>
        BranchedTo t (s.peek32 (slot list start 15) &&& 0xFFFFFFFC#32) ∧
        (∀ i : Reg, i ≠ 15 → list.getLsbD i.val = true → s.plainWord (slot list start i) →
          t.reg i = s.loadedValue s.cpsr.mode w rn list start final i) ∧
        (w = true → list.getLsbD rn.val = false → t.reg rn = final) ∧ t.cpsr = s.cpsr ∧
        Frame s t (listedIn s.cpsr.mode list ++ s.writtenBack rn w) ∧ NoStore s t

/-- LDM with the S bit and R15 in its list, the exception return: the registers are loaded into the bank of the mode it runs
in, then CPSR is restored from that mode's SPSR and the branch is masked by the restored T; without an SPSR it is the plain
branch, and an illegal mode number is refused (R301, R303; 40 R160, 93 U6); a loaded base as `LDM_BASE_FIRST` says (R298). -/
def Obligations.LoadMultipleReturns : Prop :=
  ∀ (s : State) (p u w : Bool) (rn : Reg) (list : BitVec 16), s.inside = [] → list.getLsbD 15 = true → ¬ (rn = 15 ∧
      w = true) →
    let start := blockStart p u (s.reg rn) (population list)
    let final := blockFinal u (s.reg rn) (population list)
    s.plainWord (slot list start 15) →
    let Loaded (t : State) : Prop :=
      (∀ i : Reg, i ≠ 15 → list.getLsbD i.val = true → s.plainWord (slot list start i) →
        t.regIn s.cpsr.mode i = s.loadedValue s.cpsr.mode w rn list start final i) ∧
      (w = true → list.getLsbD rn.val = false → t.regIn s.cpsr.mode rn = final) ∧
      Frame s t (listedIn s.cpsr.mode list ++ s.writtenBack rn w) ∧ NoStore s t
    match s.cpsr.mode.banked with
    | some b =>
      match Mode.ofCode (s.spsrOf b).m with
      | some m =>
        Completes (.ldmUser p u w rn list) s fun t => t.cpsr.save = s.spsrOf b ∧ t.cpsr.mode = m ∧
          BranchedTo t (s.peek32 (slot list start 15) &&& branchMask (s.spsrOf b).t) ∧ Loaded t
      | none => exec (.ldmUser p u w rn list) s = .refused (.illegalMode (s.spsrOf b).m)
    | none =>
      Completes (.ldmUser p u w rn list) s fun t => t.cpsr = s.cpsr ∧
        BranchedTo t (s.peek32 (slot list start 15) &&& branchMask s.cpsr.t) ∧ Loaded t

/-- The empty list transfers R15 alone and moves the base by 0x40 (R296): a store puts the instruction's address plus
`STORE_PC_OFF` at the start address (that it reads back there is log 3, in the I/O window log 4), a load branches to the word
there. -/
def Obligations.EmptyListMovesPcAlone : Prop :=
  ∀ (s : State) (p u w : Bool) (rn : Reg), s.inside = [] → ¬ (rn = 15 ∧ w = true) → s.mem.wf → s.cpsr.t = false →
    let start := align4 (if u then (if p then s.reg rn + 4#32 else s.reg rn)
      else (if p then s.reg rn - 0x40#32 else s.reg rn - 0x3C#32))
    let final := if u then s.reg rn + 0x40#32 else s.reg rn - 0x40#32
    (∀ i ∈ [Instr.stm p u w rn 0, Instr.stmUser p u w rn 0],
      Completes i s fun t => Stored s t start 4 s.storedPc ∧ (w = true → t.reg rn = final) ∧ t.cpsr = s.cpsr ∧
        FallsThrough s t ∧ Frame s t (s.writtenBack rn w)) ∧
    Completes (.ldm p u w rn 0) s fun t => BranchedTo t (s.peek32 start &&& 0xFFFFFFFC#32) ∧
      (w = true → t.reg rn = final) ∧ t.cpsr = s.cpsr ∧ Frame s t (s.writtenBack rn w) ∧ NoStore s t

/-- LDM with the S bit and the empty list is the exception return to the word at the start address (R296, R301): CPSR is
restored from the SPSR of the mode; without an SPSR it is the plain branch, and an illegal mode number in the SPSR is refused
(40 R160, 93 U6, log 10). -/
def Obligations.EmptyListReturns : Prop :=
  ∀ (s : State) (p u w : Bool) (rn : Reg), s.inside = [] → ¬ (rn = 15 ∧ w = true) →
    let start := align4 (if u then (if p then s.reg rn + 4#32 else s.reg rn)
      else (if p then s.reg rn - 0x40#32 else s.reg rn - 0x3C#32))
    let final := if u then s.reg rn + 0x40#32 else s.reg rn - 0x40#32
    let Rest (t : State) : Prop :=
      (w = true → t.regIn s.cpsr.mode rn = final) ∧ Frame s t (s.writtenBack rn w) ∧ NoStore s t
    match s.cpsr.mode.banked with
    | some b =>
      match Mode.ofCode (s.spsrOf b).m with
      | some m =>
        Completes (.ldmUser p u w rn 0) s fun t => t.cpsr.save = s.spsrOf b ∧ t.cpsr.mode = m ∧
          BranchedTo t (s.peek32 start &&& branchMask (s.spsrOf b).t) ∧ Rest t
      | none => exec (.ldmUser p u w rn 0) s = .refused (.illegalMode (s.spsrOf b).m)
    | none =>
      Completes (.ldmUser p u w rn 0) s fun t => t.cpsr = s.cpsr ∧
        BranchedTo t (s.peek32 start &&& branchMask s.cpsr.t) ∧ Rest t

/-- A transfer that writes back to a base that is R15 is refused, whole (44 R271 (a), 45 R305, 93 U11). -/
def Obligations.WritebackToPcRefused : Prop :=
  ∀ (i : Instr) (s : State), i.writesBackToPc = true → exec i s = .refused .writebackToR15

/-! ## Branches (46_branch.md) -/

/-- B and BL branch to the instruction's address + 8 plus four times the signed displacement; BL also leaves the address of the
next instruction in R14 of the current mode; nothing else changes (R320, R321). -/
def Obligations.BranchesReachTheirTarget : Prop :=
  ∀ (s : State) (imm24 : BitVec 24), s.cpsr.t = false → s.r15 &&& 3#32 = 0#32 →
    let target := s.r15 + BitVec.ofInt 32 (4 * imm24.toInt)
    (Completes (.b imm24) s fun t => BranchedTo t target ∧ t.cpsr = s.cpsr ∧ Frame s t [] ∧ NoStore s t) ∧
    Completes (.bl imm24) s fun t => BranchedTo t target ∧ t.reg 14 = s.r15 - 4#32 ∧ t.cpsr = s.cpsr ∧
      Frame s t (s.named 14) ∧ NoStore s t

/-- BX sets T from the low bit of the register and branches to its value with the mask of the instruction set entered (R322). -/
def Obligations.BranchAndExchange : Prop :=
  ∀ (s : State) (rm : Reg),
    Completes (.bx rm) s fun t => t.cpsr = { s.cpsr with t := (s.reg rm).getLsbD 0 } ∧
      BranchedTo t (if (s.reg rm).getLsbD 0 then s.reg rm &&& 0xFFFFFFFE#32 else s.reg rm &&& 0xFFFFFFFC#32) ∧
      Frame s t [] ∧ NoStore s t

/-! ## Status register transfers (47_status_transfer.md) -/

/-- MRS gives the status word, bit by bit, to a register other than R15; from SPSR in User and System mode it gives CPSR (R331,
R332; 10_state.md R26, R32). -/
def Obligations.StatusRead : Prop :=
  ∀ (s : State) (rd : Reg), rd ≠ 15 →
    let Reads (i : Instr) (p : Spsr) : Prop :=
      Completes i s fun t =>
        ((t.reg rd).getLsbD 31 = p.n ∧ (t.reg rd).getLsbD 30 = p.z ∧ (t.reg rd).getLsbD 29 = p.c ∧
          (t.reg rd).getLsbD 28 = p.v ∧ (t.reg rd).extractLsb' 8 20 = 0#20 ∧ (t.reg rd).getLsbD 7 = p.i ∧
          (t.reg rd).getLsbD 6 = p.f ∧ (t.reg rd).getLsbD 5 = p.t ∧ (t.reg rd).extractLsb' 0 5 = p.m) ∧
        t.cpsr = s.cpsr ∧ FallsThrough s t ∧ Frame s t (s.named rd) ∧ NoStore s t
    Reads (.mrsCpsr rd) s.cpsr.save ∧
    Reads (.mrsSpsr rd) (match s.cpsr.mode.banked with | some b => s.spsrOf b | none => s.cpsr.save)

/-- MRS to R15 branches to the status word, masked (R331, R332). -/
def Obligations.StatusReadToPc : Prop :=
  ∀ s : State, s.cpsr.t = false →
    let Branches (i : Instr) (w : Word) : Prop :=
      Completes i s fun t => BranchedTo t (w &&& 0xFFFFFFFC#32) ∧ t.cpsr = s.cpsr ∧ Frame s t [] ∧ NoStore s t
    Branches (.mrsCpsr 15) s.cpsr.toWord ∧
    Branches (.mrsSpsr 15) (match s.cpsr.mode.banked with | some b => (s.spsrOf b).toWord | none => s.cpsr.toWord)

/-- MSR to CPSR of either form completes when it installs no mode number or a legal one: bit 3 of the mask writes the flags in
every mode, bit 0 the control field outside User mode, never T; no register, saved status word or byte changes (R330, R333,
R334, R336). -/
def Obligations.StatusWrite : Prop :=
  ∀ (s : State) (mask rot : BitVec 4) (rm : Reg) (imm8 : Byte),
    ∀ f ∈ [(Instr.msrCpsrReg mask rm, s.reg rm),
        (Instr.msrCpsrImm mask rot imm8, (imm8.setWidth 32).rotateRight (2 * rot.toNat))],
      let control := mask.getLsbD 0 = true ∧ s.cpsr.mode ≠ .user
      (control → legalMode (f.2.extractLsb' 0 5) = true) →
      Completes f.1 s fun t =>
        (if mask.getLsbD 3 then t.cpsr.n = f.2.getLsbD 31 ∧ t.cpsr.z = f.2.getLsbD 30 ∧ t.cpsr.c = f.2.getLsbD 29 ∧
            t.cpsr.v = f.2.getLsbD 28
          else t.cpsr.n = s.cpsr.n ∧ t.cpsr.z = s.cpsr.z ∧ t.cpsr.c = s.cpsr.c ∧ t.cpsr.v = s.cpsr.v) ∧
        (control → t.cpsr.i = f.2.getLsbD 7 ∧ t.cpsr.f = f.2.getLsbD 6 ∧ t.cpsr.mode.code = f.2.extractLsb' 0 5) ∧
        (¬ control → t.cpsr.i = s.cpsr.i ∧ t.cpsr.f = s.cpsr.f ∧ t.cpsr.mode = s.cpsr.mode) ∧ t.cpsr.t = s.cpsr.t ∧
        FallsThrough s t ∧ Frame s t [] ∧ NoStore s t

/-- An instruction that would install an illegal mode number in CPSR is refused: MSR to the control field outside User mode and
every CPSR restore (R334; 40 R160, 93 U6). -/
def Obligations.IllegalModeRefused : Prop :=
  ∀ (i : Instr) (s : State) (m : BitVec 5), s.inside = [] → i.writesBackToPc = false → i.installs s = some m →
      legalMode m = false →
    exec i s = .refused (.illegalMode m)

/-- MSR to SPSR of either form: in a mode with an SPSR the selected fields of it are written, T and any mode number included;
in User and System mode nothing is, and CPSR never (R335, R336; 90_conflicts.md C2). -/
def Obligations.SavedStatusWrite : Prop :=
  ∀ (s : State) (mask rot : BitVec 4) (rm : Reg) (imm8 : Byte),
    ∀ f ∈ [(Instr.msrSpsrReg mask rm, s.reg rm),
        (Instr.msrSpsrImm mask rot imm8, (imm8.setWidth 32).rotateRight (2 * rot.toNat))],
      Completes f.1 s fun t =>
        (match s.cpsr.mode.banked with
          | some b =>
            (t.spsrOf b).toWord =
              ((s.spsrOf b).toWord &&& ~~~((if mask.getLsbD 3 then 0xF0000000#32 else 0#32) |||
                (if mask.getLsbD 0 then 0x000000FF#32 else 0#32))) |||
              (f.2 &&& ((if mask.getLsbD 3 then 0xF0000000#32 else 0#32) |||
                (if mask.getLsbD 0 then 0x000000FF#32 else 0#32))) ∧ Frame s t [] [b]
          | none => Frame s t []) ∧
        t.cpsr = s.cpsr ∧ FallsThrough s t ∧ NoStore s t

/-- The round trip (R337): after MSR CPSR_fc, Rm then MRS Rd, CPSR the register holds Rm & 0xF00000DF in a privileged mode, a
legal mode number installed, and the flags of Rm with the old control byte in User mode; for SPSR, Rm & 0xF00000FF. -/
def Obligations.StatusRoundTrip : Prop :=
  ∀ (s : State) (rm rd : Reg), rd ≠ 15 → s.cpsr.t = false →
    let v := s.reg rm
    (s.cpsr.mode ≠ .user → legalMode (v.extractLsb' 0 5) = true →
      Completes (.msrCpsrReg 9 rm) s fun t => Completes (.mrsCpsr rd) t fun u => u.reg rd = v &&& 0xF00000DF#32) ∧
    (s.cpsr.mode = .user →
      Completes (.msrCpsrReg 9 rm) s fun t => Completes (.mrsCpsr rd) t fun u =>
        u.reg rd = (v &&& 0xF0000000#32) ||| (s.cpsr.toWord &&& 0x000000FF#32)) ∧
    (s.cpsr.mode.banked.isSome = true →
      Completes (.msrSpsrReg 9 rm) s fun t => Completes (.mrsSpsr rd) t fun u => u.reg rd = v &&& 0xF00000FF#32)

/-! ## Exceptions and privilege (49_swi_undefined.md, 60_exceptions.md) -/

/-- SWI saves CPSR in SPSR_svc and the next instruction's address in R14_svc, enters Supervisor mode with I = 1 and branches to
0x08; F, the flags, every other register and memory stay (R360). -/
def Obligations.SoftwareInterrupt : Prop :=
  ∀ (s : State) (comment : BitVec 24),
    Completes (.swi comment) s fun t => t.cpsr = { s.cpsr with mode := .supervisor, i := true, t := false } ∧
      t.spsrSvc = s.cpsr.save ∧ t.phys .r14_svc = s.r15 - 4#32 ∧ BranchedTo t 0x00000008#32 ∧
      Frame s t [.r14_svc] [.supervisor] ∧ NoStore s t

/-- An undefined instruction does the same with SPSR_und, R14_und, Undefined mode and 0x04 (R361). -/
def Obligations.UndefinedTrap : Prop :=
  ∀ (s : State) (rest : BitVec 28),
    Completes (.undefined rest) s fun t => t.cpsr = { s.cpsr with mode := .undefined, i := true, t := false } ∧
      t.spsrUnd = s.cpsr.save ∧ t.phys .r14_und = s.r15 - 4#32 ∧ BranchedTo t 0x00000004#32 ∧
      Frame s t [.r14_und] [.undefined] ∧ NoStore s t

/-- MOVS R15, R14 right after an SWI or an undefined instruction returns to the instruction after it, with CPSR as it was
(60 R375, R376). -/
def Obligations.ReturnAfterTrap : Prop :=
  ∀ (s : State) (comment : BitVec 24) (rest : BitVec 28), s.cpsr.t = false → s.r15 &&& 3#32 = 0#32 →
    ∀ i ∈ [Instr.swi comment, Instr.undefined rest],
      Completes i s fun t => Completes (.mov true 15 (.shiftImm .lsl 0 14)) t fun u =>
        u.cpsr = s.cpsr ∧ BranchedTo u (s.r15 - 4#32)

/-- An instruction completes unless it writes back to R15 or installs an illegal mode number: nothing else stops one (40 R166,
49 R363, 60 R371). -/
def Obligations.EveryInstructionCompletes : Prop :=
  ∀ (i : Instr) (s : State), s.inside = [] → i.writesBackToPc = false → (∀ m, i.installs s = some m → legalMode m = true) →
    ∃ t, exec i s = .next t

/-- From User mode a step of the core stays in User mode with I and F as they were and no saved status word and no register of
another mode's bank changed, or it enters Supervisor, Undefined or IRQ mode by an exception: CPSR saved, I set, F kept,
    the pc
at that exception's vector (60 R384, R385). -/
def Obligations.UserModeIsConfined : Prop :=
  ∀ s t : State, s.agenda = [] → s.cpsr.mode = .user → step s = .next t →
    (t.cpsr.mode = .user ∧ t.cpsr.i = s.cpsr.i ∧ t.cpsr.f = s.cpsr.f ∧ (∀ b, t.spsrOf b = s.spsrOf b) ∧
      ∀ p, (∀ n, physical .user n ≠ some p) → t.phys p = s.phys p) ∨
    ∃ e ∈ [(Banked.supervisor, 0x00000008#32), (.undefined, 0x00000004#32), (.irq, 0x00000018#32)],
      t.cpsr.mode = e.1.mode ∧ t.cpsr.i = true ∧ t.cpsr.f = s.cpsr.f ∧ t.spsrOf e.1 = s.cpsr.save ∧ BranchedTo t e.2

/-! ## The whole machine -/

/-- Every step, whatever the platform does before it and inside it, keeps the invariant (10_state.md R25, 21_waitstate.md R93
to R95; memory's form is log 2) and the parameters (log 29). -/
def Obligations.StepKeepsInvariant : Prop :=
  ∀ s t : State, Inv s → step s = .next t → Inv t ∧ t.params = s.params

/-- The reset state has the invariant. -/
def Obligations.ResetHasInvariant : Prop := Inv State.reset

/-- Timing is no input of the machine: two states that differ in the wait-state controller alone, its control value apart,
which a device read shows, step alike, or are refused alike,
    and differ in the controller alone again (21_waitstate.md R112). -/
def Obligations.TimingChangesNoValue : Prop :=
  ∀ (s : State) (ws : WaitState), ws.wcnt = s.ws.wcnt →
    match step s, step { s with ws := ws } with
    | .next t, .next u => u = { t with ws := u.ws } ∧ u.ws.wcnt = t.ws.wcnt
    | .refused r, .refused q => q = r
    | _, _ => False
end

