-- ==== Sys2Proof/Laws/Memory.lean ====
section
/-! SUPPORT. Reading memory after a write, and the canonical form (20_memory.md R60, log 2). -/

namespace Sys2Proof.Machine

theorem Memory.read_nil (a : Nat) : Memory.read [] a = Memory.blank := rfl

theorem Memory.read_cons (c : Host.Cell) (m : Memory) (a : Nat) :
    Memory.read (c :: m) a = if c.1 = a then c.2 else Memory.read m a := rfl

/-- An address below every listed one reads as blank. -/
theorem Memory.read_of_below {m : Memory} {a : Nat} (h : ∀ c ∈ m, a < c.1) : Memory.read m a = Memory.blank := by
  induction m with
  | nil => rfl
  | cons c m ih =>
    have hc := h c (by simp)
    rw [Memory.read_cons, if_neg (by omega), ih fun d hd => h d (by simp [hd])]

theorem Memory.wf_cons {c : Host.Cell} {m : Memory} :
    Memory.wf (c :: m) ↔ (∀ d ∈ m, c.1 < d.1) ∧ (c.1 < 2 ^ 32 ∧ c.2 ≠ Memory.blank) ∧ Memory.wf m := by
  simp only [Memory.wf, List.pairwise_cons, List.forall_mem_cons]; tauto

/-- A read after a write: the written byte at its address, every other byte as before. -/
theorem Memory.read_write {m : Memory} (hm : m.wf) (a b : Nat) (v : Byte) :
    Memory.read (Memory.write m a v) b = if b = a then v else Memory.read m b := by
  induction m with
  | nil => simp only [Memory.write]; split <;> simp_all [Memory.read, eq_comm]
  | cons c m ih =>
    obtain ⟨k, w⟩ := c
    obtain ⟨hlow, -, hwf⟩ := Memory.wf_cons.mp hm
    simp only [Memory.write]
    split
    · next hlt =>
      split
      · next hb =>
        split
        · next e =>
          subst e hb
          exact Memory.read_of_below (List.forall_mem_cons.mpr ⟨hlt, fun d hd => lt_trans hlt (hlow d hd)⟩)
        · rfl
      · rw [Memory.read_cons]; simp [eq_comm]
    · split
      · next h1 h2 =>
        subst h2
        split
        · next hb =>
          split
          · next e => subst e hb; exact Memory.read_of_below hlow
          · next e => rw [Memory.read_cons, if_neg (Ne.symm e)]
        · next hb =>
          simp only [Memory.read_cons]
          by_cases e : a = b <;> simp [e, eq_comm]
      · next h1 h2 =>
        simp only [Memory.read_cons, ih hwf]
        by_cases e : k = b
        · subst e; simp [Ne.symm h2]
        · simp [e]

theorem Memory.mem_write {m : Memory} {a : Nat} {v : Byte} {c : Host.Cell} (h : c ∈ Memory.write m a v) :
    c = (a, v) ∧ v ≠ Memory.blank ∨ c ∈ m := by
  induction m with
  | nil => simp only [Memory.write] at h; split at h <;> simp_all
  | cons d m ih =>
    simp only [Memory.write] at h
    split at h
    · split at h <;> simp_all
    · split at h
      · split at h <;> simp_all; tauto
      · rcases List.mem_cons.mp h with h | h
        · simp [h]
        · rcases ih h with h | h <;> simp [h]

/-- A write inside the address space keeps the canonical form. -/
theorem Memory.wf_write {m : Memory} (hm : m.wf) {a : Nat} (ha : a < 2 ^ 32) (v : Byte) : (Memory.write m a v).wf := by
  induction m with
  | nil => simp only [Memory.write]; split <;> simp_all [Memory.wf]
  | cons c m ih =>
    obtain ⟨k, w⟩ := c
    obtain ⟨hlow, hc, hwf⟩ := Memory.wf_cons.mp hm
    simp only [Memory.write]
    split
    · next hlt =>
      split
      · exact hm
      · next hb =>
        refine Memory.wf_cons.mpr ⟨List.forall_mem_cons.mpr ⟨hlt, fun d hd => lt_trans hlt (hlow d hd)⟩, ⟨ha, hb⟩, hm⟩
    · split
      · next h1 h2 =>
        subst h2
        split
        · exact hwf
        · next hb => exact Memory.wf_cons.mpr ⟨hlow, ⟨ha, hb⟩, hwf⟩
      · next h1 h2 =>
        refine Memory.wf_cons.mpr ⟨fun d hd => ?_, hc, ih hwf⟩
        rcases Memory.mem_write hd with ⟨rfl, -⟩ | hd
        · simp at *; omega
        · exact hlow d hd

theorem Memory.wf_nil : Memory.wf [] := by simp [Memory.wf]

/-- Equal canonical memories: two of them that read alike are the same list. -/
theorem Memory.ext {m n : Memory} (hm : m.wf) (hn : n.wf) (h : ∀ a, m.read a = n.read a) : m = n := by
  induction m generalizing n with
  | nil =>
    cases n with
    | nil => rfl
    | cons d n =>
      have := h d.1
      rw [Memory.read_cons, if_pos rfl] at this
      exact absurd this.symm (Memory.wf_cons.mp hn).2.1.2
  | cons c m ih =>
    obtain ⟨hlow, hc, hwf⟩ := Memory.wf_cons.mp hm
    cases n with
    | nil =>
      have := h c.1
      rw [Memory.read_cons, if_pos rfl] at this
      exact absurd this hc.2
    | cons d n =>
      obtain ⟨hlow', hd, hwf'⟩ := Memory.wf_cons.mp hn
      have hkey : c.1 = d.1 := by
        rcases Nat.lt_trichotomy c.1 d.1 with hlt | he | hlt
        · have := h c.1
          rw [Memory.read_cons, if_pos rfl, Memory.read_cons, if_neg (by omega),
            Memory.read_of_below fun e he => lt_trans hlt (hlow' e he)] at this
          exact absurd this hc.2
        · exact he
        · have := h d.1
          rw [Memory.read_cons (a := d.1), if_neg (by omega), Memory.read_cons, if_pos rfl,
            Memory.read_of_below fun e he => lt_trans hlt (hlow e he)] at this
          exact absurd this.symm hd.2
      have hval : c.2 = d.2 := by simpa [Memory.read_cons, hkey] using h c.1
      have hrest : m = n := by
        refine ih hwf hwf' fun a => ?_
        by_cases ha : a = c.1
        · subst ha
          rw [Memory.read_of_below hlow, Memory.read_of_below fun e he => hkey ▸ hlow' e he]
        · simpa [Memory.read_cons, Ne.symm ha, hkey ▸ Ne.symm ha] using h a
      rw [Prod.ext hkey hval, hrest]

end Sys2Proof.Machine
end

