-- ==== Sys2Proof/Laws/State.lean ====
section
/-! SUPPORT. One lemma for each field under each update of the state, so that no later proof unfolds a record update. -/

namespace Sys2Proof.Machine

variable (s : State)

/-! ## The calls and the controller -/

@[simp] theorem State.note_regs (c : BusCall) : (s.note c).regs = s.regs := rfl
@[simp] theorem State.note_r15 (c : BusCall) : (s.note c).r15 = s.r15 := rfl
@[simp] theorem State.note_cpsr (c : BusCall) : (s.note c).cpsr = s.cpsr := rfl
@[simp] theorem State.note_spsrFiq (c : BusCall) : (s.note c).spsrFiq = s.spsrFiq := rfl
@[simp] theorem State.note_spsrIrq (c : BusCall) : (s.note c).spsrIrq = s.spsrIrq := rfl
@[simp] theorem State.note_spsrSvc (c : BusCall) : (s.note c).spsrSvc = s.spsrSvc := rfl
@[simp] theorem State.note_spsrAbt (c : BusCall) : (s.note c).spsrAbt = s.spsrAbt := rfl
@[simp] theorem State.note_spsrUnd (c : BusCall) : (s.note c).spsrUnd = s.spsrUnd := rfl
@[simp] theorem State.note_fetch (c : BusCall) : (s.note c).fetch = s.fetch := rfl
@[simp] theorem State.note_decode (c : BusCall) : (s.note c).decode = s.decode := rfl
@[simp] theorem State.note_execute (c : BusCall) : (s.note c).execute = s.execute := rfl
@[simp] theorem State.note_refill (c : BusCall) : (s.note c).refill = s.refill := rfl
@[simp] theorem State.note_irqLine (c : BusCall) : (s.note c).irqLine = s.irqLine := rfl
@[simp] theorem State.note_halted (c : BusCall) : (s.note c).halted = s.halted := rfl
@[simp] theorem State.note_mem (c : BusCall) : (s.note c).mem = s.mem := rfl
@[simp] theorem State.note_ws (c : BusCall) : (s.note c).ws = s.ws := rfl
@[simp] theorem State.note_calls (c : BusCall) : (s.note c).calls = s.calls ++ [c] := rfl
@[simp] theorem State.note_agenda (c : BusCall) : (s.note c).agenda = s.agenda := rfl
@[simp] theorem State.note_params (c : BusCall) : (s.note c).params = s.params := rfl
@[simp] theorem State.note_inside (c : BusCall) : (s.note c).inside = s.inside := rfl
@[simp] theorem State.note_stop (c : BusCall) : (s.note c).stop = s.stop := rfl
@[simp] theorem State.note_draws (c : BusCall) : (s.note c).draws = s.draws := rfl

@[simp] theorem State.clock_regs (f : WaitState → WaitState) : (s.clock f).regs = s.regs := rfl
@[simp] theorem State.clock_r15 (f : WaitState → WaitState) : (s.clock f).r15 = s.r15 := rfl
@[simp] theorem State.clock_cpsr (f : WaitState → WaitState) : (s.clock f).cpsr = s.cpsr := rfl
@[simp] theorem State.clock_spsrFiq (f : WaitState → WaitState) : (s.clock f).spsrFiq = s.spsrFiq := rfl
@[simp] theorem State.clock_spsrIrq (f : WaitState → WaitState) : (s.clock f).spsrIrq = s.spsrIrq := rfl
@[simp] theorem State.clock_spsrSvc (f : WaitState → WaitState) : (s.clock f).spsrSvc = s.spsrSvc := rfl
@[simp] theorem State.clock_spsrAbt (f : WaitState → WaitState) : (s.clock f).spsrAbt = s.spsrAbt := rfl
@[simp] theorem State.clock_spsrUnd (f : WaitState → WaitState) : (s.clock f).spsrUnd = s.spsrUnd := rfl
@[simp] theorem State.clock_fetch (f : WaitState → WaitState) : (s.clock f).fetch = s.fetch := rfl
@[simp] theorem State.clock_decode (f : WaitState → WaitState) : (s.clock f).decode = s.decode := rfl
@[simp] theorem State.clock_execute (f : WaitState → WaitState) : (s.clock f).execute = s.execute := rfl
@[simp] theorem State.clock_refill (f : WaitState → WaitState) : (s.clock f).refill = s.refill := rfl
@[simp] theorem State.clock_irqLine (f : WaitState → WaitState) : (s.clock f).irqLine = s.irqLine := rfl
@[simp] theorem State.clock_halted (f : WaitState → WaitState) : (s.clock f).halted = s.halted := rfl
@[simp] theorem State.clock_mem (f : WaitState → WaitState) : (s.clock f).mem = s.mem := rfl
@[simp] theorem State.clock_ws (f : WaitState → WaitState) : (s.clock f).ws = f s.ws := rfl
@[simp] theorem State.clock_calls (f : WaitState → WaitState) : (s.clock f).calls = s.calls := rfl
@[simp] theorem State.clock_agenda (f : WaitState → WaitState) : (s.clock f).agenda = s.agenda := rfl
@[simp] theorem State.clock_params (f : WaitState → WaitState) : (s.clock f).params = s.params := rfl
@[simp] theorem State.clock_inside (f : WaitState → WaitState) : (s.clock f).inside = s.inside := rfl
@[simp] theorem State.clock_stop (f : WaitState → WaitState) : (s.clock f).stop = s.stop := rfl
@[simp] theorem State.clock_draws (f : WaitState → WaitState) : (s.clock f).draws = s.draws := rfl

@[simp] theorem State.answered_regs (a : Word) (n : Nat) : (s.answered a n).regs = s.regs := by
  unfold State.answered; split <;> simp [*]
@[simp] theorem State.answered_r15 (a : Word) (n : Nat) : (s.answered a n).r15 = s.r15 := by
  unfold State.answered; split <;> simp [*]
@[simp] theorem State.answered_cpsr (a : Word) (n : Nat) : (s.answered a n).cpsr = s.cpsr := by
  unfold State.answered; split <;> simp [*]
@[simp] theorem State.answered_spsrFiq (a : Word) (n : Nat) : (s.answered a n).spsrFiq = s.spsrFiq := by
  unfold State.answered; split <;> simp [*]
@[simp] theorem State.answered_spsrIrq (a : Word) (n : Nat) : (s.answered a n).spsrIrq = s.spsrIrq := by
  unfold State.answered; split <;> simp [*]
@[simp] theorem State.answered_spsrSvc (a : Word) (n : Nat) : (s.answered a n).spsrSvc = s.spsrSvc := by
  unfold State.answered; split <;> simp [*]
@[simp] theorem State.answered_spsrAbt (a : Word) (n : Nat) : (s.answered a n).spsrAbt = s.spsrAbt := by
  unfold State.answered; split <;> simp [*]
@[simp] theorem State.answered_spsrUnd (a : Word) (n : Nat) : (s.answered a n).spsrUnd = s.spsrUnd := by
  unfold State.answered; split <;> simp [*]
@[simp] theorem State.answered_fetch (a : Word) (n : Nat) : (s.answered a n).fetch = s.fetch := by
  unfold State.answered; split <;> simp [*]
@[simp] theorem State.answered_decode (a : Word) (n : Nat) : (s.answered a n).decode = s.decode := by
  unfold State.answered; split <;> simp [*]
@[simp] theorem State.answered_execute (a : Word) (n : Nat) : (s.answered a n).execute = s.execute := by
  unfold State.answered; split <;> simp [*]
@[simp] theorem State.answered_refill (a : Word) (n : Nat) : (s.answered a n).refill = s.refill := by
  unfold State.answered; split <;> simp [*]
@[simp] theorem State.answered_irqLine (a : Word) (n : Nat) : (s.answered a n).irqLine = s.irqLine := by
  unfold State.answered; split <;> simp [*]
@[simp] theorem State.answered_halted (a : Word) (n : Nat) : (s.answered a n).halted = s.halted := by
  unfold State.answered; split <;> simp [*]
@[simp] theorem State.answered_mem (a : Word) (n : Nat) : (s.answered a n).mem = s.mem := by
  unfold State.answered; split <;> simp [*]
@[simp] theorem State.answered_ws (a : Word) (n : Nat) : (s.answered a n).ws = s.ws := by
  unfold State.answered; split <;> simp [*]
@[simp] theorem State.answered_calls (a : Word) (n : Nat) : (s.answered a n).calls = s.calls := by
  unfold State.answered; split <;> simp [*]
@[simp] theorem State.answered_agenda (a : Word) (n : Nat) : (s.answered a n).agenda = s.agenda := by
  unfold State.answered; split <;> simp [*]
@[simp] theorem State.answered_params (a : Word) (n : Nat) : (s.answered a n).params = s.params := by
  unfold State.answered; split <;> simp [*]
@[simp] theorem State.answered_inside (a : Word) (n : Nat) : (s.answered a n).inside = s.inside := by
  unfold State.answered; split <;> simp [*]
@[simp] theorem State.answered_stop (a : Word) (n : Nat) : (s.answered a n).stop = s.stop := by
  unfold State.answered; split <;> simp [*]
@[simp] theorem State.answered_draws (a : Word) (n : Nat) :
    (s.answered a n).draws = if s.params.touchesIo a n then s.draws + 1 else s.draws := by
  unfold State.answered; split <;> simp [*]

/-! ## Registers, status words, R15 -/

@[simp] theorem State.setPhys_regs (p : PhysReg) (v : Word) : (s.setPhys p v).regs = s.regs.set p.index v := rfl
@[simp] theorem State.setPhys_r15 (p : PhysReg) (v : Word) : (s.setPhys p v).r15 = s.r15 := rfl
@[simp] theorem State.setPhys_cpsr (p : PhysReg) (v : Word) : (s.setPhys p v).cpsr = s.cpsr := rfl
@[simp] theorem State.setPhys_spsrFiq (p : PhysReg) (v : Word) : (s.setPhys p v).spsrFiq = s.spsrFiq := rfl
@[simp] theorem State.setPhys_spsrIrq (p : PhysReg) (v : Word) : (s.setPhys p v).spsrIrq = s.spsrIrq := rfl
@[simp] theorem State.setPhys_spsrSvc (p : PhysReg) (v : Word) : (s.setPhys p v).spsrSvc = s.spsrSvc := rfl
@[simp] theorem State.setPhys_spsrAbt (p : PhysReg) (v : Word) : (s.setPhys p v).spsrAbt = s.spsrAbt := rfl
@[simp] theorem State.setPhys_spsrUnd (p : PhysReg) (v : Word) : (s.setPhys p v).spsrUnd = s.spsrUnd := rfl
@[simp] theorem State.setPhys_fetch (p : PhysReg) (v : Word) : (s.setPhys p v).fetch = s.fetch := rfl
@[simp] theorem State.setPhys_decode (p : PhysReg) (v : Word) : (s.setPhys p v).decode = s.decode := rfl
@[simp] theorem State.setPhys_execute (p : PhysReg) (v : Word) : (s.setPhys p v).execute = s.execute := rfl
@[simp] theorem State.setPhys_refill (p : PhysReg) (v : Word) : (s.setPhys p v).refill = s.refill := rfl
@[simp] theorem State.setPhys_irqLine (p : PhysReg) (v : Word) : (s.setPhys p v).irqLine = s.irqLine := rfl
@[simp] theorem State.setPhys_halted (p : PhysReg) (v : Word) : (s.setPhys p v).halted = s.halted := rfl
@[simp] theorem State.setPhys_mem (p : PhysReg) (v : Word) : (s.setPhys p v).mem = s.mem := rfl
@[simp] theorem State.setPhys_ws (p : PhysReg) (v : Word) : (s.setPhys p v).ws = s.ws := rfl
@[simp] theorem State.setPhys_calls (p : PhysReg) (v : Word) : (s.setPhys p v).calls = s.calls := rfl
@[simp] theorem State.setPhys_agenda (p : PhysReg) (v : Word) : (s.setPhys p v).agenda = s.agenda := rfl
@[simp] theorem State.setPhys_params (p : PhysReg) (v : Word) : (s.setPhys p v).params = s.params := rfl
@[simp] theorem State.setPhys_inside (p : PhysReg) (v : Word) : (s.setPhys p v).inside = s.inside := rfl
@[simp] theorem State.setPhys_stop (p : PhysReg) (v : Word) : (s.setPhys p v).stop = s.stop := rfl
@[simp] theorem State.setPhys_draws (p : PhysReg) (v : Word) : (s.setPhys p v).draws = s.draws := rfl

@[simp] theorem State.setCpsr_regs (p : Cpsr) : (s.setCpsr p).regs = s.regs := rfl
@[simp] theorem State.setCpsr_r15 (p : Cpsr) : (s.setCpsr p).r15 = s.r15 := rfl
@[simp] theorem State.setCpsr_cpsr (p : Cpsr) : (s.setCpsr p).cpsr = p := rfl
@[simp] theorem State.setCpsr_spsrFiq (p : Cpsr) : (s.setCpsr p).spsrFiq = s.spsrFiq := rfl
@[simp] theorem State.setCpsr_spsrIrq (p : Cpsr) : (s.setCpsr p).spsrIrq = s.spsrIrq := rfl
@[simp] theorem State.setCpsr_spsrSvc (p : Cpsr) : (s.setCpsr p).spsrSvc = s.spsrSvc := rfl
@[simp] theorem State.setCpsr_spsrAbt (p : Cpsr) : (s.setCpsr p).spsrAbt = s.spsrAbt := rfl
@[simp] theorem State.setCpsr_spsrUnd (p : Cpsr) : (s.setCpsr p).spsrUnd = s.spsrUnd := rfl
@[simp] theorem State.setCpsr_fetch (p : Cpsr) : (s.setCpsr p).fetch = s.fetch := rfl
@[simp] theorem State.setCpsr_decode (p : Cpsr) : (s.setCpsr p).decode = s.decode := rfl
@[simp] theorem State.setCpsr_execute (p : Cpsr) : (s.setCpsr p).execute = s.execute := rfl
@[simp] theorem State.setCpsr_refill (p : Cpsr) : (s.setCpsr p).refill = s.refill := rfl
@[simp] theorem State.setCpsr_irqLine (p : Cpsr) : (s.setCpsr p).irqLine = s.irqLine := rfl
@[simp] theorem State.setCpsr_halted (p : Cpsr) : (s.setCpsr p).halted = s.halted := rfl
@[simp] theorem State.setCpsr_mem (p : Cpsr) : (s.setCpsr p).mem = s.mem := rfl
@[simp] theorem State.setCpsr_ws (p : Cpsr) : (s.setCpsr p).ws = s.ws := rfl
@[simp] theorem State.setCpsr_calls (p : Cpsr) : (s.setCpsr p).calls = s.calls := rfl
@[simp] theorem State.setCpsr_agenda (p : Cpsr) : (s.setCpsr p).agenda = s.agenda := rfl
@[simp] theorem State.setCpsr_params (p : Cpsr) : (s.setCpsr p).params = s.params := rfl
@[simp] theorem State.setCpsr_inside (p : Cpsr) : (s.setCpsr p).inside = s.inside := rfl
@[simp] theorem State.setCpsr_stop (p : Cpsr) : (s.setCpsr p).stop = s.stop := rfl
@[simp] theorem State.setCpsr_draws (p : Cpsr) : (s.setCpsr p).draws = s.draws := rfl

@[simp] theorem State.advancePC_regs : (s.advancePC).regs = s.regs := rfl
@[simp] theorem State.advancePC_r15 : (s.advancePC).r15 = s.r15 + 4#32 := rfl
@[simp] theorem State.advancePC_cpsr : (s.advancePC).cpsr = s.cpsr := rfl
@[simp] theorem State.advancePC_spsrFiq : (s.advancePC).spsrFiq = s.spsrFiq := rfl
@[simp] theorem State.advancePC_spsrIrq : (s.advancePC).spsrIrq = s.spsrIrq := rfl
@[simp] theorem State.advancePC_spsrSvc : (s.advancePC).spsrSvc = s.spsrSvc := rfl
@[simp] theorem State.advancePC_spsrAbt : (s.advancePC).spsrAbt = s.spsrAbt := rfl
@[simp] theorem State.advancePC_spsrUnd : (s.advancePC).spsrUnd = s.spsrUnd := rfl
@[simp] theorem State.advancePC_fetch : (s.advancePC).fetch = s.fetch := rfl
@[simp] theorem State.advancePC_decode : (s.advancePC).decode = s.decode := rfl
@[simp] theorem State.advancePC_execute : (s.advancePC).execute = s.execute := rfl
@[simp] theorem State.advancePC_refill : (s.advancePC).refill = s.refill := rfl
@[simp] theorem State.advancePC_irqLine : (s.advancePC).irqLine = s.irqLine := rfl
@[simp] theorem State.advancePC_halted : (s.advancePC).halted = s.halted := rfl
@[simp] theorem State.advancePC_mem : (s.advancePC).mem = s.mem := rfl
@[simp] theorem State.advancePC_ws : (s.advancePC).ws = s.ws := rfl
@[simp] theorem State.advancePC_calls : (s.advancePC).calls = s.calls := rfl
@[simp] theorem State.advancePC_agenda : (s.advancePC).agenda = s.agenda := rfl
@[simp] theorem State.advancePC_params : (s.advancePC).params = s.params := rfl
@[simp] theorem State.advancePC_inside : (s.advancePC).inside = s.inside := rfl
@[simp] theorem State.advancePC_stop : (s.advancePC).stop = s.stop := rfl
@[simp] theorem State.advancePC_draws : (s.advancePC).draws = s.draws := rfl

@[simp] theorem State.branch_regs (a : Word) : (s.branch a).regs = s.regs := rfl
@[simp] theorem State.branch_r15 (a : Word) : (s.branch a).r15 = a &&& branchMask s.cpsr.t := rfl
@[simp] theorem State.branch_cpsr (a : Word) : (s.branch a).cpsr = s.cpsr := rfl
@[simp] theorem State.branch_spsrFiq (a : Word) : (s.branch a).spsrFiq = s.spsrFiq := rfl
@[simp] theorem State.branch_spsrIrq (a : Word) : (s.branch a).spsrIrq = s.spsrIrq := rfl
@[simp] theorem State.branch_spsrSvc (a : Word) : (s.branch a).spsrSvc = s.spsrSvc := rfl
@[simp] theorem State.branch_spsrAbt (a : Word) : (s.branch a).spsrAbt = s.spsrAbt := rfl
@[simp] theorem State.branch_spsrUnd (a : Word) : (s.branch a).spsrUnd = s.spsrUnd := rfl
@[simp] theorem State.branch_fetch (a : Word) : (s.branch a).fetch = s.fetch := rfl
@[simp] theorem State.branch_decode (a : Word) : (s.branch a).decode = s.decode := rfl
@[simp] theorem State.branch_execute (a : Word) : (s.branch a).execute = s.execute := rfl
@[simp] theorem State.branch_refill (a : Word) : (s.branch a).refill = 2 := rfl
@[simp] theorem State.branch_irqLine (a : Word) : (s.branch a).irqLine = s.irqLine := rfl
@[simp] theorem State.branch_halted (a : Word) : (s.branch a).halted = s.halted := rfl
@[simp] theorem State.branch_mem (a : Word) : (s.branch a).mem = s.mem := rfl
@[simp] theorem State.branch_ws (a : Word) : (s.branch a).ws = s.ws.branchHook := rfl
@[simp] theorem State.branch_calls (a : Word) : (s.branch a).calls = s.calls ++ [.branch] := rfl
@[simp] theorem State.branch_agenda (a : Word) : (s.branch a).agenda = s.agenda := rfl
@[simp] theorem State.branch_params (a : Word) : (s.branch a).params = s.params := rfl
@[simp] theorem State.branch_inside (a : Word) : (s.branch a).inside = s.inside := rfl
@[simp] theorem State.branch_stop (a : Word) : (s.branch a).stop = s.stop := rfl
@[simp] theorem State.branch_draws (a : Word) : (s.branch a).draws = s.draws := rfl

@[simp] theorem State.setRegIn_r15 (m : Mode) (n : Reg) (v : Word) : (s.setRegIn m n v).r15 = s.r15 := by
  unfold State.setRegIn; split <;> rfl
@[simp] theorem State.setRegIn_cpsr (m : Mode) (n : Reg) (v : Word) : (s.setRegIn m n v).cpsr = s.cpsr := by
  unfold State.setRegIn; split <;> rfl
@[simp] theorem State.setRegIn_spsrFiq (m : Mode) (n : Reg) (v : Word) : (s.setRegIn m n v).spsrFiq = s.spsrFiq := by
  unfold State.setRegIn; split <;> rfl
@[simp] theorem State.setRegIn_spsrIrq (m : Mode) (n : Reg) (v : Word) : (s.setRegIn m n v).spsrIrq = s.spsrIrq := by
  unfold State.setRegIn; split <;> rfl
@[simp] theorem State.setRegIn_spsrSvc (m : Mode) (n : Reg) (v : Word) : (s.setRegIn m n v).spsrSvc = s.spsrSvc := by
  unfold State.setRegIn; split <;> rfl
@[simp] theorem State.setRegIn_spsrAbt (m : Mode) (n : Reg) (v : Word) : (s.setRegIn m n v).spsrAbt = s.spsrAbt := by
  unfold State.setRegIn; split <;> rfl
@[simp] theorem State.setRegIn_spsrUnd (m : Mode) (n : Reg) (v : Word) : (s.setRegIn m n v).spsrUnd = s.spsrUnd := by
  unfold State.setRegIn; split <;> rfl
@[simp] theorem State.setRegIn_fetch (m : Mode) (n : Reg) (v : Word) : (s.setRegIn m n v).fetch = s.fetch := by
  unfold State.setRegIn; split <;> rfl
@[simp] theorem State.setRegIn_decode (m : Mode) (n : Reg) (v : Word) : (s.setRegIn m n v).decode = s.decode := by
  unfold State.setRegIn; split <;> rfl
@[simp] theorem State.setRegIn_execute (m : Mode) (n : Reg) (v : Word) : (s.setRegIn m n v).execute = s.execute := by
  unfold State.setRegIn; split <;> rfl
@[simp] theorem State.setRegIn_refill (m : Mode) (n : Reg) (v : Word) : (s.setRegIn m n v).refill = s.refill := by
  unfold State.setRegIn; split <;> rfl
@[simp] theorem State.setRegIn_irqLine (m : Mode) (n : Reg) (v : Word) : (s.setRegIn m n v).irqLine = s.irqLine := by
  unfold State.setRegIn; split <;> rfl
@[simp] theorem State.setRegIn_halted (m : Mode) (n : Reg) (v : Word) : (s.setRegIn m n v).halted = s.halted := by
  unfold State.setRegIn; split <;> rfl
@[simp] theorem State.setRegIn_mem (m : Mode) (n : Reg) (v : Word) : (s.setRegIn m n v).mem = s.mem := by
  unfold State.setRegIn; split <;> rfl
@[simp] theorem State.setRegIn_ws (m : Mode) (n : Reg) (v : Word) : (s.setRegIn m n v).ws = s.ws := by
  unfold State.setRegIn; split <;> rfl
@[simp] theorem State.setRegIn_calls (m : Mode) (n : Reg) (v : Word) : (s.setRegIn m n v).calls = s.calls := by
  unfold State.setRegIn; split <;> rfl
@[simp] theorem State.setRegIn_agenda (m : Mode) (n : Reg) (v : Word) : (s.setRegIn m n v).agenda = s.agenda := by
  unfold State.setRegIn; split <;> rfl
@[simp] theorem State.setRegIn_params (m : Mode) (n : Reg) (v : Word) : (s.setRegIn m n v).params = s.params := by
  unfold State.setRegIn; split <;> rfl
@[simp] theorem State.setRegIn_inside (m : Mode) (n : Reg) (v : Word) : (s.setRegIn m n v).inside = s.inside := by
  unfold State.setRegIn; split <;> rfl
@[simp] theorem State.setRegIn_stop (m : Mode) (n : Reg) (v : Word) : (s.setRegIn m n v).stop = s.stop := by
  unfold State.setRegIn; split <;> rfl
@[simp] theorem State.setRegIn_draws (m : Mode) (n : Reg) (v : Word) : (s.setRegIn m n v).draws = s.draws := by
  unfold State.setRegIn; split <;> rfl

@[simp] theorem State.setReg_r15 (n : Reg) (v : Word) : (s.setReg n v).r15 = s.r15 := by simp [State.setReg]
@[simp] theorem State.setReg_cpsr (n : Reg) (v : Word) : (s.setReg n v).cpsr = s.cpsr := by simp [State.setReg]
@[simp] theorem State.setReg_spsrFiq (n : Reg) (v : Word) : (s.setReg n v).spsrFiq = s.spsrFiq := by simp [State.setReg]
@[simp] theorem State.setReg_spsrIrq (n : Reg) (v : Word) : (s.setReg n v).spsrIrq = s.spsrIrq := by simp [State.setReg]
@[simp] theorem State.setReg_spsrSvc (n : Reg) (v : Word) : (s.setReg n v).spsrSvc = s.spsrSvc := by simp [State.setReg]
@[simp] theorem State.setReg_spsrAbt (n : Reg) (v : Word) : (s.setReg n v).spsrAbt = s.spsrAbt := by simp [State.setReg]
@[simp] theorem State.setReg_spsrUnd (n : Reg) (v : Word) : (s.setReg n v).spsrUnd = s.spsrUnd := by simp [State.setReg]
@[simp] theorem State.setReg_fetch (n : Reg) (v : Word) : (s.setReg n v).fetch = s.fetch := by simp [State.setReg]
@[simp] theorem State.setReg_decode (n : Reg) (v : Word) : (s.setReg n v).decode = s.decode := by simp [State.setReg]
@[simp] theorem State.setReg_execute (n : Reg) (v : Word) : (s.setReg n v).execute = s.execute := by simp [State.setReg]
@[simp] theorem State.setReg_refill (n : Reg) (v : Word) : (s.setReg n v).refill = s.refill := by simp [State.setReg]
@[simp] theorem State.setReg_irqLine (n : Reg) (v : Word) : (s.setReg n v).irqLine = s.irqLine := by simp [State.setReg]
@[simp] theorem State.setReg_halted (n : Reg) (v : Word) : (s.setReg n v).halted = s.halted := by simp [State.setReg]
@[simp] theorem State.setReg_mem (n : Reg) (v : Word) : (s.setReg n v).mem = s.mem := by simp [State.setReg]
@[simp] theorem State.setReg_ws (n : Reg) (v : Word) : (s.setReg n v).ws = s.ws := by simp [State.setReg]
@[simp] theorem State.setReg_calls (n : Reg) (v : Word) : (s.setReg n v).calls = s.calls := by simp [State.setReg]
@[simp] theorem State.setReg_agenda (n : Reg) (v : Word) : (s.setReg n v).agenda = s.agenda := by simp [State.setReg]
@[simp] theorem State.setReg_params (n : Reg) (v : Word) : (s.setReg n v).params = s.params := by simp [State.setReg]
@[simp] theorem State.setReg_inside (n : Reg) (v : Word) : (s.setReg n v).inside = s.inside := by simp [State.setReg]
@[simp] theorem State.setReg_stop (n : Reg) (v : Word) : (s.setReg n v).stop = s.stop := by simp [State.setReg]
@[simp] theorem State.setReg_draws (n : Reg) (v : Word) : (s.setReg n v).draws = s.draws := by simp [State.setReg]

@[simp] theorem State.setUserReg_r15 (n : Reg) (v : Word) : (s.setUserReg n v).r15 = s.r15 := by simp [State.setUserReg]
@[simp] theorem State.setUserReg_cpsr (n : Reg) (v : Word) : (s.setUserReg n v).cpsr = s.cpsr := by simp [State.setUserReg]
@[simp] theorem State.setUserReg_spsrFiq (n : Reg) (v : Word) : (s.setUserReg n v).spsrFiq = s.spsrFiq := by
  simp [State.setUserReg]
@[simp] theorem State.setUserReg_spsrIrq (n : Reg) (v : Word) : (s.setUserReg n v).spsrIrq = s.spsrIrq := by
  simp [State.setUserReg]
@[simp] theorem State.setUserReg_spsrSvc (n : Reg) (v : Word) : (s.setUserReg n v).spsrSvc = s.spsrSvc := by
  simp [State.setUserReg]
@[simp] theorem State.setUserReg_spsrAbt (n : Reg) (v : Word) : (s.setUserReg n v).spsrAbt = s.spsrAbt := by
  simp [State.setUserReg]
@[simp] theorem State.setUserReg_spsrUnd (n : Reg) (v : Word) : (s.setUserReg n v).spsrUnd = s.spsrUnd := by
  simp [State.setUserReg]
@[simp] theorem State.setUserReg_fetch (n : Reg) (v : Word) : (s.setUserReg n v).fetch = s.fetch := by
  simp [State.setUserReg]
@[simp] theorem State.setUserReg_decode (n : Reg) (v : Word) : (s.setUserReg n v).decode = s.decode := by
  simp [State.setUserReg]
@[simp] theorem State.setUserReg_execute (n : Reg) (v : Word) : (s.setUserReg n v).execute = s.execute := by
  simp [State.setUserReg]
@[simp] theorem State.setUserReg_refill (n : Reg) (v : Word) : (s.setUserReg n v).refill = s.refill := by
  simp [State.setUserReg]
@[simp] theorem State.setUserReg_irqLine (n : Reg) (v : Word) : (s.setUserReg n v).irqLine = s.irqLine := by
  simp [State.setUserReg]
@[simp] theorem State.setUserReg_halted (n : Reg) (v : Word) : (s.setUserReg n v).halted = s.halted := by
  simp [State.setUserReg]
@[simp] theorem State.setUserReg_mem (n : Reg) (v : Word) : (s.setUserReg n v).mem = s.mem := by simp [State.setUserReg]
@[simp] theorem State.setUserReg_ws (n : Reg) (v : Word) : (s.setUserReg n v).ws = s.ws := by simp [State.setUserReg]
@[simp] theorem State.setUserReg_calls (n : Reg) (v : Word) : (s.setUserReg n v).calls = s.calls := by
  simp [State.setUserReg]
@[simp] theorem State.setUserReg_agenda (n : Reg) (v : Word) : (s.setUserReg n v).agenda = s.agenda := by
  simp [State.setUserReg]
@[simp] theorem State.setUserReg_params (n : Reg) (v : Word) : (s.setUserReg n v).params = s.params := by
  simp [State.setUserReg]
@[simp] theorem State.setUserReg_inside (n : Reg) (v : Word) : (s.setUserReg n v).inside = s.inside := by
  simp [State.setUserReg]
@[simp] theorem State.setUserReg_stop (n : Reg) (v : Word) : (s.setUserReg n v).stop = s.stop := by simp [State.setUserReg]
@[simp] theorem State.setUserReg_draws (n : Reg) (v : Word) : (s.setUserReg n v).draws = s.draws := by
  simp [State.setUserReg]

@[simp] theorem State.setSpsrOf_regs (b : Banked) (p : Spsr) : (s.setSpsrOf b p).regs = s.regs := by cases b <;> rfl
@[simp] theorem State.setSpsrOf_r15 (b : Banked) (p : Spsr) : (s.setSpsrOf b p).r15 = s.r15 := by cases b <;> rfl
@[simp] theorem State.setSpsrOf_cpsr (b : Banked) (p : Spsr) : (s.setSpsrOf b p).cpsr = s.cpsr := by cases b <;> rfl
@[simp] theorem State.setSpsrOf_fetch (b : Banked) (p : Spsr) : (s.setSpsrOf b p).fetch = s.fetch := by cases b <;> rfl
@[simp] theorem State.setSpsrOf_decode (b : Banked) (p : Spsr) : (s.setSpsrOf b p).decode = s.decode := by cases b <;> rfl
@[simp] theorem State.setSpsrOf_execute (b : Banked) (p : Spsr) : (s.setSpsrOf b p).execute = s.execute := by cases b <;> rfl
@[simp] theorem State.setSpsrOf_refill (b : Banked) (p : Spsr) : (s.setSpsrOf b p).refill = s.refill := by cases b <;> rfl
@[simp] theorem State.setSpsrOf_irqLine (b : Banked) (p : Spsr) : (s.setSpsrOf b p).irqLine = s.irqLine := by cases b <;> rfl
@[simp] theorem State.setSpsrOf_halted (b : Banked) (p : Spsr) : (s.setSpsrOf b p).halted = s.halted := by cases b <;> rfl
@[simp] theorem State.setSpsrOf_mem (b : Banked) (p : Spsr) : (s.setSpsrOf b p).mem = s.mem := by cases b <;> rfl
@[simp] theorem State.setSpsrOf_ws (b : Banked) (p : Spsr) : (s.setSpsrOf b p).ws = s.ws := by cases b <;> rfl
@[simp] theorem State.setSpsrOf_calls (b : Banked) (p : Spsr) : (s.setSpsrOf b p).calls = s.calls := by cases b <;> rfl
@[simp] theorem State.setSpsrOf_agenda (b : Banked) (p : Spsr) : (s.setSpsrOf b p).agenda = s.agenda := by cases b <;> rfl
@[simp] theorem State.setSpsrOf_params (b : Banked) (p : Spsr) : (s.setSpsrOf b p).params = s.params := by cases b <;> rfl
@[simp] theorem State.setSpsrOf_inside (b : Banked) (p : Spsr) : (s.setSpsrOf b p).inside = s.inside := by cases b <;> rfl
@[simp] theorem State.setSpsrOf_stop (b : Banked) (p : Spsr) : (s.setSpsrOf b p).stop = s.stop := by cases b <;> rfl
@[simp] theorem State.setSpsrOf_draws (b : Banked) (p : Spsr) : (s.setSpsrOf b p).draws = s.draws := by cases b <;> rfl

/-! ## The pipeline -/

@[simp] theorem State.shiftLatches_regs : (s.shiftLatches).regs = s.regs := rfl
@[simp] theorem State.shiftLatches_r15 : (s.shiftLatches).r15 = s.r15 := rfl
@[simp] theorem State.shiftLatches_cpsr : (s.shiftLatches).cpsr = s.cpsr := rfl
@[simp] theorem State.shiftLatches_spsrFiq : (s.shiftLatches).spsrFiq = s.spsrFiq := rfl
@[simp] theorem State.shiftLatches_spsrIrq : (s.shiftLatches).spsrIrq = s.spsrIrq := rfl
@[simp] theorem State.shiftLatches_spsrSvc : (s.shiftLatches).spsrSvc = s.spsrSvc := rfl
@[simp] theorem State.shiftLatches_spsrAbt : (s.shiftLatches).spsrAbt = s.spsrAbt := rfl
@[simp] theorem State.shiftLatches_spsrUnd : (s.shiftLatches).spsrUnd = s.spsrUnd := rfl
@[simp] theorem State.shiftLatches_fetch : (s.shiftLatches).fetch = s.fetch := rfl
@[simp] theorem State.shiftLatches_decode : (s.shiftLatches).decode = s.fetch := rfl
@[simp] theorem State.shiftLatches_execute : (s.shiftLatches).execute = s.decode := rfl
@[simp] theorem State.shiftLatches_refill : (s.shiftLatches).refill = s.refill := rfl
@[simp] theorem State.shiftLatches_irqLine : (s.shiftLatches).irqLine = s.irqLine := rfl
@[simp] theorem State.shiftLatches_halted : (s.shiftLatches).halted = s.halted := rfl
@[simp] theorem State.shiftLatches_mem : (s.shiftLatches).mem = s.mem := rfl
@[simp] theorem State.shiftLatches_ws : (s.shiftLatches).ws = s.ws := rfl
@[simp] theorem State.shiftLatches_calls : (s.shiftLatches).calls = s.calls := rfl
@[simp] theorem State.shiftLatches_agenda : (s.shiftLatches).agenda = s.agenda := rfl
@[simp] theorem State.shiftLatches_params : (s.shiftLatches).params = s.params := rfl
@[simp] theorem State.shiftLatches_inside : (s.shiftLatches).inside = s.inside := rfl
@[simp] theorem State.shiftLatches_stop : (s.shiftLatches).stop = s.stop := rfl
@[simp] theorem State.shiftLatches_draws : (s.shiftLatches).draws = s.draws := rfl

/-! ## Taking an exception -/

/-- `Enter` ends in the plain branch. -/
theorem State.enter_eq (s : State) (b : Banked) (v : Word) (f : Bool) :
    s.enter b v f =
      let w := ((s.setCpsr { s.cpsr with mode := b.mode }).setSpsrOf b s.cpsr.save).setReg 14 (s.r15 - 4#32)
      (w.setCpsr { w.cpsr with i := true, f := w.cpsr.f || f, t := false }).branch v := rfl

/-- The entry of an IRQ is an entry before which the controller has charged its one cost (70_reset_and_hazards.md R421). -/
theorem State.raiseIrq_eq (s : State) :
    s.raiseIrq =
      (s.clock fun ws => ws.charge (s.params.inCart s.r15) 0 (ws.cost (s.params.region s.r15) true false)).enter
        .irq irqVector false := rfl

end Sys2Proof.Machine
end

