-- ==== Sys2Proof/Laws/Registers.lean ====
section
/-! SUPPORT. Reading and writing registers through their banks (10_state.md R21, R23). -/

namespace Sys2Proof.Machine

/-! ## Physical registers -/

theorem PhysReg.index_inj {p q : PhysReg} (h : p.index = q.index) : p = q := by
  cases p <;> cases q <;> first | rfl | exact absurd h (by decide)

theorem State.phys_setPhys (s : State) (p q : PhysReg) (v : Word) :
    (s.setPhys p v).phys q = if q = p then v else s.phys q := by
  simp only [State.phys, State.setPhys_regs, Fin.getElem_fin, Vector.getElem_set]
  by_cases h : q = p
  · simp [h]
  · have : (p.index : Nat) ≠ q.index := fun e => h (PhysReg.index_inj (Fin.ext e)).symm
    simp [h, this]

/-- A state's registers are read from `regs` alone. -/
theorem State.phys_congr {s t : State} (h : t.regs = s.regs) (p : PhysReg) : t.phys p = s.phys p := by
  simp [State.phys, h]

/-! ## The bank table -/

theorem physical_eq_none {m : Mode} {n : Reg} : physical m n = none ↔ n = 15 := by
  cases m <;> revert n <;> decide

/-- Within one mode, two visible numbers never name the same register. -/
theorem physical_inj {m : Mode} {n k : Reg} (h : physical m n = physical m k) : n = k := by
  cases m <;> revert n k <;> decide

theorem physical_some {m : Mode} {n : Reg} (h : n ≠ 15) : ∃ p, physical m n = some p :=
  Option.ne_none_iff_exists'.mp (mt physical_eq_none.mp h)

/-- R14 of a banked mode belongs to it alone. -/
theorem physical_fourteen (m : Mode) : physical m 14 = some m.r14 := by cases m <;> rfl

/-! ## Visible registers -/

theorem State.phys_setRegIn (s : State) (m : Mode) (n : Reg) (v : Word) (q : PhysReg) :
    (s.setRegIn m n v).phys q = if physical m n = some q then v else s.phys q := by
  unfold State.setRegIn
  split
  · next p hp => rw [State.phys_setPhys, hp]; simp [eq_comm]
  · next hp => simp [hp]

theorem State.phys_setReg (s : State) (n : Reg) (v : Word) (q : PhysReg) :
    (s.setReg n v).phys q = if physical s.cpsr.mode n = some q then v else s.phys q :=
  State.phys_setRegIn ..

theorem State.phys_setUserReg (s : State) (n : Reg) (v : Word) (q : PhysReg) :
    (s.setUserReg n v).phys q = if physical .user n = some q then v else s.phys q :=
  State.phys_setRegIn ..

theorem State.reg_eq {s : State} {n : Reg} {p : PhysReg} (h : physical s.cpsr.mode n = some p) : s.reg n = s.phys p := by
  simp [State.reg, State.regIn, h]

theorem State.reg_fifteen (s : State) : s.reg 15 = s.r15 := by
  simp [State.reg, State.regIn, physical_eq_none.mpr rfl]

theorem State.reg_congr {s t : State} (hr : t.regs = s.regs) (hp : t.r15 = s.r15) (hm : t.cpsr.mode = s.cpsr.mode)
    (n : Reg) : t.reg n = s.reg n := by
  simp only [State.reg, State.regIn, hm, hp]
  split <;> simp [State.phys_congr hr]

/-- Away from R15 the program counter does not matter. -/
theorem State.reg_congr' {s t : State} (hr : t.regs = s.regs) (hm : t.cpsr.mode = s.cpsr.mode) {n : Reg} (hn : n ≠ 15) :
    t.reg n = s.reg n := by
  obtain ⟨p, hp⟩ := physical_some (m := s.cpsr.mode) hn
  rw [State.reg_eq hp, State.reg_eq (s := t) (hm ▸ hp), State.phys_congr hr]

theorem State.reg_setReg (s : State) (n k : Reg) (v : Word) (hn : n ≠ 15) :
    (s.setReg n v).reg k = if k = n then v else s.reg k := by
  obtain ⟨p, hp⟩ := physical_some (m := s.cpsr.mode) hn
  by_cases hk : k = 15
  · subst hk
    rw [State.reg_fifteen, State.reg_fifteen, State.setReg_r15, if_neg (Ne.symm hn)]
  · obtain ⟨q, hq⟩ := physical_some (m := s.cpsr.mode) hk
    rw [State.reg_eq (s := s.setReg n v) (p := q) (by simpa using hq), State.reg_eq hq, State.phys_setReg, hp]
    by_cases h : k = n
    · subst h; simp [Option.some.inj (hp.symm.trans hq)]
    · have : p ≠ q := fun e => h (physical_inj (hq.trans (e ▸ hp.symm)))
      simp [this, h]

theorem State.setReg_fifteen (s : State) (v : Word) : s.setReg 15 v = s := by
  simp [State.setReg, State.setRegIn, physical_eq_none.mpr rfl]

/-! ## Saved status words -/

theorem State.spsrOf_setSpsrOf (s : State) (b c : Banked) (p : Spsr) :
    (s.setSpsrOf b p).spsrOf c = if c = b then p else s.spsrOf c := by
  cases b <;> cases c <;> rfl

theorem State.spsrOf_congr {s t : State} (h : t.spsrFiq = s.spsrFiq ∧ t.spsrIrq = s.spsrIrq ∧ t.spsrSvc = s.spsrSvc ∧
    t.spsrAbt = s.spsrAbt ∧ t.spsrUnd = s.spsrUnd) (b : Banked) : t.spsrOf b = s.spsrOf b := by
  obtain ⟨h1, h2, h3, h4, h5⟩ := h
  cases b <;> simp [State.spsrOf, *]

theorem Mode.ofCode_code (m : Mode) : Mode.ofCode m.code = some m := by cases m <;> rfl

theorem Mode.code_of_ofCode {k : BitVec 5} {m : Mode} (h : Mode.ofCode k = some m) : m.code = k := by
  revert h; revert m; revert k; decide

theorem Mode.banked_mode (b : Banked) : b.mode.banked = some b := by cases b <;> rfl

end Sys2Proof.Machine
end

