-- ==== Sys2Proof/Laws/Bus.lean ====
section
/-! SUPPORT. What the storing of bytes does, field by field, the control value of the controller, and what a call of the core
is when the platform does nothing inside it (20_memory.md R61, R62; 21_waitstate.md R94, R112). -/

namespace Sys2Proof.Machine

variable (s : State)

/-! ## Fields the storing of bytes leaves alone -/

@[simp] theorem State.pokeByte_regs (a : Word) (b : Byte) : (s.pokeByte a b).regs = s.regs := by
  unfold State.pokeByte; split_ifs <;> rfl
@[simp] theorem State.pokeByte_r15 (a : Word) (b : Byte) : (s.pokeByte a b).r15 = s.r15 := by
  unfold State.pokeByte; split_ifs <;> rfl
@[simp] theorem State.pokeByte_cpsr (a : Word) (b : Byte) : (s.pokeByte a b).cpsr = s.cpsr := by
  unfold State.pokeByte; split_ifs <;> rfl
@[simp] theorem State.pokeByte_spsrFiq (a : Word) (b : Byte) : (s.pokeByte a b).spsrFiq = s.spsrFiq := by
  unfold State.pokeByte; split_ifs <;> rfl
@[simp] theorem State.pokeByte_spsrIrq (a : Word) (b : Byte) : (s.pokeByte a b).spsrIrq = s.spsrIrq := by
  unfold State.pokeByte; split_ifs <;> rfl
@[simp] theorem State.pokeByte_spsrSvc (a : Word) (b : Byte) : (s.pokeByte a b).spsrSvc = s.spsrSvc := by
  unfold State.pokeByte; split_ifs <;> rfl
@[simp] theorem State.pokeByte_spsrAbt (a : Word) (b : Byte) : (s.pokeByte a b).spsrAbt = s.spsrAbt := by
  unfold State.pokeByte; split_ifs <;> rfl
@[simp] theorem State.pokeByte_spsrUnd (a : Word) (b : Byte) : (s.pokeByte a b).spsrUnd = s.spsrUnd := by
  unfold State.pokeByte; split_ifs <;> rfl
@[simp] theorem State.pokeByte_fetch (a : Word) (b : Byte) : (s.pokeByte a b).fetch = s.fetch := by
  unfold State.pokeByte; split_ifs <;> rfl
@[simp] theorem State.pokeByte_decode (a : Word) (b : Byte) : (s.pokeByte a b).decode = s.decode := by
  unfold State.pokeByte; split_ifs <;> rfl
@[simp] theorem State.pokeByte_execute (a : Word) (b : Byte) : (s.pokeByte a b).execute = s.execute := by
  unfold State.pokeByte; split_ifs <;> rfl
@[simp] theorem State.pokeByte_refill (a : Word) (b : Byte) : (s.pokeByte a b).refill = s.refill := by
  unfold State.pokeByte; split_ifs <;> rfl
@[simp] theorem State.pokeByte_irqLine (a : Word) (b : Byte) : (s.pokeByte a b).irqLine = s.irqLine := by
  unfold State.pokeByte; split_ifs <;> rfl
@[simp] theorem State.pokeByte_halted (a : Word) (b : Byte) : (s.pokeByte a b).halted = s.halted := by
  unfold State.pokeByte; split_ifs <;> rfl
@[simp] theorem State.pokeByte_calls (a : Word) (b : Byte) : (s.pokeByte a b).calls = s.calls := by
  unfold State.pokeByte; split_ifs <;> rfl
@[simp] theorem State.pokeByte_agenda (a : Word) (b : Byte) : (s.pokeByte a b).agenda = s.agenda := by
  unfold State.pokeByte; split_ifs <;> rfl
@[simp] theorem State.pokeByte_params (a : Word) (b : Byte) : (s.pokeByte a b).params = s.params := by
  unfold State.pokeByte; split_ifs <;> rfl
@[simp] theorem State.pokeByte_inside (a : Word) (b : Byte) : (s.pokeByte a b).inside = s.inside := by
  unfold State.pokeByte; split_ifs <;> rfl
@[simp] theorem State.pokeByte_stop (a : Word) (b : Byte) : (s.pokeByte a b).stop = s.stop := by
  unfold State.pokeByte; split_ifs <;> rfl
@[simp] theorem State.pokeByte_draws (a : Word) (b : Byte) : (s.pokeByte a b).draws = s.draws := by
  unfold State.pokeByte; split_ifs <;> rfl

@[simp] theorem State.poke16_regs (a v : Word) : (s.poke16 a v).regs = s.regs := by simp [State.poke16]
@[simp] theorem State.poke16_r15 (a v : Word) : (s.poke16 a v).r15 = s.r15 := by simp [State.poke16]
@[simp] theorem State.poke16_cpsr (a v : Word) : (s.poke16 a v).cpsr = s.cpsr := by simp [State.poke16]
@[simp] theorem State.poke16_spsrFiq (a v : Word) : (s.poke16 a v).spsrFiq = s.spsrFiq := by simp [State.poke16]
@[simp] theorem State.poke16_spsrIrq (a v : Word) : (s.poke16 a v).spsrIrq = s.spsrIrq := by simp [State.poke16]
@[simp] theorem State.poke16_spsrSvc (a v : Word) : (s.poke16 a v).spsrSvc = s.spsrSvc := by simp [State.poke16]
@[simp] theorem State.poke16_spsrAbt (a v : Word) : (s.poke16 a v).spsrAbt = s.spsrAbt := by simp [State.poke16]
@[simp] theorem State.poke16_spsrUnd (a v : Word) : (s.poke16 a v).spsrUnd = s.spsrUnd := by simp [State.poke16]
@[simp] theorem State.poke16_fetch (a v : Word) : (s.poke16 a v).fetch = s.fetch := by simp [State.poke16]
@[simp] theorem State.poke16_decode (a v : Word) : (s.poke16 a v).decode = s.decode := by simp [State.poke16]
@[simp] theorem State.poke16_execute (a v : Word) : (s.poke16 a v).execute = s.execute := by simp [State.poke16]
@[simp] theorem State.poke16_refill (a v : Word) : (s.poke16 a v).refill = s.refill := by simp [State.poke16]
@[simp] theorem State.poke16_irqLine (a v : Word) : (s.poke16 a v).irqLine = s.irqLine := by simp [State.poke16]
@[simp] theorem State.poke16_halted (a v : Word) : (s.poke16 a v).halted = s.halted := by simp [State.poke16]
@[simp] theorem State.poke16_calls (a v : Word) : (s.poke16 a v).calls = s.calls := by simp [State.poke16]
@[simp] theorem State.poke16_agenda (a v : Word) : (s.poke16 a v).agenda = s.agenda := by simp [State.poke16]
@[simp] theorem State.poke16_params (a v : Word) : (s.poke16 a v).params = s.params := by simp [State.poke16]
@[simp] theorem State.poke16_inside (a v : Word) : (s.poke16 a v).inside = s.inside := by simp [State.poke16]
@[simp] theorem State.poke16_stop (a v : Word) : (s.poke16 a v).stop = s.stop := by simp [State.poke16]
@[simp] theorem State.poke16_draws (a v : Word) : (s.poke16 a v).draws = s.draws := by simp [State.poke16]

@[simp] theorem State.poke32_regs (a v : Word) : (s.poke32 a v).regs = s.regs := by simp [State.poke16, State.poke32]
@[simp] theorem State.poke32_r15 (a v : Word) : (s.poke32 a v).r15 = s.r15 := by simp [State.poke16, State.poke32]
@[simp] theorem State.poke32_cpsr (a v : Word) : (s.poke32 a v).cpsr = s.cpsr := by simp [State.poke16, State.poke32]
@[simp] theorem State.poke32_spsrFiq (a v : Word) : (s.poke32 a v).spsrFiq = s.spsrFiq := by
  simp [State.poke16, State.poke32]
@[simp] theorem State.poke32_spsrIrq (a v : Word) : (s.poke32 a v).spsrIrq = s.spsrIrq := by
  simp [State.poke16, State.poke32]
@[simp] theorem State.poke32_spsrSvc (a v : Word) : (s.poke32 a v).spsrSvc = s.spsrSvc := by
  simp [State.poke16, State.poke32]
@[simp] theorem State.poke32_spsrAbt (a v : Word) : (s.poke32 a v).spsrAbt = s.spsrAbt := by
  simp [State.poke16, State.poke32]
@[simp] theorem State.poke32_spsrUnd (a v : Word) : (s.poke32 a v).spsrUnd = s.spsrUnd := by
  simp [State.poke16, State.poke32]
@[simp] theorem State.poke32_fetch (a v : Word) : (s.poke32 a v).fetch = s.fetch := by simp [State.poke16, State.poke32]
@[simp] theorem State.poke32_decode (a v : Word) : (s.poke32 a v).decode = s.decode := by simp [State.poke16, State.poke32]
@[simp] theorem State.poke32_execute (a v : Word) : (s.poke32 a v).execute = s.execute := by
  simp [State.poke16, State.poke32]
@[simp] theorem State.poke32_refill (a v : Word) : (s.poke32 a v).refill = s.refill := by simp [State.poke16, State.poke32]
@[simp] theorem State.poke32_irqLine (a v : Word) : (s.poke32 a v).irqLine = s.irqLine := by
  simp [State.poke16, State.poke32]
@[simp] theorem State.poke32_halted (a v : Word) : (s.poke32 a v).halted = s.halted := by simp [State.poke16, State.poke32]
@[simp] theorem State.poke32_calls (a v : Word) : (s.poke32 a v).calls = s.calls := by simp [State.poke16, State.poke32]
@[simp] theorem State.poke32_agenda (a v : Word) : (s.poke32 a v).agenda = s.agenda := by simp [State.poke16, State.poke32]
@[simp] theorem State.poke32_params (a v : Word) : (s.poke32 a v).params = s.params := by simp [State.poke16, State.poke32]
@[simp] theorem State.poke32_inside (a v : Word) : (s.poke32 a v).inside = s.inside := by simp [State.poke16, State.poke32]
@[simp] theorem State.poke32_stop (a v : Word) : (s.poke32 a v).stop = s.stop := by simp [State.poke16, State.poke32]
@[simp] theorem State.poke32_draws (a v : Word) : (s.poke32 a v).draws = s.draws := by simp [State.poke16, State.poke32]

@[simp] theorem State.memWriteRaw32_regs (a v : Word) : (s.memWriteRaw32 a v).regs = s.regs := by simp [State.memWriteRaw32]
@[simp] theorem State.memWriteRaw32_r15 (a v : Word) : (s.memWriteRaw32 a v).r15 = s.r15 := by simp [State.memWriteRaw32]
@[simp] theorem State.memWriteRaw32_cpsr (a v : Word) : (s.memWriteRaw32 a v).cpsr = s.cpsr := by simp [State.memWriteRaw32]
@[simp] theorem State.memWriteRaw32_spsrFiq (a v : Word) : (s.memWriteRaw32 a v).spsrFiq = s.spsrFiq := by
  simp [State.memWriteRaw32]
@[simp] theorem State.memWriteRaw32_spsrIrq (a v : Word) : (s.memWriteRaw32 a v).spsrIrq = s.spsrIrq := by
  simp [State.memWriteRaw32]
@[simp] theorem State.memWriteRaw32_spsrSvc (a v : Word) : (s.memWriteRaw32 a v).spsrSvc = s.spsrSvc := by
  simp [State.memWriteRaw32]
@[simp] theorem State.memWriteRaw32_spsrAbt (a v : Word) : (s.memWriteRaw32 a v).spsrAbt = s.spsrAbt := by
  simp [State.memWriteRaw32]
@[simp] theorem State.memWriteRaw32_spsrUnd (a v : Word) : (s.memWriteRaw32 a v).spsrUnd = s.spsrUnd := by
  simp [State.memWriteRaw32]
@[simp] theorem State.memWriteRaw32_fetch (a v : Word) : (s.memWriteRaw32 a v).fetch = s.fetch := by
  simp [State.memWriteRaw32]
@[simp] theorem State.memWriteRaw32_decode (a v : Word) : (s.memWriteRaw32 a v).decode = s.decode := by
  simp [State.memWriteRaw32]
@[simp] theorem State.memWriteRaw32_execute (a v : Word) : (s.memWriteRaw32 a v).execute = s.execute := by
  simp [State.memWriteRaw32]
@[simp] theorem State.memWriteRaw32_refill (a v : Word) : (s.memWriteRaw32 a v).refill = s.refill := by
  simp [State.memWriteRaw32]
@[simp] theorem State.memWriteRaw32_irqLine (a v : Word) : (s.memWriteRaw32 a v).irqLine = s.irqLine := by
  simp [State.memWriteRaw32]
@[simp] theorem State.memWriteRaw32_halted (a v : Word) : (s.memWriteRaw32 a v).halted = s.halted := by
  simp [State.memWriteRaw32]
@[simp] theorem State.memWriteRaw32_agenda (a v : Word) : (s.memWriteRaw32 a v).agenda = s.agenda := by
  simp [State.memWriteRaw32]
@[simp] theorem State.memWriteRaw32_params (a v : Word) : (s.memWriteRaw32 a v).params = s.params := by
  simp [State.memWriteRaw32]
@[simp] theorem State.memWriteRaw32_inside (a v : Word) : (s.memWriteRaw32 a v).inside = s.inside := by
  simp [State.memWriteRaw32]
@[simp] theorem State.memWriteRaw32_stop (a v : Word) : (s.memWriteRaw32 a v).stop = s.stop := by simp [State.memWriteRaw32]
/-- A word outside the I/O window takes no draw. -/
theorem State.touchesIo_plain {s : State} {a : Word} (h : s.plainWord a) : s.params.touchesIo a 4 = false := by
  simpa [Params.touchesIo, State.plainWord] using h

@[simp] theorem State.memWriteRaw32_draws (a v : Word) : (s.memWriteRaw32 a v).draws = s.draws := by
  simp [State.memWriteRaw32]

/-! ## The control value, which only a write to its two addresses changes -/

@[simp] theorem WaitState.flush_wcnt (ws : WaitState) : ws.flush.wcnt = ws.wcnt := rfl

@[simp] theorem WaitState.nonSeq_wcnt (ws : WaitState) : ws.nonSeq.wcnt = ws.wcnt := rfl

@[simp] theorem WaitState.branchHook_wcnt (ws : WaitState) : ws.branchHook.wcnt = ws.wcnt := rfl

@[simp] theorem WaitState.charge_wcnt (ws : WaitState) (cart : Bool) (free total : Nat) :
    (ws.charge cart free total).wcnt = ws.wcnt := by
  unfold WaitState.charge; split_ifs <;> rfl

@[simp] theorem WaitState.boundary_wcnt (ws : WaitState) (a : Word) : (ws.boundary a).wcnt = ws.wcnt := by
  unfold WaitState.boundary; split_ifs <;> simp

@[simp] theorem WaitState.tagged_wcnt (ws : WaitState) (cart free : Bool) (r : Region) (wide : Bool) :
    (ws.tagged cart free r wide).wcnt = ws.wcnt := by
  simp [WaitState.tagged]

@[simp] theorem WaitState.romAccess_wcnt (ws : WaitState) (p : Params) (cart : Bool) (a : Word) (wide : Bool) :
    (ws.romAccess p cart a wide).wcnt = ws.wcnt := by
  simp [WaitState.romAccess]

@[simp] theorem WaitState.drain_wcnt (cap unit fuel : Nat) (ws : WaitState) :
    (WaitState.drain cap unit fuel ws).wcnt = ws.wcnt := by
  induction fuel generalizing ws with
  | zero => rfl
  | succ n ih => unfold WaitState.drain; split_ifs <;> simp [ih]

@[simp] theorem WaitState.romFetch_wcnt (ws : WaitState) (p : Params) (cart : Bool) (a : Word) :
    (ws.romFetch p cart a).wcnt = ws.wcnt := by
  simp only [WaitState.romFetch]; split_ifs <;> simp

@[simp] theorem WaitState.fetchCost_wcnt (ws : WaitState) (p : Params) (cart : Bool) (a : Word) :
    (ws.fetchCost p cart a).wcnt = ws.wcnt := by
  unfold WaitState.fetchCost; split_ifs <;> simp

@[simp] theorem WaitState.dataCost_wcnt (ws : WaitState) (p : Params) (cart : Bool) (a : Word) (wide : Bool) :
    (ws.dataCost p cart a wide).wcnt = ws.wcnt := by
  unfold WaitState.dataCost; split_ifs <;> simp

@[simp] theorem WaitState.bulk_wcnt (ws : WaitState) (p : Params) (cart : Bool) (n : Nat) (a : Word) :
    (ws.bulk p cart n a).wcnt = ws.wcnt := by
  unfold WaitState.bulk; split_ifs <;> simp

@[simp] theorem WaitState.setControl_wcnt (ws : WaitState) (p : Params) (v : BitVec 16) : (ws.setControl p v).wcnt = v := rfl

/-! ## The value a read gives depends on memory, the control value, the draws and the parameters alone -/

theorem State.byteAt_congr {s t : State} (hm : t.mem = s.mem) (hw : t.ws.wcnt = s.ws.wcnt) (hd : t.draws = s.draws)
    (hp : t.params = s.params) (a : Word) : t.byteAt a = s.byteAt a := by
  simp [State.byteAt, State.deviceByte, hm, hw, hd, hp]

theorem State.peek_congr {s t : State} (hm : t.mem = s.mem) (hw : t.ws.wcnt = s.ws.wcnt) (hd : t.draws = s.draws)
    (hp : t.params = s.params) (a : Word) : t.peek8 a = s.peek8 a ∧ t.peek16 a = s.peek16 a ∧ t.peek32 a = s.peek32 a := by
  simp [State.peek8, State.peek16, State.peek32, State.byteAt_congr hm hw hd hp]

/-- An accounted call gives no other value to a read. -/
theorem State.peek_access (f : WaitState → WaitState) (hf : ∀ ws, (f ws).wcnt = ws.wcnt) (c : BusCall) (a : Word) :
    ((s.clock f).note c).byteAt a = s.byteAt a ∧ ((s.clock f).note c).peek8 a = s.peek8 a ∧
      ((s.clock f).note c).peek16 a = s.peek16 a ∧ ((s.clock f).note c).peek32 a = s.peek32 a :=
  ⟨State.byteAt_congr (by simp) (by simp [hf]) (by simp) (by simp) a,
    State.peek_congr (by simp) (by simp [hf]) (by simp) (by simp) a⟩

/-! ## Calls: what the platform does inside them -/

/-- The platform acts. -/
theorem State.attend_next {s t : State} {batch : List PlatformCall} {later : List (List PlatformCall)}
    (h : s.inside = batch :: later) (h' : runCalls innerCall batch { s with inside := later } = .next t) :
    s.attend = t := by
  simp only [State.attend, h, h']

/-- It makes a call that is refused: the step goes on alone, and ends with the refusal. -/
theorem State.attend_refused {s : State} {r : Refusal} {batch : List PlatformCall} {later : List (List PlatformCall)}
    (h : s.inside = batch :: later) (h' : runCalls innerCall batch { s with inside := later } = .refused r) :
    s.attend = { s with inside := [], stop := some r } := by
  simp only [State.attend, h, h']

section quiet

variable {s} (h : s.inside = [])
include h

theorem State.attend_quiet : s.attend = s := by simp [State.attend, h]

theorem State.call_quiet (f : WaitState → WaitState) (c : BusCall) : s.call f c = (s.clock f).note c :=
  State.attend_quiet (by simp [h])

theorem State.internal_quiet :
    s.internal = (s.clock fun ws => ws.charge (s.params.inCart s.r15) 1 1).note .internal := State.call_quiet h ..

theorem State.nonSeq_quiet : s.nonSeq = (s.clock WaitState.nonSeq).note .nonSeq := State.call_quiet h ..

theorem State.multiplier_quiet (m : Nat) :
    s.multiplier m = (s.clock fun ws => ws.charge (s.params.inCart s.r15) 0 m).note (.multiplier m) := State.call_quiet h ..

theorem State.bulkCharge_quiet (n : Nat) (a : Word) :
    s.bulkCharge n a = (s.clock fun ws => ws.bulk s.params (s.params.inCart s.r15) n a).note (.bulkCharge n) :=
  State.call_quiet h ..

theorem State.fetch32_quiet (a : Word) :
    s.fetch32 a = (s.peek32 a, ((s.clock fun ws => ws.fetchCost s.params (s.params.inCart s.r15) a).note
      (.fetch32 a)).answered a 4) := by
  rw [State.fetch32, State.call_quiet h]
  exact Prod.ext (State.peek_access s _ (by simp) _ a).2.2.2 rfl

theorem State.memRead8_quiet (a : Word) (t : BusAttr) :
    s.memRead8 a t = (s.peek8 a, ((s.clock (s.dataCost a false)).note (.memRead a 1 t)).answered a 1) := by
  rw [State.memRead8, State.call_quiet h]
  exact Prod.ext (State.peek_access s _ (by simp [State.dataCost]) _ a).2.1 rfl

theorem State.memRead16_quiet (a : Word) (t : BusAttr) :
    s.memRead16 a t = (s.peek16 a, ((s.clock (s.dataCost a false)).note (.memRead a 2 t)).answered a 2) := by
  rw [State.memRead16, State.call_quiet h]
  exact Prod.ext (State.peek_access s _ (by simp [State.dataCost]) _ a).2.2.1 rfl

theorem State.memRead32_quiet (a : Word) (t : BusAttr) :
    s.memRead32 a t = (s.peek32 a, ((s.clock (s.dataCost a true)).note (.memRead a 4 t)).answered a 4) := by
  rw [State.memRead32, State.call_quiet h]
  exact Prod.ext (State.peek_access s _ (by simp [State.dataCost]) _ a).2.2.2 rfl

/-- A write whose bytes do not touch `inside`. -/
theorem State.write_quiet (f : WaitState → WaitState) (c : BusCall) (t : BusAttr) (poke : State → State)
    (hp : ∀ x, (poke x).inside = x.inside) : s.write f c t poke = poke ((s.clock f).note c) := by
  unfold State.write
  split
  · exact State.attend_quiet (by rw [hp]; simpa using h)
  · rw [State.call_quiet h]

theorem State.memWrite8_quiet (a v : Word) (t : BusAttr) :
    s.memWrite8 a v t =
      ((s.clock (s.dataCost a false)).note (.memWrite a 1 (v &&& 0xFF#32) t)).pokeByte a (v.extractLsb' 0 8) :=
  State.write_quiet h _ _ _ _ (by simp)

theorem State.memWrite16_quiet (a v : Word) (t : BusAttr) :
    s.memWrite16 a v t = ((s.clock (s.dataCost a false)).note (.memWrite a 2 (v &&& 0xFFFF#32) t)).poke16 a v :=
  State.write_quiet h _ _ _ _ (by simp)

theorem State.memWrite32_quiet (a v : Word) (t : BusAttr) :
    s.memWrite32 a v t = ((s.clock (s.dataCost a true)).note (.memWrite a 4 v t)).poke32 a v :=
  State.write_quiet h _ _ _ _ (by simp)

end quiet

theorem State.memReadRaw32_eq (a : Word) :
    s.memReadRaw32 a = (s.peek32 a, (s.note (.memReadRaw32 a)).answered a 4) :=
  Prod.ext (State.peek_congr (by simp) (by simp) (by simp) (by simp) a).2.2 rfl

/-! ## Memory after a write -/

/-- The wait-control register is an I/O register, wherever it is put. -/
theorem Params.waitControl_isIo (p : Params) : p.isIo p.waitControl = true ∧ p.isIo (p.waitControl + 1#32) = true := by
  simp [Params.isIo]

theorem State.pokeByte_mem_plain {a : Word} (h : s.params.isIo a = false) (b : Byte) :
    (s.pokeByte a b).mem = s.mem.write a.toNat b ∧ (s.pokeByte a b).ws = s.ws := by
  have h1 : a ≠ s.params.waitControl := fun e => by simp [e, Params.waitControl_isIo] at h
  have h2 : a ≠ s.params.waitControl + 1#32 := fun e => by simp [e, Params.waitControl_isIo] at h
  simp [State.pokeByte, h, h1, h2]

theorem State.pokeByte_mem_io {a : Word} (h : s.params.isIo a = true) (b : Byte) : (s.pokeByte a b).mem = s.mem := by
  unfold State.pokeByte; split_ifs <;> rfl

theorem State.pokeByte_wf (h : s.mem.wf) (a : Word) (b : Byte) : (s.pokeByte a b).mem.wf := by
  cases hio : s.params.isIo a with
  | true => rw [State.pokeByte_mem_io s hio]; exact h
  | false => rw [(State.pokeByte_mem_plain s hio b).1]; exact Memory.wf_write h a.isLt b

theorem State.pokeByte_read (h : s.mem.wf) (a : Word) (b : Byte) (x : Word) :
    (s.pokeByte a b).mem.read x.toNat = if x = a ∧ s.params.isIo a = false then b else s.mem.read x.toNat := by
  cases hio : s.params.isIo a with
  | true => simp [State.pokeByte_mem_io s hio]
  | false => simp [(State.pokeByte_mem_plain s hio b).1, Memory.read_write h, BitVec.toNat_inj]

theorem State.poke16_wf (h : s.mem.wf) (a v : Word) : (s.poke16 a v).mem.wf :=
  State.pokeByte_wf _ (State.pokeByte_wf _ h _ _) _ _

theorem State.poke32_wf (h : s.mem.wf) (a v : Word) : (s.poke32 a v).mem.wf :=
  State.poke16_wf _ (State.poke16_wf _ h _ _) _ _

theorem State.poke16_read (h : s.mem.wf) (a v x : Word) :
    (s.poke16 a v).mem.read x.toNat =
      if x = a + 1#32 ∧ s.params.isIo (a + 1#32) = false then v.extractLsb' 8 8
      else if x = a ∧ s.params.isIo a = false then v.extractLsb' 0 8 else s.mem.read x.toNat := by
  rw [State.poke16, State.pokeByte_read _ (State.pokeByte_wf _ h _ _), State.pokeByte_read _ h, State.pokeByte_params]

theorem State.poke32_read (h : s.mem.wf) (a v x : Word) :
    (s.poke32 a v).mem.read x.toNat =
      if x = a + 3#32 ∧ s.params.isIo (a + 3#32) = false then v.extractLsb' 24 8
      else if x = a + 2#32 ∧ s.params.isIo (a + 2#32) = false then v.extractLsb' 16 8
      else if x = a + 1#32 ∧ s.params.isIo (a + 1#32) = false then v.extractLsb' 8 8
      else if x = a ∧ s.params.isIo a = false then v.extractLsb' 0 8 else s.mem.read x.toNat := by
  have e3 : a + 2#32 + 1#32 = a + 3#32 := by bv_omega
  have hb : ∀ k, k + 8 ≤ 16 → ((v.extractLsb' 16 16).setWidth 32).extractLsb' k 8 = v.extractLsb' (16 + k) 8 := by
    intro k hk
    ext i hi
    simp only [BitVec.getElem_extractLsb', BitVec.getLsbD_setWidth, BitVec.getLsbD_extractLsb']
    have : k + i < 16 := by omega
    have h32 : k + i < 32 := by omega
    simp [this, h32, Nat.add_assoc]
  rw [State.poke32, State.poke16_read _ (State.poke16_wf _ h _ _), State.poke16_read _ h, e3, hb 8 (by omega),
    hb 0 (by omega), State.poke16_params]

end Sys2Proof.Machine
end

