-- ==== Sys2Proof/Laws/Ops.lean ====
section
/-! SUPPORT. What each shared operation of the machine does,
    said once (40_pipeline_condition.md R157 to R160; 60_exceptions.md
R375; 42_data_processing.md R201 to R206; 43_multiply.md R237, R238; 44_single_transfer.md R259, R260; 48_swap.md R352), the
platform doing nothing inside it. -/

namespace Sys2Proof.Machine

/-! ## Frames -/

theorem Frame.mono {s t : State} {l m : List PhysReg} {a b : List Banked} (h : Frame s t l a) (hl : ∀ p ∈ l, p ∈ m)
    (hb : ∀ p ∈ a, p ∈ b) : Frame s t m b :=
  ⟨fun p hp => h.regs p fun hq => hp (hl p hq), fun c hc => h.spsrs c fun hq => hc (hb c hq), h.latches, h.inputs, h.fixed⟩

theorem Frame.trans {s t u : State} {l : List PhysReg} {a : List Banked} (h : Frame s t l a) (h' : Frame t u l a) :
    Frame s u l a :=
  ⟨fun p hp => (h'.regs p hp).trans (h.regs p hp), fun b hb => (h'.spsrs b hb).trans (h.spsrs b hb),
    ⟨h'.latches.1.trans h.latches.1, h'.latches.2.1.trans h.latches.2.1, h'.latches.2.2.trans h.latches.2.2⟩,
    ⟨h'.inputs.1.trans h.inputs.1, h'.inputs.2.1.trans h.inputs.2.1, h'.inputs.2.2.trans h.inputs.2.2⟩,
    ⟨h'.fixed.1.trans h.fixed.1, h'.fixed.2.1.trans h.fixed.2.1, h'.fixed.2.2.trans h.fixed.2.2⟩⟩

/-- A state that differs in fields no frame speaks of. -/
theorem Frame.of_eq {s t : State} (hr : t.regs = s.regs)
    (hs : t.spsrFiq = s.spsrFiq ∧ t.spsrIrq = s.spsrIrq ∧ t.spsrSvc = s.spsrSvc ∧ t.spsrAbt = s.spsrAbt ∧
      t.spsrUnd = s.spsrUnd)
    (hl : t.fetch = s.fetch ∧ t.decode = s.decode ∧ t.execute = s.execute)
    (hi : t.irqLine = s.irqLine ∧ t.halted = s.halted ∧ t.agenda = s.agenda)
    (hf : t.params = s.params ∧ t.inside = s.inside ∧ t.stop = s.stop) : Frame s t [] :=
  ⟨fun p _ => State.phys_congr hr p, fun b _ => State.spsrOf_congr hs b, hl, hi, hf⟩

theorem Frame.nil {s t : State} {l : List PhysReg} {a : List Banked} (h : Frame s t []) : Frame s t l a :=
  h.mono (by simp) (by simp)

theorem State.mem_named {s : State} {n : Reg} {p : PhysReg} : p ∈ s.named n ↔ physical s.cpsr.mode n = some p := by
  simp [State.named]

theorem State.named_fifteen (s : State) : s.named 15 = [] := by
  simp [State.named, physical_eq_none.mpr]

/-- A register write changes only the register it names. -/
theorem Frame.setReg (s : State) (n : Reg) (v : Word) : Frame s (s.setReg n v) (s.named n) where
  regs p hp := by rw [State.phys_setReg, if_neg (mt State.mem_named.mpr hp)]
  spsrs b _ := State.spsrOf_congr (by simp) b
  latches := by simp
  inputs := by simp
  fixed := by simp

/-! ## The guarded write (40 R159) -/

theorem State.guardedWrite_register (s : State) {n : Reg} (h : n ≠ 15) (v : Word) :
    s.guardedWrite n v = (s.setReg n v).advancePC := by simp [State.guardedWrite, h]

theorem State.guardedWrite_fifteen (s : State) (v : Word) : s.guardedWrite 15 v = s.branch v := rfl

theorem State.branchedTo_branch (s : State) (a : Word) : BranchedTo (s.branch a) (a &&& branchMask s.cpsr.t) :=
  ⟨rfl, rfl⟩

theorem Frame.branch (s : State) (a : Word) : Frame s (s.branch a) [] := .of_eq (by simp) (by simp) (by simp) (by simp)
    (by simp)

theorem Frame.guardedWrite (s : State) (n : Reg) (v : Word) : Frame s (s.guardedWrite n v) (s.named n) := by
  by_cases h : n = 15
  · subst h; rw [State.guardedWrite_fifteen, State.named_fifteen]; exact Frame.branch s v
  · rw [State.guardedWrite_register s h]
    exact (Frame.setReg s n v).trans (Frame.nil (.of_eq (by simp) (by simp) (by simp) (by simp) (by simp)))

@[simp] theorem State.guardedWrite_cpsr (s : State) (n : Reg) (v : Word) : (s.guardedWrite n v).cpsr = s.cpsr := by
  unfold State.guardedWrite; split <;> simp

@[simp] theorem State.guardedWrite_mem (s : State) (n : Reg) (v : Word) : (s.guardedWrite n v).mem = s.mem := by
  unfold State.guardedWrite; split <;> simp

@[simp] theorem State.guardedWrite_wcnt (s : State) (n : Reg) (v : Word) : (s.guardedWrite n v).ws.wcnt = s.ws.wcnt := by
  unfold State.guardedWrite; split <;> simp

theorem State.guardedWrite_reg (s : State) {n : Reg} (h : n ≠ 15) (v : Word) : (s.guardedWrite n v).reg n = v := by
  rw [State.guardedWrite_register s h, State.reg_congr' (s := s.setReg n v) (by simp) (by simp) h,
      State.reg_setReg _ _ _ _ h,
    if_pos rfl]

theorem State.guardedWrite_falls (s : State) {n : Reg} (h : n ≠ 15) (v : Word) : FallsThrough s (s.guardedWrite n v) := by
  rw [State.guardedWrite_register s h]; exact ⟨by simp, by simp⟩

/-! ## Data processing (42 R201 to R206) -/

theorem State.beforeOperands_eq {s : State} (h : s.inside = []) (op2 : Operand2) :
    s.beforeOperands op2 =
      if Operand2.byRegister op2 then
        (s.advancePC.clock fun ws => ws.charge (s.params.inCart s.advancePC.r15) 1 1).note .internal
      else s := by
  unfold State.beforeOperands
  rw [State.internal_quiet (s := s.advancePC) h]
  rfl

theorem State.beforeOperands_fields {s : State} (h : s.inside = []) (op2 : Operand2) :
    (s.beforeOperands op2).cpsr = s.cpsr ∧ (s.beforeOperands op2).regs = s.regs ∧
      (s.beforeOperands op2).r15 = s.r15 + (if Operand2.byRegister op2 then 4#32 else 0#32) ∧
      (s.beforeOperands op2).refill = s.refill ∧ (s.beforeOperands op2).mem = s.mem ∧
      (s.beforeOperands op2).ws.wcnt = s.ws.wcnt ∧ (s.beforeOperands op2).inside = [] := by
  rw [State.beforeOperands_eq h]; split <;> simp [h]

theorem State.beforeOperands_cpsr {s : State} (h : s.inside = []) (op2 : Operand2) :
    (s.beforeOperands op2).cpsr = s.cpsr := (State.beforeOperands_fields h op2).1

theorem State.beforeOperands_r15 {s : State} (h : s.inside = []) (op2 : Operand2) :
    (s.beforeOperands op2).r15 = s.r15 + if Operand2.byRegister op2 then 4#32 else 0#32 :=
  (State.beforeOperands_fields h op2).2.2.1

theorem Frame.beforeOperands {s : State} (h : s.inside = []) (op2 : Operand2) : Frame s (s.beforeOperands op2) [] := by
  rw [State.beforeOperands_eq h]
  split
  · exact .of_eq (by simp) (by simp) (by simp) (by simp) (by simp)
  · exact .of_eq rfl (by simp) (by simp) (by simp) (by simp)

/-- The registers as a data-processing instruction reads them (R201, R202). -/
theorem State.beforeOperands_reg {s : State} (h : s.inside = []) (op2 : Operand2) (n : Reg) :
    (s.beforeOperands op2).reg n = s.operandReg op2 n := by
  unfold State.operandReg
  split
  · next h' => subst h'; rw [State.reg_fifteen, State.beforeOperands_r15 h]
  · next h' => exact State.reg_congr' (State.beforeOperands_fields h op2).2.1 (by rw [State.beforeOperands_cpsr h]) h'

theorem State.afterOperation_falls {s t : State} (op2 : Operand2)
    (hp : t.r15 = s.r15 + if Operand2.byRegister op2 then 4#32 else 0#32) (hr : t.refill = s.refill) :
    FallsThrough s (t.afterOperation op2) := by
  unfold State.afterOperation
  split
  · next h => exact ⟨by simp [hp, h], hr⟩
  · next h => exact ⟨by simp [hp, h], by simp [hr]⟩

theorem Frame.afterOperation (s : State) (op2 : Operand2) : Frame s (s.afterOperation op2) [] := by
  unfold State.afterOperation
  split
  · exact .of_eq rfl (by simp) (by simp) (by simp) (by simp)
  · exact .of_eq (by simp) (by simp) (by simp) (by simp) (by simp)

@[simp] theorem State.afterOperation_cpsr (s : State) (op2 : Operand2) : (s.afterOperation op2).cpsr = s.cpsr := by
  unfold State.afterOperation; split <;> simp

@[simp] theorem State.afterOperation_regs (s : State) (op2 : Operand2) : (s.afterOperation op2).regs = s.regs := by
  unfold State.afterOperation; split <;> simp

@[simp] theorem State.afterOperation_mem (s : State) (op2 : Operand2) : (s.afterOperation op2).mem = s.mem := by
  unfold State.afterOperation; split <;> simp

@[simp] theorem State.afterOperation_ws (s : State) (op2 : Operand2) : (s.afterOperation op2).ws = s.ws := by
  unfold State.afterOperation; split <;> simp

/-- The state in which the result of a data-processing instruction is written. -/
def State.atResult (s : State) (sf : Bool) (op2 : Operand2) (p : Cpsr) : State :=
  if sf then (s.beforeOperands op2).setCpsr p else s.beforeOperands op2

theorem State.atResult_fields {s : State} (h : s.inside = []) (sf : Bool) (op2 : Operand2) (p : Cpsr) :
    (s.atResult sf op2 p).cpsr = (if sf then p else s.cpsr) ∧
      (s.atResult sf op2 p).r15 = s.r15 + (if Operand2.byRegister op2 then 4#32 else 0#32) ∧
      (s.atResult sf op2 p).refill = s.refill ∧ (s.atResult sf op2 p).mem = s.mem ∧
      (s.atResult sf op2 p).ws.wcnt = s.ws.wcnt := by
  unfold State.atResult; split <;> simp [State.beforeOperands_fields h]

theorem Frame.atResult {s : State} (h : s.inside = []) (sf : Bool) (op2 : Operand2) (p : Cpsr) :
    Frame s (s.atResult sf op2 p) [] := by
  unfold State.atResult
  split
  · exact (Frame.beforeOperands h op2).trans (.of_eq (by simp) (by simp) (by simp) (by simp) (by simp))
  · exact Frame.beforeOperands h op2

/-- The operand 2 an instruction uses is the one the shifter section describes. -/
theorem State.operand2_eq {s : State} (h : s.inside = []) (op2 : Operand2) :
    (s.beforeOperands op2).operand2 op2 = s.shifted op2 := by
  cases op2 <;>
    simp [State.operand2, State.shifted, State.beforeOperands_reg h, State.operandReg, State.beforeOperands_cpsr h,
      Operand2.byRegister]

theorem State.dataProcess_eq {s : State} (h : s.inside = []) {op2 : Operand2} {f : State → Shifted → AluOut} {out : AluOut}
    (ho : f (s.beforeOperands op2) (s.shifted op2) = out) (sf : Bool) (rd : Reg) :
    s.dataProcess sf rd op2 f = (s.atResult sf op2 out.cpsr).writeResult op2 sf rd out.result := by
  subst ho; rw [← State.operand2_eq h]; rfl

/-- To a register: the result, the flags if S = 1, the next instruction, and nothing else. -/
theorem State.dataProcess_register {s : State} (hq : s.inside = []) {op2 : Operand2} {f : State → Shifted →
    AluOut} {out : AluOut}
    (ho : f (s.beforeOperands op2) (s.shifted op2) = out) (hm : out.cpsr.mode = s.cpsr.mode) (sf : Bool) {rd : Reg}
    (h : rd ≠ 15) :
    ∃ t, s.dataProcess sf rd op2 f = .next t ∧ t.reg rd = out.result ∧ t.cpsr = (if sf then out.cpsr else s.cpsr) ∧
      FallsThrough s t ∧ Frame s t (s.named rd) ∧ NoStore s t := by
  have hF := State.atResult_fields hq sf op2 out.cpsr
  have hmode : (s.atResult sf op2 out.cpsr).cpsr.mode = s.cpsr.mode := by
    rw [hF.1]; split
    · exact hm
    · rfl
  refine ⟨_, by rw [State.dataProcess_eq hq ho]; exact if_neg h, ?_, by simp [hF.1], ?_, ?_,
    ⟨by simp [hF.2.2.2.1], by simp [hF.2.2.2.2]⟩⟩
  · rw [State.reg_congr' (s := (s.atResult sf op2 out.cpsr).setReg rd out.result) (by simp) (by simp) h,
      State.reg_setReg _ _ _ _ h, if_pos rfl]
  · exact State.afterOperation_falls op2 (by simp [hF.2.1]) (by simp [hF.2.2.1])
  · refine (Frame.nil (Frame.atResult hq sf op2 out.cpsr)).trans (Frame.trans ?_ (Frame.nil (Frame.afterOperation ..)))
    have := Frame.setReg (s.atResult sf op2 out.cpsr) rd out.result
    rwa [State.named, hmode] at this

/-- To R15 with S = 0: a branch to the result, and nothing else. -/
theorem State.dataProcess_branch {s : State} (hq : s.inside = []) {op2 : Operand2} {f : State → Shifted →
    AluOut} {out : AluOut}
    (ho : f (s.beforeOperands op2) (s.shifted op2) = out) :
    ∃ t, s.dataProcess false 15 op2 f = .next t ∧ BranchedTo t (out.result &&& branchMask s.cpsr.t) ∧
      t.cpsr = s.cpsr ∧ Frame s t [] ∧ NoStore s t := by
  have hF := State.atResult_fields hq false op2 out.cpsr
  refine ⟨_, State.dataProcess_eq hq ho .., ⟨by simp [hF], rfl⟩, by simp [hF], ?_, by simp [hF], by simp [hF]⟩
  exact (Frame.atResult hq false op2 out.cpsr).trans (Frame.branch _ _)

/-- What `RestoreCPSR` does (40 R160): nothing without an SPSR. -/
theorem State.restoreCpsr_none {s : State} (h : s.cpsr.mode.banked = none) : s.restoreCpsr = .next s := by
  simp [State.restoreCpsr, h]

/-- The whole SPSR with a legal mode number. -/
theorem State.restoreCpsr_some {s : State} {b : Banked} {m : Mode} (h : s.cpsr.mode.banked = some b)
    (hm : Mode.ofCode (s.spsrOf b).m = some m) :
    ∃ p : Cpsr, s.restoreCpsr = .next (s.setCpsr p) ∧ p.save = s.spsrOf b ∧ p.mode = m ∧ p.t = (s.spsrOf b).t := by
  let q := s.spsrOf b
  refine ⟨⟨q.n, q.z, q.c, q.v, q.i, q.f, q.t, m⟩, by simp only [State.restoreCpsr, h, hm, q], ?_, rfl, rfl⟩
  simp [Cpsr.save, Mode.code_of_ofCode hm, q]

/-- A refusal with an illegal one. -/
theorem State.restoreCpsr_illegal {s : State} {b : Banked} (h : s.cpsr.mode.banked = some b)
    (hm : Mode.ofCode (s.spsrOf b).m = none) : s.restoreCpsr = .refused (.illegalMode (s.spsrOf b).m) := by
  simp [State.restoreCpsr, h, hm]

/-- The return from an exception (40 R160, 60 R376): all three outcomes. -/
theorem State.returnTo_cases (s : State) (v : Word) :
    match s.cpsr.mode.banked with
    | some b =>
      match Mode.ofCode (s.spsrOf b).m with
      | some m => ∃ p : Cpsr, s.returnTo v = .next ((s.setCpsr p).branch v) ∧ p.save = s.spsrOf b ∧ p.mode = m ∧
          p.t = (s.spsrOf b).t
      | none => s.returnTo v = .refused (.illegalMode (s.spsrOf b).m)
    | none => s.returnTo v = .next (s.branch v) := by
  split
  · next b hb =>
    split
    · next m hm =>
      obtain ⟨p, hp, h⟩ := State.restoreCpsr_some hb hm
      exact ⟨p, by simp [State.returnTo, hp, Result.andThen], h⟩
    · next hm => simp [State.returnTo, State.restoreCpsr_illegal hb hm, Result.andThen]
  · next hb => simp [State.returnTo, State.restoreCpsr_none hb, Result.andThen]

theorem Frame.setCpsr_branch (s : State) (p : Cpsr) (v : Word) : Frame s ((s.setCpsr p).branch v) [] :=
  .of_eq (by simp) (by simp) (by simp) (by simp) (by simp)

/-- To R15 with S = 1 (R206): the return from an exception in a mode with an SPSR, else the computed flags and a branch. -/
theorem State.dataProcess_return {s : State} (hq : s.inside = []) {op2 : Operand2} {f : State → Shifted →
    AluOut} {out : AluOut}
    (ho : f (s.beforeOperands op2) (s.shifted op2) = out) (hm : out.cpsr.mode = s.cpsr.mode)
    (hT : out.cpsr.t = s.cpsr.t) :
    match s.cpsr.mode.banked with
    | some b =>
      match Mode.ofCode (s.spsrOf b).m with
      | some m => ∃ t, s.dataProcess true 15 op2 f = .next t ∧ t.cpsr.save = s.spsrOf b ∧ t.cpsr.mode = m ∧
          BranchedTo t (out.result &&& branchMask (s.spsrOf b).t) ∧ Frame s t [] ∧ NoStore s t
      | none => s.dataProcess true 15 op2 f = .refused (.illegalMode (s.spsrOf b).m)
    | none => ∃ t, s.dataProcess true 15 op2 f = .next t ∧ t.cpsr = out.cpsr ∧
        BranchedTo t (out.result &&& branchMask s.cpsr.t) ∧ Frame s t [] ∧ NoStore s t := by
  have key := State.returnTo_cases (s.atResult true op2 out.cpsr) out.result
  have hQ : ∀ b, (s.atResult true op2 out.cpsr).spsrOf b = s.spsrOf b :=
    fun b => (Frame.atResult hq true op2 out.cpsr).spsrs b (by simp)
  have he : s.dataProcess true 15 op2 f = (s.atResult true op2 out.cpsr).returnTo out.result :=
    State.dataProcess_eq hq ho ..
  have hf : ∀ p : Cpsr, Frame s (((s.atResult true op2 out.cpsr).setCpsr p).branch out.result) [] :=
    fun p => (Frame.atResult hq true op2 out.cpsr).trans (Frame.setCpsr_branch ..)
  have hF := State.atResult_fields hq true op2 out.cpsr
  simp only [if_true] at hF
  simp only [hF.1, hm, hQ] at key
  rw [he]
  split
  · next b hb =>
    simp only [hb] at key
    split
    · next m hl =>
      simp only [hl] at key
      obtain ⟨p, hp, h1, h2, h3⟩ := key
      exact ⟨_, hp, by simpa using h1, by simpa using h2, ⟨by simp [h3], rfl⟩, hf p, by simp [hF], by simp [hF]⟩
    · next hl => simpa only [hl] using key
  · next hb =>
    simp only [hb] at key
    exact ⟨_, key, by simp [hF], ⟨by simp [hF, hT], rfl⟩, (Frame.atResult hq true op2 out.cpsr).trans (Frame.branch ..),
      by simp [hF], by simp [hF]⟩

/-- The compares (R215, R223). -/
theorem State.compare_flags {s : State} (hq : s.inside = []) {op2 : Operand2} {f : State → Shifted → AluOut} {out : AluOut}
    (ho : f (s.beforeOperands op2) (s.shifted op2) = out) :
    ∃ t, s.compare op2 f = .next t ∧ t.cpsr = out.cpsr ∧ FallsThrough s t ∧ Frame s t [] ∧ NoStore s t := by
  subst ho
  have hF := State.beforeOperands_fields hq op2
  refine ⟨_, rfl, by simp [State.operand2_eq hq], State.afterOperation_falls op2 (by simp [hF]) (by simp [hF]), ?_, by simp [hF],
    by simp [hF]⟩
  exact ((Frame.beforeOperands hq op2).trans (.of_eq (by simp) (by simp) (by simp) (by simp) (by simp))).trans
    (Frame.afterOperation ..)

/-! ## Reads and hooks: only the controller, the calls and the draws change (21 R112) -/

/-- `t` is `s` after calls that store nothing, the platform doing nothing inside them. -/
structure Still (s t : State) : Prop where
  eq : t = { s with ws := t.ws, calls := t.calls, draws := t.draws }
  control : t.ws.wcnt = s.ws.wcnt

theorem Still.refl (s : State) : Still s s := ⟨rfl, rfl⟩

theorem Still.trans {s t u : State} (h : Still s t) (h' : Still t u) : Still s u := by
  refine ⟨?_, h'.control.trans h.control⟩
  rw [h'.eq, h.eq]

theorem Still.frame {s t : State} (h : Still s t) : Frame s t [] := by
  rw [h.eq]; exact .of_eq rfl ⟨rfl, rfl, rfl, rfl, rfl⟩ ⟨rfl, rfl, rfl⟩ ⟨rfl, rfl, rfl⟩ ⟨rfl, rfl, rfl⟩

theorem Still.regs {s t : State} (h : Still s t) : t.regs = s.regs := by rw [h.eq]
theorem Still.r15 {s t : State} (h : Still s t) : t.r15 = s.r15 := by rw [h.eq]
theorem Still.cpsr {s t : State} (h : Still s t) : t.cpsr = s.cpsr := by rw [h.eq]
theorem Still.refill {s t : State} (h : Still s t) : t.refill = s.refill := by rw [h.eq]
theorem Still.mem {s t : State} (h : Still s t) : t.mem = s.mem := by rw [h.eq]
theorem Still.params {s t : State} (h : Still s t) : t.params = s.params := by rw [h.eq]
theorem Still.inside {s t : State} (h : Still s t) : t.inside = s.inside := by rw [h.eq]
theorem Still.quiet {s t : State} (h : Still s t) (hq : s.inside = []) : t.inside = [] := h.inside.trans hq

theorem Still.reg {s t : State} (h : Still s t) (n : Reg) : t.reg n = s.reg n :=
  State.reg_congr h.regs h.r15 (by rw [h.cpsr]) n

theorem Still.answered (s : State) (a : Word) (n : Nat) : Still s (s.answered a n) := by
  unfold State.answered; split <;> exact ⟨rfl, rfl⟩

/-- A call: the clock runs and the call is noted. -/
theorem Still.noted (s : State) (f : WaitState → WaitState) (hf : ∀ ws, (f ws).wcnt = ws.wcnt) (c : BusCall) :
    Still s ((s.clock f).note c) := ⟨rfl, hf _⟩

/-- The accesses that read: the read may also change what a device answers next. -/
theorem Still.access (s : State) (f : WaitState → WaitState) (hf : ∀ ws, (f ws).wcnt = ws.wcnt) (c : BusCall) (a : Word)
    (n : Nat) : Still s (((s.clock f).note c).answered a n) := (Still.noted s f hf c).trans (.answered _ a n)

section quiet

variable {s : State} (h : s.inside = [])
include h

theorem Still.nonSeq : Still s s.nonSeq := by rw [State.nonSeq_quiet h]; exact .noted _ _ (by simp) _
theorem Still.internal : Still s s.internal := by rw [State.internal_quiet h]; exact .noted _ _ (by simp) _
theorem Still.multiplier (m : Nat) : Still s (s.multiplier m) := by
  rw [State.multiplier_quiet h]; exact .noted _ _ (by simp) _
theorem Still.bulkCharge (n : Nat) (a : Word) : Still s (s.bulkCharge n a) := by
  rw [State.bulkCharge_quiet h]; exact .noted _ _ (by simp) _
theorem Still.fetch32 (a : Word) : Still s (s.fetch32 a).2 := by
  rw [State.fetch32_quiet h]; exact .access _ _ (by simp) _ _ _
theorem Still.memRead8 (a : Word) (t : BusAttr) : Still s (s.memRead8 a t).2 := by
  rw [State.memRead8_quiet h]; exact .access _ _ (by simp [State.dataCost]) _ _ _
theorem Still.memRead16 (a : Word) (t : BusAttr) : Still s (s.memRead16 a t).2 := by
  rw [State.memRead16_quiet h]; exact .access _ _ (by simp [State.dataCost]) _ _ _
theorem Still.memRead32 (a : Word) (t : BusAttr) : Still s (s.memRead32 a t).2 := by
  rw [State.memRead32_quiet h]; exact .access _ _ (by simp [State.dataCost]) _ _ _

/-- What a read gives depends on memory, the control value, the draws and the parameters alone, which hooks leave. -/
theorem State.peek_nonSeq (a : Word) :
    s.nonSeq.byteAt a = s.byteAt a ∧ s.nonSeq.peek8 a = s.peek8 a ∧ s.nonSeq.peek16 a = s.peek16 a ∧
      s.nonSeq.peek32 a = s.peek32 a := by
  rw [State.nonSeq_quiet h]; exact State.peek_access s _ (by simp) _ a

end quiet

theorem Still.memReadRaw32 (s : State) (a : Word) : Still s (s.memReadRaw32 a).2 :=
  Still.trans (t := s.note (.memReadRaw32 a)) ⟨rfl, rfl⟩ (Still.answered _ a 4)

/-! ## The multiplies (43 R231 to R238) -/

theorem State.mulFlags_cpsr (s : State) (sf n z : Bool) :
    (s.mulFlags sf n z).cpsr = if sf then { s.cpsr with n := n, z := z } else s.cpsr := by
  unfold State.mulFlags Cpsr.multiply; split <;> simp

theorem State.mulFlags_mode (s : State) (sf n z : Bool) : (s.mulFlags sf n z).cpsr.mode = s.cpsr.mode := by
  rw [State.mulFlags_cpsr]; split <;> rfl

theorem State.mulFlags_t (s : State) (sf n z : Bool) : (s.mulFlags sf n z).cpsr.t = s.cpsr.t := by
  rw [State.mulFlags_cpsr]; split <;> rfl

/-- `mulFlags` writes CPSR alone. -/
theorem State.mulFlags_eq (s : State) (sf n z : Bool) :
    s.mulFlags sf n z = s.setCpsr (s.mulFlags sf n z).cpsr := by
  unfold State.mulFlags; split <;> rfl

theorem Frame.mulFlags (s : State) (sf n z : Bool) : Frame s (s.mulFlags sf n z) [] := by
  rw [State.mulFlags_eq]; exact .of_eq (by simp) (by simp) (by simp) (by simp) (by simp)

/-! ## Loads (44 R259) -/

theorem State.writeBack_cpsr (s : State) (rn : Reg) (wb : Option Word) : (s.writeBack rn wb).cpsr = s.cpsr := by
  cases wb <;> simp [State.writeBack]

theorem State.writeBack_other (s : State) (rn : Reg) (wb : Option Word) :
    (s.writeBack rn wb).r15 = s.r15 ∧ (s.writeBack rn wb).refill = s.refill ∧ (s.writeBack rn wb).mem = s.mem ∧
      (s.writeBack rn wb).ws = s.ws ∧ (s.writeBack rn wb).params = s.params ∧ (s.writeBack rn wb).inside = s.inside := by
  cases wb <;> simp [State.writeBack]

theorem Frame.writeBack (s : State) (rn : Reg) (wb : Option Word) :
    Frame s (s.writeBack rn wb) (s.writtenBack rn wb.isSome) := by
  cases wb with
  | none => exact Frame.nil (.of_eq rfl ⟨rfl, rfl, rfl, rfl, rfl⟩ ⟨rfl, rfl, rfl⟩ ⟨rfl, rfl, rfl⟩ ⟨rfl, rfl, rfl⟩)
  | some v => simpa [State.writeBack, State.writtenBack] using Frame.setReg s rn v

theorem State.writeBack_reg (s : State) {rn : Reg} {wb : Option Word} {v : Word} (h : wb = some v) (hn : rn ≠ 15) :
    (s.writeBack rn wb).reg rn = v := by
  subst h; simp [State.writeBack, State.reg_setReg _ _ _ _ hn]

/-- A load that is not refused: what the destination and the base become, and nothing else. `r` is what was read. -/
theorem State.load_next {s : State} (hq : s.inside = []) (e : Effective) (rn rd : Reg) (read : State → Word → Word × State)
    (hread : Still s.nonSeq (read s.nonSeq e.addr).2) (h : rn = 15 → e.writeback = none) :
    ∃ t, s.load e rn rd read = .next t ∧ t.cpsr = s.cpsr ∧
      (rd ≠ 15 → t.reg rd = (read s.nonSeq e.addr).1 ∧ FallsThrough s t) ∧
      (rd = 15 → BranchedTo t ((read s.nonSeq e.addr).1 &&& branchMask s.cpsr.t)) ∧
      (∀ v, e.writeback = some v → rn ≠ rd → t.reg rn = v) ∧
      Frame s t (s.named rd ++ s.writtenBack rn e.writeback.isSome) ∧ NoStore s t := by
  have hcond : ¬ (rn = 15 ∧ e.writeback.isSome = true) := fun ⟨a, b⟩ => by simp [h a] at b
  have hst0 : Still s (read s.nonSeq e.addr).2 := (Still.nonSeq hq).trans hread
  have hst : Still s ((read s.nonSeq e.addr).2.nonSeq) := hst0.trans (Still.nonSeq (hst0.quiet hq))
  generalize hs1 : (read s.nonSeq e.addr).2.nonSeq = s1 at hst
  have ho := State.writeBack_other s1 rn e.writeback
  have hin : Still (s1.writeBack rn e.writeback) (s1.writeBack rn e.writeback).internal :=
    Still.internal (ho.2.2.2.2.2.trans (hst.quiet hq))
  have hcp : ((s1.writeBack rn e.writeback).internal).cpsr = s.cpsr := by
    rw [hin.cpsr, State.writeBack_cpsr, hst.cpsr]
  have heq : s.load e rn rd read =
      .next (((s1.writeBack rn e.writeback).internal).guardedWrite rd (read s.nonSeq e.addr).1) := by
    rw [← hs1]; exact if_neg hcond
  generalize (read s.nonSeq e.addr).1 = v at heq
  refine ⟨_, heq, ?_, ?_, ?_, ?_, ?_, ?_⟩
  · rw [State.guardedWrite_cpsr, hcp]
  · intro hrd
    refine ⟨State.guardedWrite_reg _ hrd _, ?_⟩
    have := State.guardedWrite_falls ((s1.writeBack rn e.writeback).internal) hrd v
    exact ⟨by rw [this.pc, hin.r15, ho.1, hst.r15], by rw [this.refill, hin.refill, ho.2.1, hst.refill]⟩
  · intro hrd
    subst hrd
    rw [State.guardedWrite_fifteen, ← hcp]
    exact State.branchedTo_branch _ _
  · intro x hv hne
    have hn : rn ≠ 15 := fun e' => by simp [h e'] at hv
    have hwb : ((s1.writeBack rn e.writeback).internal).reg rn = x := by
      rw [hin.reg, State.writeBack_reg s1 hv hn]
    by_cases hrd : rd = 15
    · subst hrd
      rw [State.guardedWrite_fifteen,
        State.reg_congr' (s := (s1.writeBack rn e.writeback).internal) (by simp) (by simp) hn, hwb]
    · rw [State.guardedWrite_register _ hrd, 
        State.reg_congr' (s := (s1.writeBack rn e.writeback).internal.setReg rd v) (by simp) (by simp) hn,
        State.reg_setReg _ _ _ _ hrd, if_neg hne, hwb]
  · have hn : ∀ n, (s1.writeBack rn e.writeback).internal.named n = s.named n := fun n => by rw [State.named, hcp,
        State.named]
    have hw : s1.writtenBack rn e.writeback.isSome = s.writtenBack rn e.writeback.isSome := by
      simp [State.writtenBack, State.named, hst.cpsr]
    refine (Frame.nil hst.frame).trans (Frame.trans (Frame.mono (Frame.writeBack s1 rn e.writeback) ?_ (by simp)) ?_)
    · rw [hw]; exact fun p hp => List.mem_append.mpr (Or.inr hp)
    · refine (Frame.nil hin.frame).trans (Frame.mono (Frame.guardedWrite _ rd _) ?_ (by simp))
      rw [hn]; exact fun p hp => List.mem_append.mpr (Or.inl hp)
  · exact ⟨by simp [hin.mem, ho.2.2.1, hst.mem], by simp [hin.control, ho.2.2.2.1, hst.control]⟩

/-! ## Writes (20 R62, R67) -/

/-- `t` is `s` after a write of the `n` low bytes of `v` from `a`. -/
structure Wrote (s t : State) (a : Word) (n : Nat) (v : Word) : Prop where
  stored : Stored s t a n v
  frame : Frame s t []
  r15 : t.r15 = s.r15
  refill : t.refill = s.refill
  cpsr : t.cpsr = s.cpsr
  wf : t.mem.wf

theorem Wrote.quiet {s t : State} {a : Word} {n : Nat} {v : Word} (h : Wrote s t a n v) (hq : s.inside = []) :
    t.inside = [] := h.frame.fixed.2.1.trans hq

theorem Stored.congr {s s' t t' : State} {a : Word} {n : Nat} {v : Word} (h : Stored s t a n v) (hm : s.mem = s'.mem)
    (hw : s.ws.wcnt = s'.ws.wcnt) (hp : s'.params = s.params) (hm' : t'.mem = t.mem) (hw' : t'.ws.wcnt = t.ws.wcnt) :
    Stored s' t' a n v :=
  ⟨fun k hk hio => hm' ▸ h.bytes k hk (hp ▸ hio), fun x hx => by rw [hm', h.others x (hp ▸ hx), hm],
    fun h1 h2 => by rw [hp] at h1 h2; rw [hw', h.control h1 h2, hw]⟩

theorem within_zero (a : Word) {n : Nat} (h : 0 < n) : within a n a := ⟨0, h, by simp⟩

theorem within_add (a : Word) {k n : Nat} (h : k < n) : within a n (a + BitVec.ofNat 32 k) := ⟨k, h, rfl⟩

theorem State.pokeByte_wcnt_other (s : State) {a : Word} (h : a ≠ s.params.waitControl)
    (h' : a ≠ s.params.waitControl + 1#32) (b : Byte) : (s.pokeByte a b).ws = s.ws := by
  unfold State.pokeByte; rw [if_neg h, if_neg h']; split <;> rfl

/-- A byte of a store that misses the wait-control register leaves the controller alone. -/
theorem State.pokeByte_ws_other {s x : State} {a : Word} {n k : Nat} (h1 : ¬ within a n s.params.waitControl)
    (h2 : ¬ within a n (s.params.waitControl + 1#32)) (hx : x.params = s.params) (hk : k < n) (b : Byte) :
    (x.pokeByte (a + BitVec.ofNat 32 k) b).ws = x.ws :=
  State.pokeByte_wcnt_other x (fun e => h1 (by rw [← hx, ← e]; exact within_add a hk))
    (fun e => h2 (by rw [← hx, ← e]; exact within_add a hk)) b

theorem State.pokeByte_stored {s : State} (h : s.mem.wf)
    (a v : Word) : Stored s (s.pokeByte a (v.extractLsb' 0 8)) a 1 v where
  bytes k hk hio := by
    obtain rfl : k = 0 := by omega
    simp only [BitVec.add_zero] at hio ⊢
    rw [State.pokeByte_read s h, if_pos ⟨rfl, hio⟩]
  others x hx := by
    rw [State.pokeByte_read s h, if_neg]
    rintro ⟨rfl, hio⟩
    rcases hx with hx | hx
    · exact hx (within_zero _ (by omega))
    · simp [hio] at hx
  control h1 h2 := by
    rw [State.pokeByte_wcnt_other s (fun e => h1 (e ▸ within_zero _ (by omega))) fun e => h2 (e ▸ within_zero _ (by omega))]

theorem State.poke16_stored {s : State} (h : s.mem.wf) (a v : Word) : Stored s (s.poke16 a v) a 2 v where
  bytes k hk hio := by
    rw [State.poke16_read s h]
    have : k = 0 ∨ k = 1 := by omega
    rcases this with rfl | rfl <;> simp_all
  others x hx := by
    rw [State.poke16_read s h]
    have h0 : ¬ (x = a ∧ s.params.isIo a = false) := by
      rintro ⟨rfl, hio⟩; rcases hx with hx | hx
      · exact hx (within_zero _ (by omega))
      · simp [hio] at hx
    have h1 : ¬ (x = a + 1#32 ∧ s.params.isIo (a + 1#32) = false) := by
      rintro ⟨rfl, hio⟩; rcases hx with hx | hx
      · exact hx (within_add a (k := 1) (by omega))
      · simp [hio] at hx
    rw [if_neg h1, if_neg h0]
  control h1 h2 := by
    have e0 : ∀ b, (s.pokeByte a b).ws = s.ws := fun b => by simpa using State.pokeByte_ws_other h1 h2 rfl (k := 0) (by omega) b
    rw [State.poke16, State.pokeByte_ws_other h1 h2 (by simp) (k := 1) (by omega), e0]

theorem State.poke32_stored {s : State} (h : s.mem.wf) (a v : Word) : Stored s (s.poke32 a v) a 4 v where
  bytes k hk hio := by
    rw [State.poke32_read s h]
    have : k = 0 ∨ k = 1 ∨ k = 2 ∨ k = 3 := by omega
    rcases this with rfl | rfl | rfl | rfl <;> simp_all
  others x hx := by
    rw [State.poke32_read s h]
    have key : ∀ k, k < 4 → ¬ (x = a + BitVec.ofNat 32 k ∧ s.params.isIo (a + BitVec.ofNat 32 k) = false) := by
      rintro k hk ⟨rfl, hio⟩; rcases hx with hx | hx
      · exact hx (within_add a hk)
      · simp [hio] at hx
    have h0 := key 0 (by omega)
    simp only [BitVec.add_zero] at h0
    rw [if_neg (key 3 (by omega)), if_neg (key 2 (by omega)), if_neg (key 1 (by omega)), if_neg h0]
  control h1 h2 := by
    have e0 : ∀ b, (s.pokeByte a b).ws = s.ws := fun b => by simpa using State.pokeByte_ws_other h1 h2 rfl (k := 0) (by omega) b
    have e3 : a + 2#32 + 1#32 = a + 3#32 := by bv_omega
    rw [State.poke32, State.poke16, State.poke16, e3, State.pokeByte_ws_other h1 h2 (by simp) (k := 3) (by omega),
      State.pokeByte_ws_other h1 h2 (by simp) (k := 2) (by omega),
      State.pokeByte_ws_other h1 h2 (by simp) (k := 1) (by omega), e0]

theorem Wrote.of_stored {s s' t : State} (hs : Still s s') {a v : Word} {n : Nat} (h : Stored s' t a n v)
    (hf : Frame s' t []) (hp : t.r15 = s'.r15 ∧ t.refill = s'.refill ∧ t.cpsr = s'.cpsr) (hw : t.mem.wf) :
    Wrote s t a n v :=
  ⟨h.congr hs.mem hs.control hs.params.symm rfl rfl, hs.frame.trans hf, hp.1.trans hs.r15, hp.2.1.trans hs.refill,
    hp.2.2.trans hs.cpsr, hw⟩

theorem Frame.pokeByte (s : State) (a : Word) (b : Byte) : Frame s (s.pokeByte a b) [] :=
  .of_eq (by simp) (by simp) (by simp) (by simp) (by simp)
theorem Frame.poke16 (s : State) (a v : Word) : Frame s (s.poke16 a v) [] :=
  .of_eq (by simp) (by simp) (by simp) (by simp) (by simp)
theorem Frame.poke32 (s : State) (a v : Word) : Frame s (s.poke32 a v) [] :=
  .of_eq (by simp) (by simp) (by simp) (by simp) (by simp)

theorem State.memWrite8_wrote {s : State} (hq : s.inside = []) (h : s.mem.wf) (a v : Word) (t : BusAttr) :
    Wrote s (s.memWrite8 a v t) a 1 v := by
  have hs := Still.noted s (s.dataCost a false) (by simp [State.dataCost]) (.memWrite a 1 (v &&& 0xFF#32) t)
  have h' := hs.mem.symm ▸ h
  rw [State.memWrite8_quiet hq]
  exact .of_stored hs (State.pokeByte_stored h' a v) (Frame.pokeByte ..) (by simp) (State.pokeByte_wf _ h' _ _)

theorem State.memWrite16_wrote {s : State} (hq : s.inside = []) (h : s.mem.wf) (a v : Word) (t : BusAttr) :
    Wrote s (s.memWrite16 a v t) a 2 v := by
  have hs := Still.noted s (s.dataCost a false) (by simp [State.dataCost]) (.memWrite a 2 (v &&& 0xFFFF#32) t)
  have h' := hs.mem.symm ▸ h
  rw [State.memWrite16_quiet hq]
  exact .of_stored hs (State.poke16_stored h' a v) (Frame.poke16 ..) (by simp) (State.poke16_wf _ h' _ _)

theorem State.memWrite32_wrote {s : State} (hq : s.inside = []) (h : s.mem.wf) (a v : Word) (t : BusAttr) :
    Wrote s (s.memWrite32 a v t) a 4 v := by
  have hs := Still.noted s (s.dataCost a true) (by simp [State.dataCost]) (.memWrite a 4 v t)
  have h' := hs.mem.symm ▸ h
  rw [State.memWrite32_quiet hq]
  exact .of_stored hs (State.poke32_stored h' a v) (Frame.poke32 ..) (by simp) (State.poke32_wf _ h' _ _)

theorem State.memWriteRaw32_wrote {s : State} (h : s.mem.wf) (a v : Word) : Wrote s (s.memWriteRaw32 a v) a 4 v := by
  have hs : Still s (s.note (.memWriteRaw32 a v)) := ⟨rfl, rfl⟩
  have h' := hs.mem.symm ▸ h
  rw [State.memWriteRaw32]
  exact .of_stored hs (State.poke32_stored h' a v) (Frame.poke32 ..) (by simp) (State.poke32_wf _ h' _ _)

/-- R15 is stored as the instruction's address plus `STORE_PC_OFF` (44 R261). -/
theorem State.storeValue_eq (s : State) (n : Reg) : s.storeValue n = if n = 15 then s.storedPc else s.reg n := by
  unfold State.storeValue State.storedPc; rfl

/-- A store that is not refused (44 R260). -/
theorem State.store_next {s : State} (hq : s.inside = []) {e : Effective} {rn rd : Reg} {write : State → Word → Word →
    State} {first : Word}
    {n : Nat} (hw : Wrote s.nonSeq (write s.nonSeq e.addr (s.storeValue rd)) first n (s.storeValue rd))
    (h : rn = 15 → e.writeback = none) :
    ∃ t, s.store e rn rd write = .next t ∧ Stored s t first n (s.storeValue rd) ∧
      (∀ v, e.writeback = some v → t.reg rn = v) ∧ t.cpsr = s.cpsr ∧ FallsThrough s t ∧
      Frame s t (s.writtenBack rn e.writeback.isSome) := by
  have hcond : ¬ (rn = 15 ∧ e.writeback.isSome = true) := fun ⟨a, b⟩ => by simp [h a] at b
  have heq : s.store e rn rd write =
      .next (((write s.nonSeq e.addr (s.storeValue rd)).nonSeq.writeBack rn e.writeback).advancePC) := if_neg hcond
  have h0 := Still.nonSeq hq
  have h1 := Still.nonSeq (hw.quiet (h0.quiet hq))
  generalize write s.nonSeq e.addr (s.storeValue rd) = s1 at heq hw h1
  have ho := State.writeBack_other s1.nonSeq rn e.writeback
  refine ⟨_, heq, ?_, ?_, ?_, ?_, ?_⟩
  · exact hw.stored.congr h0.mem h0.control h0.params.symm (by simp [ho.2.2.1, h1.mem]) (by simp [ho.2.2.2.1, h1.control])
  · intro v hv
    have hn : rn ≠ 15 := fun e' => by simp [h e'] at hv
    rw [State.reg_congr' (s := s1.nonSeq.writeBack rn e.writeback) (by simp) (by simp) hn, State.writeBack_reg _ hv hn]
  · simp [State.writeBack_cpsr, h1.cpsr, hw.cpsr, h0.cpsr]
  · exact ⟨by simp [ho.1, h1.r15, hw.r15, h0.r15], by simp [ho.2.1, h1.refill, hw.refill, h0.refill]⟩
  · have hb : s1.nonSeq.writtenBack rn e.writeback.isSome = s.writtenBack rn e.writeback.isSome := by
      simp [State.writtenBack, State.named, h1.cpsr, hw.cpsr, h0.cpsr]
    refine (Frame.nil (h0.frame.trans (hw.frame.trans h1.frame))).trans ?_
    rw [← hb]
    exact (Frame.writeBack s1.nonSeq rn e.writeback).trans (Frame.nil (.of_eq (by simp) (by simp) (by simp) (by simp)
        (by simp)))

/-- A swap (48 R352): what is read, what is stored, and the guarded write. -/
theorem State.swap_next {s : State} (hq : s.inside = []) {rn rd rm : Reg} {read : State → Word → Word × State}
    {write : State → Word → Word → State} {first : Word} {n : Nat}
    (hr : Still s.nonSeq (read s.nonSeq (s.reg rn)).2)
    (hw : Wrote (read s.nonSeq (s.reg rn)).2 (write (read s.nonSeq (s.reg rn)).2 (s.reg rn) (s.reg rm)) first n (s.reg rm)) :
    let t := s.swap rn rd rm read write
    (rd ≠ 15 → t.reg rd = (read s.nonSeq (s.reg rn)).1 ∧ FallsThrough s t) ∧
      (rd = 15 → BranchedTo t ((read s.nonSeq (s.reg rn)).1 &&& branchMask s.cpsr.t)) ∧
      Stored s t first n (s.reg rm) ∧ t.cpsr = s.cpsr ∧ Frame s t (s.named rd) := by
  have hs := (Still.nonSeq hq).trans hr
  have heq : s.swap rn rd rm read write =
      ((write (read s.nonSeq (s.reg rn)).2 (s.reg rn) (s.reg rm)).nonSeq.internal).guardedWrite rd
        (read s.nonSeq (s.reg rn)).1 := rfl
  generalize (read s.nonSeq (s.reg rn)).1 = v at heq
  have hq1 := hw.quiet (hs.quiet hq)
  generalize write (read s.nonSeq (s.reg rn)).2 (s.reg rn) (s.reg rm) = s1 at heq hw hq1
  have h1 : Still s1 s1.nonSeq.internal := (Still.nonSeq hq1).trans (Still.internal ((Still.nonSeq hq1).quiet hq1))
  have hc : s1.nonSeq.internal.cpsr = s.cpsr := by rw [h1.cpsr, hw.cpsr, hs.cpsr]
  intro t
  simp only [t, heq]
  refine ⟨fun hrd => ⟨State.guardedWrite_reg _ hrd _, ?_⟩, ?_, ?_, by simp [hc], ?_⟩
  · have := State.guardedWrite_falls s1.nonSeq.internal hrd v
    exact ⟨by rw [this.pc, h1.r15, hw.r15, hs.r15], by rw [this.refill, h1.refill, hw.refill, hs.refill]⟩
  · intro hrd
    subst hrd
    rw [← hc]
    exact State.branchedTo_branch _ _
  · exact hw.stored.congr hs.mem hs.control hs.params.symm (by simp [h1.mem]) (by simp [h1.control])
  · refine (Frame.nil (hs.frame.trans (hw.frame.trans h1.frame))).trans ?_
    have := Frame.guardedWrite s1.nonSeq.internal rd v
    rwa [State.named, hc] at this

/-- The end of MUL and MLA (43 R231, R232), from a state `s'` after the multiplier call. -/
theorem State.finishMul_next {s s' : State} (hs : Still s s') (sf : Bool) (rd : Reg) (r : Word) :
    let t := s'.finishMul sf rd r
    (rd ≠ 15 → t.reg rd = r ∧ FallsThrough s t) ∧ (rd = 15 → BranchedTo t (r &&& branchMask s.cpsr.t)) ∧
      t.cpsr = s.cpsr.ofProduct sf r ∧ Frame s t (s.named rd) ∧ NoStore s t := by
  have hf := hs.frame.trans (Frame.mulFlags s' sf r.msb (r == 0#32))
  have hm : (s'.mulFlags sf r.msb (r == 0#32)).cpsr.mode = s.cpsr.mode := by rw [State.mulFlags_mode, hs.cpsr]
  have hT : (s'.mulFlags sf r.msb (r == 0#32)).cpsr.t = s.cpsr.t := by rw [State.mulFlags_t, hs.cpsr]
  have hc : (s'.mulFlags sf r.msb (r == 0#32)).cpsr = s.cpsr.ofProduct sf r := by
    rw [State.mulFlags_cpsr, hs.cpsr]
    simp [Cpsr.ofProduct, Bool.beq_eq_decide_eq]
  have hp : (s'.mulFlags sf r.msb (r == 0#32)).r15 = s.r15 := by rw [State.mulFlags_eq]; simp [hs.r15]
  have hr : (s'.mulFlags sf r.msb (r == 0#32)).refill = s.refill := by rw [State.mulFlags_eq]; simp [hs.refill]
  have hmem : (s'.mulFlags sf r.msb (r == 0#32)).mem = s.mem := by rw [State.mulFlags_eq]; simp [hs.mem]
  have hw : (s'.mulFlags sf r.msb (r == 0#32)).ws.wcnt = s.ws.wcnt := by rw [State.mulFlags_eq]; simp [hs.control]
  intro t
  have ht : t = (s'.mulFlags sf r.msb (r == 0#32)).guardedWrite rd r := rfl
  generalize s'.mulFlags sf r.msb (r == 0#32) = s1 at *
  clear_value t
  subst ht
  refine ⟨fun h => ⟨State.guardedWrite_reg _ h _, ?_⟩, ?_, by simp [hc], ?_, by simp [hmem], by simp [hw]⟩
  · have := State.guardedWrite_falls s1 h r
    exact ⟨by rw [this.pc, hp], by rw [this.refill, hr]⟩
  · rintro rfl; rw [← hT]; exact State.branchedTo_branch _ _
  · have := Frame.guardedWrite s1 rd r
    rw [State.named, hm] at this
    exact (Frame.nil hf).trans this

/-- A long multiply (43 R237, R238): both halves, RdHi last, and the flags of the 64-bit value. -/
theorem State.finishLong_next {s : State} (hq : s.inside = []) (sf : Bool) (rdHi rdLo : Reg) (r : BitVec 64) (m : Nat) :
    let t := s.finishLong sf rdHi rdLo r m
    (rdHi ≠ 15 → t.reg rdHi = hi64 r ∧ FallsThrough s t) ∧
      (rdHi = 15 → BranchedTo t (hi64 r &&& branchMask s.cpsr.t)) ∧
      (rdLo ≠ 15 → rdLo ≠ rdHi → t.reg rdLo = lo64 r) ∧ t.cpsr = s.cpsr.ofProduct sf r ∧
      Frame s t (s.named rdHi ++ s.named rdLo) ∧ NoStore s t := by
  have hs := Still.multiplier hq m
  have hf := hs.frame.trans (Frame.mulFlags (s.multiplier m) sf r.msb (r == 0#64))
  have hc : ((s.multiplier m).mulFlags sf r.msb (r == 0#64)).cpsr = s.cpsr.ofProduct sf r := by
    rw [State.mulFlags_cpsr, hs.cpsr]
    simp [Cpsr.ofProduct, Bool.beq_eq_decide_eq]
  have hm : ((s.multiplier m).mulFlags sf r.msb (r == 0#64)).cpsr.mode = s.cpsr.mode := by
    rw [State.mulFlags_mode, hs.cpsr]
  have hT : ((s.multiplier m).mulFlags sf r.msb (r == 0#64)).cpsr.t = s.cpsr.t := by rw [State.mulFlags_t, hs.cpsr]
  have hp : ((s.multiplier m).mulFlags sf r.msb (r == 0#64)).r15 = s.r15 := by rw [State.mulFlags_eq]; simp [hs.r15]
  have hr : ((s.multiplier m).mulFlags sf r.msb (r == 0#64)).refill = s.refill := by
    rw [State.mulFlags_eq]; simp [hs.refill]
  have hmem : ((s.multiplier m).mulFlags sf r.msb (r == 0#64)).mem = s.mem := by rw [State.mulFlags_eq]; simp [hs.mem]
  have hw : ((s.multiplier m).mulFlags sf r.msb (r == 0#64)).ws.wcnt = s.ws.wcnt := by
    rw [State.mulFlags_eq]; simp [hs.control]
  intro t
  have ht : t = ((s.multiplier m).mulFlags sf r.msb (r == 0#64)).writeLong rdLo rdHi r := rfl
  generalize (s.multiplier m).mulFlags sf r.msb (r == 0#64) = s1 at *
  -- the state after the low half
  have hlow : ∃ s2, (if rdLo = 15 then s1 else s1.setReg rdLo (lo64 r)) = s2 ∧ s2.cpsr = s1.cpsr ∧ s2.r15 = s1.r15 ∧
      s2.refill = s1.refill ∧ s2.mem = s1.mem ∧ s2.ws = s1.ws ∧ (rdLo ≠ 15 → s2.reg rdLo = lo64 r) ∧
      Frame s1 s2 (s.named rdLo) := by
    by_cases h : rdLo = 15
    · exact ⟨s1, if_pos h, rfl, rfl, rfl, rfl, rfl, fun h' => absurd h h',
        Frame.nil (.of_eq rfl (by simp) (by simp) (by simp) (by simp))⟩
    · refine ⟨_, if_neg h, by simp, by simp, by simp, by simp, by simp, fun _ => ?_, ?_⟩
      · rw [State.reg_setReg _ _ _ _ h, if_pos rfl]
      · have := Frame.setReg s1 rdLo (lo64 r); rwa [State.named, hm] at this
  obtain ⟨s2, e2, h2c, h2p, h2r, h2m, h2w, h2lo, h2f⟩ := hlow
  have ht' : t = s2.guardedWrite rdHi (hi64 r) := by rw [ht, State.writeLong, e2]
  clear_value t
  subst ht'
  refine ⟨fun h => ⟨State.guardedWrite_reg _ h _, ?_⟩, ?_, fun hl hne => ?_, by simp [h2c, hc], ?_, ?_, ?_⟩
  · have := State.guardedWrite_falls s2 h (hi64 r)
    exact ⟨by rw [this.pc, h2p, hp], by rw [this.refill, h2r, hr]⟩
  · rintro rfl; rw [← hT, ← h2c]; exact State.branchedTo_branch _ _
  · rw [← h2lo hl]
    by_cases h : rdHi = 15
    · subst h
      rw [State.guardedWrite_fifteen, State.reg_congr' (s := s2) (by simp) (by simp) hl]
    · rw [State.guardedWrite_register _ h,
        State.reg_congr' (s := s2.setReg rdHi (hi64 r)) (by simp) (by simp) hl, State.reg_setReg _ _ _ _ h, if_neg hne]
  · have := Frame.guardedWrite s2 rdHi (hi64 r)
    rw [State.named, h2c, hm] at this
    refine (Frame.nil hf).trans (Frame.trans (h2f.mono ?_ (by simp)) (this.mono ?_ (by simp)))
    · exact fun p hp => List.mem_append.mpr (Or.inr hp)
    · exact fun p hp => List.mem_append.mpr (Or.inl hp)
  · simp [h2m, hmem]
  · simp [h2w, hw]

/-! ## Taking an exception (60 R375) -/

/-- `Enter`: what is saved, where the core goes, and nothing else. -/
theorem State.enter_effect (s : State) (b : Banked) (vector : Word) (setsF : Bool) :
    let t := s.enter b vector setsF
    t.cpsr = { s.cpsr with mode := b.mode, i := true, f := s.cpsr.f || setsF, t := false } ∧
      t.spsrOf b = s.cpsr.save ∧ t.phys b.mode.r14 = s.r15 - 4#32 ∧ BranchedTo t (vector &&& 0xFFFFFFFC#32) ∧
      t.calls = s.calls ++ [.branch] ∧ Frame s t [b.mode.r14] [b] ∧ NoStore s t := by
  have h14 := physical_fourteen b.mode
  refine ⟨by simp [State.enter_eq], ?_, ?_, ⟨by simp [State.enter_eq, branchMask], rfl⟩, by simp [State.enter_eq], ⟨?_, ?_, ?_, ?_,
      ?_⟩,
      ⟨?_, ?_⟩⟩
  · have : ∀ c, (s.enter b vector setsF).spsrOf c = ((s.setCpsr { s.cpsr with mode :=
        b.mode }).setSpsrOf b s.cpsr.save).spsrOf c :=
      fun c => State.spsrOf_congr (by simp [State.enter_eq]) c
    rw [this, State.spsrOf_setSpsrOf, if_pos rfl]
  · have : (s.enter b vector setsF).phys b.mode.r14 = (((s.setCpsr { s.cpsr with mode :=
        b.mode }).setSpsrOf b s.cpsr.save).setReg 14
        (s.r15 - 4#32)).phys b.mode.r14 := State.phys_congr (by simp [State.enter_eq]) _
    rw [this, State.phys_setReg, if_pos (by simp [h14])]
  · intro p hp
    have : (s.enter b vector setsF).phys p = (((s.setCpsr { s.cpsr with mode := b.mode }).setSpsrOf b s.cpsr.save).setReg 14
        (s.r15 - 4#32)).phys p := State.phys_congr (by simp [State.enter_eq]) _
    rw [this, State.phys_setReg, if_neg (by simpa [h14, eq_comm] using hp)]
    exact State.phys_congr (by simp) _
  · intro c hc
    have : (s.enter b vector setsF).spsrOf c = ((s.setCpsr { s.cpsr with mode :=
        b.mode }).setSpsrOf b s.cpsr.save).spsrOf c :=
      State.spsrOf_congr (by simp [State.enter_eq]) c
    rw [this, State.spsrOf_setSpsrOf, if_neg (by simpa using hc)]
    exact State.spsrOf_congr (by simp) _
  · simp [State.enter_eq]
  · simp [State.enter_eq]
  · simp [State.enter_eq]
  · simp [State.enter_eq]
  · simp [State.enter_eq]

/-- The entry of an IRQ (R377): the exception entry, whose cost only the wait-state controller sees. -/
theorem State.raiseIrq_effect (s : State) :
    let t := s.raiseIrq
    t.cpsr = { s.cpsr with mode := .irq, i := true, t := false } ∧
      t.spsrOf .irq = s.cpsr.save ∧ t.phys .r14_irq = s.r15 - 4#32 ∧ BranchedTo t irqVector ∧
      t.calls = s.calls ++ [.branch] ∧ Frame s t [.r14_irq] [.irq] ∧ NoStore s t := by
  rw [State.raiseIrq_eq]
  generalize hf : (fun ws : WaitState => ws.charge (s.params.inCart s.r15) 0 _) = g
  have hw : (g s.ws).wcnt = s.ws.wcnt := by rw [← hf]; simp
  obtain ⟨a, b, c, d, e, f, h⟩ := State.enter_effect (s.clock g) .irq irqVector false
  have hc : Frame s (s.clock g) [] := .of_eq (by simp) (by simp) (by simp) (by simp) (by simp)
  exact ⟨a.trans (by simp [Banked.mode]), b, c, d, e, (Frame.nil hc).trans f, h.memory, h.control.trans hw⟩

end Sys2Proof.Machine
end

