-- ==== Sys2Proof/Laws/Block.lean ====
section
/-! SUPPORT. The block transfers (45_block_transfer.md): the register list by rank, and once and for all what the stores and
the loads of a list do to memory and to registers. -/

namespace Sys2Proof.Machine

/-! ## The list (R292) -/

theorem finRange_split (i : Reg) :
    List.finRange 16 = (List.finRange 16).take i.val ++ i :: (List.finRange 16).drop (i.val + 1) := by
  revert i; decide
theorem range_take (i : Reg) : List.range i.val = ((List.finRange 16).take i.val).map Fin.val := by revert i; decide

theorem rank_eq (list : BitVec 16)
    (i : Reg) : rank list i.val = (((List.finRange 16).take i.val).filter fun j => list.getLsbD j.val).length := by
  rw [rank, range_take, List.countP_map, List.countP_eq_length_filter]; rfl

theorem listed_at (list : BitVec 16) (i : Reg) (h : list.getLsbD i.val = true) :
    ∃ hk : rank list i.val < (listed list).length, (listed list)[rank list i.val] = i := by
  have e : listed list = ((List.finRange 16).take i.val).filter (fun j => list.getLsbD j.val) ++
      i :: ((List.finRange 16).drop (i.val+1)).filter (fun j => list.getLsbD j.val) := by
    unfold listed
    conv_lhs => rw [finRange_split i]
    rw [List.filter_append, List.filter_cons, if_pos h]
  rw [rank_eq]
  refine ⟨?_, ?_⟩
  · rw [e]; simp
  · simp only [e]; rw [List.getElem_append_right (le_refl _)]; simp

theorem mem_listed (list : BitVec 16) (i : Reg) : i ∈ listed list ↔ list.getLsbD i.val = true := by
  simp [listed]
theorem listed_length (list : BitVec 16) : (listed list).length = population list := by
  unfold population rank listed
  rw [show List.range 16 = (List.finRange 16).map Fin.val by decide, List.countP_map, List.countP_eq_length_filter]; rfl
theorem listed_length_le (list : BitVec 16) : (listed list).length ≤ 16 := by
  unfold listed; exact le_trans (List.length_filter_le _ _) (by simp)
theorem listed_nodup (list : BitVec 16) : (listed list).Nodup := (List.nodup_finRange 16).filter _
theorem population_eq_zero (list : BitVec 16) : population list = 0 ↔ list = 0 := by
  rw [← listed_length, List.length_eq_zero_iff]
  constructor
  · intro h
    apply BitVec.eq_of_getLsbD_eq; intro i hi
    by_contra hc
    have : (⟨i, hi⟩ : Reg) ∈ listed list := by rw [mem_listed]; simpa using hc
    rw [h] at this; simp at this
  · rintro rfl; decide

/-! ## Addresses -/

/-- A word-aligned address as a number. -/
theorem align4_toNat (a : Word) : (align4 a).toNat = a.toNat - a.toNat % 4 := by
  have e : (a &&& 0xFFFFFFFC#32) + (a &&& 3#32) = a := by
    rw [BitVec.add_eq_or_of_and_eq_zero]
    · rw [← BitVec.and_or_distrib_left, show (0xFFFFFFFC#32 ||| 3#32) = BitVec.allOnes 32 from rfl, BitVec.and_allOnes]
    · rw [BitVec.and_assoc, ← BitVec.and_assoc (0xFFFFFFFC#32) a, BitVec.and_comm (0xFFFFFFFC#32) a, BitVec.and_assoc a,
        show (0xFFFFFFFC#32 &&& 3#32) = 0#32 from rfl]
      simp
  have h := congrArg BitVec.toNat e
  have h3 : (a &&& 3#32).toNat = a.toNat % 4 := by
    rw [BitVec.toNat_and, show (3#32).toNat = 2 ^ 2 - 1 from rfl, Nat.and_two_pow_sub_one_eq_mod]
  have hc : (a &&& 0xFFFFFFFC#32).toNat ≤ a.toNat := by rw [BitVec.toNat_and]; exact Nat.and_le_left
  have := a.isLt
  rw [BitVec.toNat_add, h3] at h
  unfold align4
  omega

/-- The words of a transfer do not overlap. -/
theorem align_far (a : Word) (k : Nat) (h : 0 < k) (h2 : k < 16) (x : Word) :
    within (align4 a) 4 x → ¬ within (align4 (a + BitVec.ofNat 32 (4 * k))) 4 x := by
  rintro ⟨i, hi, rfl⟩ ⟨j, hj, e⟩
  have e' := congrArg BitVec.toNat e
  rw [BitVec.toNat_add, BitVec.toNat_add, align4_toNat, align4_toNat, BitVec.toNat_add] at e'
  simp only [BitVec.toNat_ofNat] at e'
  have := a.isLt
  omega

theorem next_word (addr : Word) (k : Nat) : addr + 4#32 + BitVec.ofNat 32 (4*k) = addr + BitVec.ofNat 32 (4*(k+1)) := by
  apply BitVec.eq_of_toNat_eq; simp; omega

/-! ## The stores (R294, R297) -/

/-- What is stored for a listed register. -/
def storedWord (user : Bool) (s : State) (i : Reg) : Word := if i = 15 then s.storeValue 15 else s.listedReg user i

theorem storedWord_congr {s t : State} (hr : t.regs = s.regs) (hp : t.r15 = s.r15) (hc : t.cpsr = s.cpsr)
    (hf : t.params = s.params) (user i) : storedWord user t i = storedWord user s i := by
  have : ∀ m n, t.regIn m n = s.regIn m n := fun m n => by
    simp only [State.regIn, hp]; split <;> simp [State.phys_congr hr]
  simp [storedWord, State.storeValue, hp, hf, State.listedReg, State.userReg, State.reg, this, hc]

/-- What the stores of a list do, the writeback made: every word at its place, nothing else. -/
structure StoresTail (user : Bool) (l : List Reg) (addr : Word) (s t : State) : Prop where
  frame : Frame s t []
  regs : t.regs = s.regs
  r15 : t.r15 = s.r15
  refill : t.refill = s.refill
  cpsr : t.cpsr = s.cpsr
  wf : t.mem.wf
  bytes : ∀ k (hk : k < l.length), ∀ j, j < 4 →
      s.params.isIo (align4 (addr + BitVec.ofNat 32 (4*k)) + BitVec.ofNat 32 j) = false →
    t.mem.read (align4 (addr + BitVec.ofNat 32 (4*k)) + BitVec.ofNat 32 j).toNat = (storedWord user s l[k]).extractLsb' (8*j) 8
  others : ∀ x : Word, (∀ k, k < l.length → ¬ within (align4 (addr + BitVec.ofNat 32 (4*k))) 4 x) ∨ s.params.isIo x = true →
      t.mem.read x.toNat = s.mem.read x.toNat
  control : (∀ k, k < l.length → ¬ within (align4 (addr + BitVec.ofNat 32 (4*k))) 4 s.params.waitControl ∧
    ¬ within (align4 (addr + BitVec.ofNat 32 (4*k))) 4 (s.params.waitControl + 1#32)) → t.ws.wcnt = s.ws.wcnt


theorem storeWords_tail (user : Bool) (rn : Reg) (l : List Reg) (addr : Word) (s : State) (h : s.mem.wf)
    (hl : l.length ≤ 16) :
    StoresTail user l addr s (storeWords user rn l none addr s) := by
  induction l generalizing addr s with
  | nil => exact ⟨.of_eq rfl ⟨rfl, rfl, rfl, rfl, rfl⟩ ⟨rfl, rfl, rfl⟩ ⟨rfl, rfl, rfl⟩ ⟨rfl, rfl, rfl⟩, rfl, rfl, rfl, rfl,
        h,
        by simp, by simp [storeWords], by simp [storeWords]⟩
  | cons i l ih =>
    have hw := State.memWriteRaw32_wrote h (align4 addr) (storedWord user s i)
    have hst : storeWords user rn (i :: l) none addr s = storeWords user rn l none (addr + 4#32)
        (s.memWriteRaw32 (align4 addr) (storedWord user s i)) := rfl
    have hr : (s.memWriteRaw32 (align4 addr) (storedWord user s i)).regs = s.regs := by simp [State.memWriteRaw32]
    have hf := hw.frame.fixed.1
    generalize s.memWriteRaw32 (align4 addr) (storedWord user s i) = s1 at hw hst hr hf
    have iht := ih (addr + 4#32) s1 hw.wf (by simp at hl; omega)
    rw [hst]
    generalize storeWords user rn l none (addr+4#32) s1 = t at iht
    have z : addr + BitVec.ofNat 32 (4*0) = addr := by simp
    refine ⟨hw.frame.trans iht.frame, iht.regs.trans hr, iht.r15.trans hw.r15, iht.refill.trans hw.refill,
        iht.cpsr.trans hw.cpsr, iht.wf, ?_, ?_, ?_⟩
    · intro k hk j hj hio
      cases k with
      | zero =>
        rw [z] at hio ⊢
        rw [iht.others _ (Or.inl fun k hk => ?_), hw.stored.bytes j hj hio]; rfl
        rw [next_word]
        exact align_far addr (k+1) (by omega) (by simp at hl; omega) _ (within_add _ hj)
      | succ k =>
        rw [← next_word] at hio ⊢
        have := iht.bytes k (by simpa using hk) j hj (by rw [hf]; exact hio)
        rw [this, storedWord_congr hr hw.r15 hw.cpsr hf]; rfl
    · rintro x (hx | hx)
      · rw [iht.others x (Or.inl fun k hk => by rw [next_word]; exact hx (k+1) (by simpa using hk)),
            hw.stored.others x (Or.inl (by have := hx 0 (by simp); rwa [z] at this))]
      · rw [iht.others x (Or.inr (by rw [hf]; exact hx)), hw.stored.others x (Or.inr hx)]
    · intro hx
      rw [iht.control fun k hk => by rw [next_word, hf]; exact hx (k+1) (by simpa using hk)]
      have h0 := hx 0 (by simp); rw [z] at h0
      exact hw.stored.control h0.1 h0.2

/-! ## The loads (R295, R298) -/

theorem State.commit_keeps (s : State) (rn : Reg) (wb : Option Word) :
    (s.commit rn wb).r15 = s.r15 ∧ (s.commit rn wb).refill = s.refill ∧ (s.commit rn wb).mem = s.mem ∧
      (s.commit rn wb).ws = s.ws ∧ (s.commit rn wb).cpsr = s.cpsr := by
  cases wb <;> simp [State.commit]


theorem peek32_plain {s t : State} (hm : t.mem = s.mem)
    (hp : t.params = s.params) {a : Word} (h : s.plainWord a) : t.peek32 a = s.peek32 a := by
  have hb : ∀ k, k < 4 → t.byteAt (a + BitVec.ofNat 32 k) = s.byteAt (a + BitVec.ofNat 32 k) := by
    intro k hk; simp [State.byteAt, h k hk, hm, hp]
  have h0 := hb 0 (by omega)
  simp only [BitVec.add_zero] at h0
  simp only [State.peek32]
  rw [show a + 3#32 = a + BitVec.ofNat 32 3 from rfl, show a + 2#32 = a + BitVec.ofNat 32 2 from rfl,
      show a + 1#32 = a + BitVec.ofNat 32 1 from rfl, hb 3 (by omega), hb 2 (by omega), hb 1 (by omega), h0]

/-- The mode whose bank the listed registers are in. -/
def blockBank (user : Bool) (s : State) : Mode := if user then .user else s.cpsr.mode

/-- Nothing but registers R0 to R14, the calls, the draws and the timing differs. -/
structure Same (s t : State) : Prop where
  cpsr : t.cpsr = s.cpsr
  r15 : t.r15 = s.r15
  refill : t.refill = s.refill
  mem : t.mem = s.mem
  wcnt : t.ws.wcnt = s.ws.wcnt
  spsrs : ∀ b, t.spsrOf b = s.spsrOf b
  latches : t.fetch = s.fetch ∧ t.decode = s.decode ∧ t.execute = s.execute
  inputs : t.irqLine = s.irqLine ∧ t.halted = s.halted ∧ t.agenda = s.agenda
  fixed : t.params = s.params ∧ t.inside = s.inside ∧ t.stop = s.stop

theorem Same.trans {s t u : State} (h : Same s t) (h' : Same t u) : Same s u :=
  ⟨h'.cpsr.trans h.cpsr, h'.r15.trans h.r15, h'.refill.trans h.refill, h'.mem.trans h.mem, h'.wcnt.trans h.wcnt,
   fun b => (h'.spsrs b).trans (h.spsrs b), ⟨h'.latches.1.trans h.latches.1, h'.latches.2.1.trans h.latches.2.1,
       h'.latches.2.2.trans h.latches.2.2⟩,
   ⟨h'.inputs.1.trans h.inputs.1, h'.inputs.2.1.trans h.inputs.2.1, h'.inputs.2.2.trans h.inputs.2.2⟩,
   ⟨h'.fixed.1.trans h.fixed.1, h'.fixed.2.1.trans h.fixed.2.1, h'.fixed.2.2.trans h.fixed.2.2⟩⟩
theorem Same.refl (s : State) : Same s s := ⟨rfl,rfl,rfl,rfl,rfl,fun _ => rfl,⟨rfl,rfl,rfl⟩,⟨rfl,rfl,rfl⟩,⟨rfl,rfl,rfl⟩⟩
theorem Still.same {s t : State} (h : Still s t) : Same s t :=
  ⟨h.cpsr, h.r15, h.refill, h.mem, h.control, fun b => h.frame.spsrs b (by simp), h.frame.latches, h.frame.inputs,
      h.frame.fixed⟩
theorem Same.setRegIn (s : State) (m : Mode) (n : Reg) (v : Word) : Same s (s.setRegIn m n v) :=
  ⟨by simp, by simp, by simp, by simp, by simp, fun b => State.spsrOf_congr (by simp) b, by simp, by simp, by simp⟩
theorem State.takeLoaded_eq (s : State) (user : Bool) (i : Reg)
    (v : Word) : s.takeLoaded user i v = if i = 15 then s else s.setRegIn (blockBank user s) i v := by
  unfold State.takeLoaded State.setListedReg blockBank; split
  · rfl
  · cases user <;> rfl

theorem Same.takeLoaded (s : State) (user : Bool) (i : Reg) (v : Word) : Same s (s.takeLoaded user i v) := by
  rw [State.takeLoaded_eq]; split
  · exact Same.refl _
  · exact Same.setRegIn ..

theorem State.phys_takeLoaded (s : State) (user : Bool) (i : Reg) (v : Word) (q : PhysReg) :
    (s.takeLoaded user i v).phys q = if physical (blockBank user s) i = some q then v else s.phys q := by
  rw [State.takeLoaded_eq]
  split
  · next h => subst h; rw [physical_eq_none.mpr rfl]; simp
  · rw [State.phys_setRegIn]

theorem Same.commit (s : State) (rn : Reg) (wb : Option Word) : Same s (s.commit rn wb) := by
  cases wb
  · exact Same.refl s
  · exact Same.setRegIn ..

theorem State.phys_commit (s : State) (rn : Reg) (wb : Option Word) (q : PhysReg) :
    (s.commit rn wb).phys q = match wb with
      | some v => if physical s.cpsr.mode rn = some q then v else s.phys q
      | none => s.phys q := by
  cases wb
  · rfl
  · exact State.phys_setReg ..

theorem Same.loadOne (s : State) (user : Bool) (rn : Reg) (wb : Option Word) (i : Reg) (v : Word) :
    Same s (s.loadOne user rn wb i v) := by
  unfold State.loadOne
  split
  · exact (Same.commit s rn wb).trans (Same.takeLoaded ..)
  · exact (Same.takeLoaded s user i v).trans (Same.commit ..)

/-- What one load leaves in each register, in either order of `LDM_BASE_FIRST` (R298). -/
theorem State.phys_loadOne (s : State) (user : Bool) (rn : Reg) (wb : Option Word) (i : Reg) (v : Word) (q : PhysReg) :
    (s.loadOne user rn wb i v).phys q =
      if s.params.ldmBaseFirst = .writeback ∧ wb.isSome = true ∧ physical s.cpsr.mode rn = some q then wb.getD 0#32
      else if physical (blockBank user s) i = some q then v else (s.commit rn wb).phys q := by
  have hb : blockBank user (s.commit rn wb) = blockBank user s := by simp [blockBank, (Same.commit s rn wb).cpsr]
  have hm : (s.takeLoaded user i v).cpsr.mode = s.cpsr.mode := by rw [(Same.takeLoaded ..).cpsr]
  unfold State.loadOne
  split
  · next h => simp [h, State.phys_takeLoaded, hb]
  · next h =>
    cases wb with
    | none => simp [State.phys_takeLoaded, State.commit]
    | some w =>
      by_cases hr : physical s.cpsr.mode rn = some q
      · simp [h, State.phys_commit, hm, hr]
      · simp [State.phys_commit, hm, hr, State.phys_takeLoaded]

/-- What the loads of a list do, the writeback at the first of them: each register its word, but where `LDM_BASE_FIRST` is
`writeback` the base, if it is the first, the value written back; R15 for the branch; nothing else. -/
structure Loads (user : Bool) (rn : Reg) (wb : Option Word) (l : List Reg) (addr : Word) (s : State)
    (r : State × Option Word) : Prop where
  same : Same s r.1
  others : ∀ p, (∀ i ∈ l, physical (blockBank user s) i ≠ some p) →
    r.1.phys p = if l = [] then s.phys p else (s.commit rn wb).phys p
  loaded : ∀ k (hk : k < l.length), s.plainWord (align4 (addr + BitVec.ofNat 32 (4*k))) → ∀ p,
      physical (blockBank user s) l[k] = some p →
    r.1.phys p = if s.params.ldmBaseFirst = .writeback ∧ wb.isSome = true ∧ k = 0 ∧ physical s.cpsr.mode rn = some p
      then wb.getD 0#32 else s.peek32 (align4 (addr + BitVec.ofNat 32 (4*k)))
  pc : ∀ k (hk : k < l.length), l[k] = 15 → ∃ v, r.2 = some v ∧ (s.plainWord (align4 (addr + BitVec.ofNat 32 (4*k))) →
      v = s.peek32 (align4 (addr + BitVec.ofNat 32 (4*k))))
  nopc : 15 ∉ l → r.2 = none

theorem loadWords_loads (user : Bool) (rn : Reg) (wb : Option Word) (l : List Reg) (addr : Word) (s : State)
    (hn : l.Nodup) : Loads user rn wb l addr s (loadWords user rn l wb addr s) := by
  induction l generalizing addr s wb with
  | nil => exact ⟨Same.refl s, fun _ _ => rfl, by simp, by simp, fun _ => rfl⟩
  | cons i l ih =>
    have hs := Still.memReadRaw32 s (align4 addr)
    have hv : (s.memReadRaw32 (align4 addr)).1 = s.peek32 (align4 addr) := by rw [State.memReadRaw32_eq]
    have heq : loadWords user rn (i :: l) wb addr s = ((loadWords user rn l none (addr + 4#32)
        (((s.memReadRaw32 (align4 addr)).2).loadOne user rn wb i (s.memReadRaw32 (align4 addr)).1)).1,
        if i = 15 then some (s.memReadRaw32 (align4 addr)).1 else (loadWords user rn l none (addr + 4#32)
        (((s.memReadRaw32 (align4 addr)).2).loadOne user rn wb i (s.memReadRaw32 (align4 addr)).1)).2) := rfl
    rw [hv] at heq
    have hcm : ∀ q, ((s.memReadRaw32 (align4 addr)).2.commit rn wb).phys q = (s.commit rn wb).phys q := by
      intro q; rw [State.phys_commit, State.phys_commit, hs.cpsr, State.phys_congr hs.regs]
    generalize (s.memReadRaw32 (align4 addr)).2 = s1 at *
    have hbk : blockBank user s1 = blockBank user s := by simp [blockBank, hs.cpsr]
    have h2s := Same.loadOne s1 user rn wb i (s.peek32 (align4 addr))
    have hph := State.phys_loadOne s1 user rn wb i (s.peek32 (align4 addr))
    rw [hs.params, hs.cpsr, hbk] at hph
    simp only [hcm] at hph
    generalize s1.loadOne user rn wb i (s.peek32 (align4 addr)) = s2 at *
    have hbk2 : blockBank user s2 = blockBank user s := by simp [blockBank, h2s.cpsr, hs.cpsr]
    obtain ⟨hni, hnl⟩ := List.nodup_cons.mp hn
    have iht := ih none (addr + 4#32) s2 hnl
    generalize loadWords user rn l none (addr + 4#32) s2 = r at *
    rw [heq]
    have ss := (Still.same hs).trans h2s
    have z : addr + BitVec.ofNat 32 (4*0) = addr := by simp
    have hoth : ∀ p, (∀ j ∈ l, physical (blockBank user s) j ≠ some p) → r.1.phys p = s2.phys p := by
      intro p hp
      rw [iht.others p fun j hj => by rw [hbk2]; exact hp j hj]; simp [State.commit]
    refine ⟨ss.trans iht.same, ?_, ?_, ?_, ?_⟩
    · intro p hp
      show r.1.phys p = _
      rw [hoth p fun j hj => hp j (by simp [hj]), hph, if_neg (hp i (by simp)), if_neg (List.cons_ne_nil _ _)]
      split
      · next h =>
        obtain ⟨v, rfl⟩ := Option.isSome_iff_exists.mp h.2.1
        rw [State.phys_commit]; simp [h.2.2]
      · rfl
    · intro k hk hpl p hp
      show r.1.phys p = _
      cases k with
      | zero =>
        rw [z]; simp only [List.getElem_cons_zero] at hp
        rw [hoth p fun j hj hq => hni (physical_inj (hp.trans hq.symm) ▸ hj), hph, if_pos hp]
        simp
      | succ k =>
        simp only [List.getElem_cons_succ] at hp
        rw [← next_word] at hpl ⊢
        have hpl' : s2.plainWord (align4 (addr + 4#32 + BitVec.ofNat 32 (4*k))) := by
          intro j hj; rw [ss.fixed.1]; exact hpl j hj
        rw [iht.loaded k (by simpa using hk) hpl' p (by rw [hbk2]; exact hp)]
        simp only [Option.isSome_none, Bool.false_eq_true, false_and, and_false, if_false, Nat.succ_ne_zero]
        exact peek32_plain ss.mem ss.fixed.1 hpl
    · intro k hk h15
      show ∃ v, (if i = 15 then some (s.peek32 (align4 addr)) else r.2) = some v ∧ _
      cases k with
      | zero => simp only [List.getElem_cons_zero] at h15; rw [z]; exact ⟨_, if_pos h15, fun _ => rfl⟩
      | succ k =>
        simp only [List.getElem_cons_succ] at h15
        have hi : i ≠ 15 := fun e => hni (by rw [e, ← h15]; exact List.getElem_mem _)
        obtain ⟨v, h1, h2⟩ := iht.pc k (by simpa using hk) h15
        refine ⟨v, by rw [if_neg hi, h1], ?_⟩
        rw [← next_word]
        intro hpl
        rw [h2 fun j hj => by rw [ss.fixed.1]; exact hpl j hj]
        exact peek32_plain ss.mem ss.fixed.1 hpl
    · intro h
      show (if i = 15 then some (s.peek32 (align4 addr)) else r.2) = none
      rw [if_neg (fun e => h (by simp [e])), iht.nopc (fun e => h (by simp [e]))]

theorem mem_listedIn (m : Mode) (list : BitVec 16) (p : PhysReg) : p ∈ listedIn m list ↔ ∃ i, list.getLsbD i.val = true ∧
    physical m i = some p := by
  simp [listedIn, List.mem_filterMap, mem_listed]

/-- What the loads of a list that is not empty leave, by register. -/
theorem loadWords_list {s : State} (hq : s.inside = []) (user w : Bool) (rn : Reg) (list : BitVec 16) (hl : list ≠ 0)
    (start final : Word) :
    ∃ r, loadWords user rn (listed list) (if w then some final else none) start s.nonSeq = r ∧ Same s r.1 ∧
      (∀ i : Reg, list.getLsbD i.val = true → s.plainWord (slot list start i) → ∀ p,
          physical (blockBank user s) i = some p →
          r.1.phys p = s.loadedValue (blockBank user s) w rn list start final i) ∧
      (∀ p, p ∉ listedIn (blockBank user s) list → r.1.phys p = if w = true ∧
          physical s.cpsr.mode rn = some p then final else s.phys p) ∧
      (list.getLsbD 15 = true → ∃ v, r.2 = some v ∧
          (s.plainWord (slot list start 15) → v = s.peek32 (slot list start 15))) ∧
      (list.getLsbD 15 = false → r.2 = none) := by
  have hns := Still.nonSeq hq
  have hbk : blockBank user s.nonSeq = blockBank user s := by simp [blockBank, hns.cpsr]
  have hpl : ∀ a, s.plainWord a → s.nonSeq.plainWord a := fun a h k hk => by rw [hns.params]; exact h k hk
  have L := loadWords_loads user rn (if w then some final else none) (listed list) start s.nonSeq (listed_nodup list)
  have hne : listed list ≠ [] := fun h => hl ((population_eq_zero list).mp (by rw [← listed_length, h]; rfl))
  refine ⟨_, rfl, (Still.same hns).trans L.same, ?_, ?_, ?_, ?_⟩
  · intro i hi hp p hph
    obtain ⟨h1, h2⟩ := listed_at list i hi
    rw [L.loaded _ h1 (hpl _ hp) p (by rw [h2, hbk]; exact hph), (State.peek_nonSeq hq _).2.2.2, hns.params, hns.cpsr]
    unfold State.loadedValue
    rw [hph]
    cases w <;> simp [eq_comm, slot]
  · intro p hp
    rw [L.others p fun i hi h => hp ((mem_listedIn ..).mpr ⟨i, (mem_listed list i).mp hi, hbk ▸ h⟩), if_neg hne,
      State.phys_commit, hns.cpsr, State.phys_congr hns.regs]
    cases w <;> simp
  · intro h
    obtain ⟨h1, h2⟩ := listed_at list 15 h
    obtain ⟨v, a, b⟩ := L.pc _ h1 h2
    exact ⟨v, a, fun hp => by rw [b (hpl _ hp)]; exact (State.peek_nonSeq hq _).2.2.2⟩
  · intro h
    exact L.nopc (by rw [mem_listed]; intro hc; rw [show ((15:Reg).val) = 15 from rfl, h] at hc; exact absurd hc (by decide))

theorem transferred_contains_15 (list : BitVec 16) (hl : list ≠ 0) : (transferred list).contains 15 = list.getLsbD 15 := by
  rw [transferred, if_neg hl]
  rcases Bool.eq_false_or_eq_true (list.getLsbD 15) with h | h <;> rw [h]
  · simp [mem_listed]; exact h
  · simp [mem_listed]; exact h

theorem State.loadMultiple_eq (s : State) (p u w sbit : Bool) (rn : Reg) (list : BitVec 16) (hl : list ≠ 0)
    (hrn : ¬ (rn = 15 ∧ w = true)) :
    let start := blockStart p u (s.reg rn) (population list)
    let final := blockFinal u (s.reg rn) (population list)
    let r := loadWords (sbit && !list.getLsbD 15) rn (listed list) (if w then some final else none) start s.nonSeq
    let s' := (r.1.bulkCharge (listed list).length (align4 start)).internal.nonSeq
    s.loadMultiple p u w sbit rn list = match r.2 with
      | some v => if sbit then s'.returnTo v else .next (s'.branch v)
      | none => .next s'.advancePC := by
  have hn : transferCount list = population list := by rw [transferCount, if_neg hl, listed_length]
  have htr : transferred list = listed list := if_neg hl
  intro start final r s'
  rw [State.loadMultiple, if_neg hrn]
  have hct := transferred_contains_15 list hl
  rw [htr] at hct
  simp only [hn, hct, htr]
  rfl

theorem Still.loadTail {s : State} (h : s.inside = []) (n : Nat) (a : Word) :
    Still s (s.bulkCharge n a).internal.nonSeq :=
  have h1 := Still.bulkCharge h n a
  have h2 := h1.trans (Still.internal (h1.quiet h))
  h2.trans (Still.nonSeq (h2.quiet h))

theorem mem_writtenBack (s : State) (rn : Reg) (w : Bool) (p : PhysReg) : p ∈ s.writtenBack rn w ↔ w = true ∧
    physical s.cpsr.mode rn = some p := by
  cases w <;> simp [State.writtenBack, State.mem_named]

end Sys2Proof.Machine
end

