-- ==== Sys2Proof/Laws/Encoding.lean ====
section
/-! SUPPORT. Taking fields out of words put together from fields, for the round trip of decoding and encoding
(30_encoding.md R122). -/

namespace Sys2Proof

theorem bits_append_low {a b : Nat} (x : BitVec a) (y : BitVec b) {lo len : Nat} (h : lo + len ≤ b) :
    (x ++ y).extractLsb' lo len = y.extractLsb' lo len := BitVec.extractLsb'_append_eq_of_add_le h

theorem bits_append_high {a b : Nat} (x : BitVec a) (y : BitVec b) {lo len : Nat} (h : b ≤ lo) :
    (x ++ y).extractLsb' lo len = x.extractLsb' (lo - b) len := BitVec.extractLsb'_append_eq_of_le h

theorem bit_append_low {a b : Nat} (x : BitVec a) (y : BitVec b) {i : Nat} (h : i < b) :
    (x ++ y).getLsbD i = y.getLsbD i := by simp [BitVec.getLsbD_append, h]

theorem bit_append_high {a b : Nat} (x : BitVec a) (y : BitVec b) {i : Nat} (h : b ≤ i) :
    (x ++ y).getLsbD i = x.getLsbD (i - b) := by simp [BitVec.getLsbD_append, Nat.not_lt.mpr h]

theorem Cond.ofField_code (c : Cond) : Cond.ofField c.code.toNat = c := by cases c <;> rfl

theorem ShiftType.ofField_code (t : ShiftType) : ShiftType.ofField t.code.toNat = t := by cases t <;> rfl

theorem regCode_toFin (r : Reg) : (regCode r).toFin = r := rfl

theorem flag_bit (b : Bool) : (flag b).getLsbD 0 = b := by cases b <;> rfl


/-- A word's four bytes put together again (20_memory.md R62). -/
theorem wordOfBytes_bytes (w : Word) : wordOfBytes (bits w 0 8) (bits w 8 8) (bits w 16 8) (bits w 24 8) = w := by
  apply BitVec.eq_of_getLsbD_eq
  intro i hi
  simp only [wordOfBytes, bits, BitVec.getLsbD_append, BitVec.getLsbD_extractLsb']
  split_ifs with h1 h2 h3
  · simp [h1]
  · simp [h2, show 8 + (i - 8) = i by omega]
  · simp [h3, show 16 + (i - 8 - 8) = i by omega]
  · simp [show i - 8 - 8 - 8 < 8 by omega, show 24 + (i - 8 - 8 - 8) = i by omega]

end Sys2Proof
end

