-- ==== Sys2Proof/Laws/WaitState.lean ====
section
/-! SUPPORT. What the accounting of the wait-state controller leaves alone: its control value,
    its tables and the bound of its
buffer (21_waitstate.md R90 to R95, R102), and that the reset tables are those of control value 0 (R91). -/

namespace Sys2Proof.Machine

/-- The reset tables are those of control value 0 (R91). -/
theorem WaitState.reset_configured (p : Params) : (WaitState.reset p).Configured p :=
  by constructor <;> simp [WaitState.reset]

/-- A write of the control register configures the controller (R93 to R95). -/
theorem WaitState.setControl_configured (ws : WaitState) (p : Params) (v : BitVec 16) : (ws.setControl p v).Configured p :=
  ⟨rfl, rfl, rfl, rfl, rfl, rfl⟩

theorem WaitState.setControl_buffer {ws : WaitState} {cap : Nat} (h : ws.buffer ≤ cap) (p : Params) (v : BitVec 16) :
    (ws.setControl p v).buffer ≤ cap := by
  unfold WaitState.setControl WaitState.flush
  dsimp only
  split
  · exact h
  · exact Nat.zero_le _

/-- `ws'` is `ws` after some accounting, `cap` the capacity of the prefetch buffer. -/
structure WaitState.Kept (cap : Nat) (ws ws' : WaitState) : Prop where
  wcnt : ws'.wcnt = ws.wcnt
  rom0 : ws'.rom0 = ws.rom0
  rom1 : ws'.rom1 = ws.rom1
  rom2 : ws'.rom2 = ws.rom2
  sram : ws'.sram = ws.sram
  wram : ws'.wram = ws.wram
  prefetch : ws'.prefetchEn = ws.prefetchEn
  buffer : ws.buffer ≤ cap → ws'.buffer ≤ cap

namespace WaitState.Kept

variable {cap : Nat}

theorem refl (ws : WaitState) : Kept cap ws ws := ⟨rfl, rfl, rfl, rfl, rfl, rfl, rfl, id⟩

theorem trans {a b c : WaitState} (h : Kept cap a b) (h' : Kept cap b c) : Kept cap a c :=
  ⟨h'.wcnt.trans h.wcnt, h'.rom0.trans h.rom0, h'.rom1.trans h.rom1, h'.rom2.trans h.rom2, h'.sram.trans h.sram,
    h'.wram.trans h.wram, h'.prefetch.trans h.prefetch, fun hb => h'.buffer (h.buffer hb)⟩

/-- A controller that is configured stays so. -/
theorem configured {ws ws' : WaitState} {p : Params} (h : Kept cap ws ws') (hc : ws.Configured p) : ws'.Configured p :=
  ⟨by rw [h.rom0, h.wcnt, hc.rom0], by rw [h.rom1, h.wcnt, hc.rom1], by rw [h.rom2, h.wcnt, hc.rom2],
    by rw [h.sram, h.wcnt, hc.sram], by rw [h.wram, hc.wram], by rw [h.prefetch, h.wcnt, hc.prefetch]⟩

theorem of_buffer (ws : WaitState) {b : Nat} (h : b ≤ ws.buffer ∨ b ≤ cap) (k n : Nat) (q : Bool) :
    Kept cap ws { ws with buffer := b, clocks := k, cycles := n, nonseq := q } :=
  ⟨rfl, rfl, rfl, rfl, rfl, rfl, rfl, fun hb => h.elim (fun h => h.trans hb) id⟩

theorem flush (ws : WaitState) : Kept cap ws ws.flush := of_buffer ws (.inl (Nat.zero_le _)) _ _ _

theorem nonSeq (ws : WaitState) : Kept cap ws ws.nonSeq := of_buffer ws (.inl le_rfl) _ _ _

theorem branchHook (ws : WaitState) : Kept cap ws ws.branchHook := (flush ws).trans (nonSeq _)

theorem charge (ws : WaitState) (cart : Bool) (free total : Nat) : Kept cap ws (ws.charge cart free total) := by
  unfold WaitState.charge
  dsimp only
  split
  · exact of_buffer ws (.inl (Nat.zero_le _)) _ _ _
  · split <;> exact of_buffer ws (.inl le_rfl) _ _ _

theorem boundary (ws : WaitState) (a : Word) : Kept cap ws (ws.boundary a) := by
  unfold WaitState.boundary
  dsimp only
  split
  · split
    · exact (flush ws).trans (nonSeq _)
    · exact nonSeq ws
  · exact refl ws

theorem tagged (ws : WaitState) (cart free : Bool) (r : Region) (wide : Bool) : Kept cap ws (ws.tagged cart free r wide) :=
  (of_buffer ws (.inl le_rfl) ws.clocks ws.cycles false).trans (charge _ _ _ _)

theorem romAccess (ws : WaitState) (p : Params) (cart : Bool) (a : Word)
    (wide : Bool) : Kept cap ws (ws.romAccess p cart a wide) :=
  (boundary ws a).trans (tagged _ _ _ _ _)

theorem drain (unit fuel : Nat) (ws : WaitState) : Kept cap ws (WaitState.drain cap unit fuel ws) := by
  induction fuel generalizing ws with
  | zero => exact refl ws
  | succ n ih =>
    unfold WaitState.drain
    split
    · next h =>
      simp only [Bool.and_eq_true, decide_eq_true_eq] at h
      exact (of_buffer ws (.inr h.1) _ _ _).trans (ih _)
    · exact refl ws

theorem romFetch (ws : WaitState) (p : Params) (cart : Bool) (a : Word) : Kept p.prebufCap ws (ws.romFetch p cart a) := by
  unfold WaitState.romFetch
  dsimp only
  generalize ws.cost (p.region a) false false = unit
  refine ((boundary ws a).trans (drain unit p.prebufCap _)).trans ?_
  generalize WaitState.drain p.prebufCap unit p.prebufCap (ws.boundary a) = ws1
  split
  · exact (of_buffer ws1 (.inl (Nat.sub_le _ _)) _ _ _).trans (charge _ _ _ _)
  · split
    · refine ((of_buffer ws1 (.inl (Nat.zero_le _)) ws1.clocks ws1.cycles ws1.nonseq).trans
        (charge _ cart 0 (max 1 (unit - ws1.clocks)))).trans ?_
      exact of_buffer _ (.inl le_rfl) _ _ _
    · exact ((of_buffer ws1 (.inl le_rfl) ws1.clocks ws1.cycles false).trans (charge _ _ _ _)).trans (flush _)

theorem fetchCost (ws : WaitState) (p : Params) (cart : Bool) (a : Word) : Kept p.prebufCap ws (ws.fetchCost p cart a) := by
  unfold WaitState.fetchCost
  split
  · split
    · exact romFetch ws p cart a
    · exact romAccess ws p cart a true
  · exact ((flush ws).trans (nonSeq _)).trans (tagged _ _ _ _ _)

theorem dataCost (ws : WaitState) (p : Params) (cart : Bool) (a : Word)
    (wide : Bool) : Kept cap ws (ws.dataCost p cart a wide) := by
  unfold WaitState.dataCost
  split
  · split
    · exact (flush ws).trans (romAccess _ _ _ _ _)
    · exact romAccess ws p cart a wide
  · exact tagged ws cart true _ wide

theorem bulk (ws : WaitState) (p : Params) (cart : Bool) (n : Nat) (a : Word) : Kept cap ws (ws.bulk p cart n a) := by
  unfold WaitState.bulk
  dsimp only
  split
  · exact ((flush ws).trans (of_buffer _ (.inl le_rfl) _ _ _)).trans (charge _ _ _ _)
  · exact (of_buffer ws (.inl le_rfl) ws.clocks ws.cycles false).trans (charge _ _ _ _)

end WaitState.Kept

end Sys2Proof.Machine
end

