-- ==== Sys2Proof/Laws/Invariant.lean ====
section
/-! SUPPORT. What the invariant speaks of is kept by every shared operation, every call of the platform that can stand in an
agenda the invariant allows, before a step or inside one, and every instruction: from the operations up to `exec_keeps`. -/

namespace Sys2Proof.Machine

/-- R15 is a multiple of the instruction width (10_state.md R25). -/
def Aligned (s : State) : Prop := s.r15 &&& branchMask s.cpsr.t = s.r15

/-- The invariant but for R15, inside a step: what the platform still does inside it is spoken of too. -/
structure Calm (s : State) : Prop where
  memory : s.mem.wf
  configured : s.ws.Configured s.params
  buffered : s.ws.buffer ≤ s.params.prebufCap
  agenda : ∀ turn ∈ s.agenda, turn.keepsAlignment
  inside : ∀ batch ∈ s.inside, ∀ c ∈ batch, c.keepsAlignment = true

/-- All of it but R15's alignment is kept, and the parameters. -/
structure Loose (s t : State) : Prop where
  params : Calm s → t.params = s.params
  calm : Calm s → Calm t

/-- All of it is kept. -/
structure Keeps (s t : State) : Prop extends Loose s t where
  aligned : Calm s → Aligned s → Aligned t

theorem Loose.trans {s t u : State} (h : Loose s t) (h' : Loose t u) : Loose s u :=
  ⟨fun c => (h'.params (h.calm c)).trans (h.params c), fun c => h'.calm (h.calm c)⟩

theorem Keeps.refl (s : State) : Keeps s s := ⟨⟨fun _ => rfl, id⟩, fun _ => id⟩

theorem Keeps.trans {s t u : State} (h : Keeps s t) (h' : Keeps t u) : Keeps s u :=
  ⟨h.toLoose.trans h'.toLoose, fun c a => h'.aligned (h.calm c) (h.aligned c a)⟩

/-! ## Updates -/

/-- An update that leaves memory, the agenda and the parameters, and of the controller does some accounting. -/
theorem Loose.kept {s t : State} (hw : WaitState.Kept s.params.prebufCap s.ws t.ws)
    (h : t.mem = s.mem ∧ t.params = s.params ∧ t.agenda = s.agenda ∧ t.inside = s.inside) : Loose s t where
  params _ := h.2.1
  calm c := ⟨h.1 ▸ c.memory, h.2.1 ▸ hw.configured c.configured, h.2.1 ▸ hw.buffer c.buffered, h.2.2.1 ▸ c.agenda,
    h.2.2.2 ▸ c.inside⟩

theorem Loose.same {s t : State}
    (h : t.ws = s.ws ∧ t.mem = s.mem ∧ t.params = s.params ∧ t.agenda = s.agenda ∧ t.inside = s.inside) : Loose s t :=
  .kept (h.1 ▸ .refl _) h.2

/-- The same, R15 and the instruction set left. -/
theorem Keeps.kept {s t : State} (hw : WaitState.Kept s.params.prebufCap s.ws t.ws)
    (h : t.mem = s.mem ∧ t.params = s.params ∧ t.agenda = s.agenda ∧ t.inside = s.inside)
    (hp : t.r15 = s.r15 ∧ t.cpsr.t = s.cpsr.t) : Keeps s t :=
  ⟨.kept hw h, fun _ a => by unfold Aligned; rw [hp.1, hp.2]; exact a⟩

theorem Keeps.same {s t : State}
    (h : t.ws = s.ws ∧ t.mem = s.mem ∧ t.params = s.params ∧ t.agenda = s.agenda ∧ t.inside = s.inside)
    (hp : t.r15 = s.r15 ∧ t.cpsr.t = s.cpsr.t) : Keeps s t :=
  .kept (h.1 ▸ .refl _) h.2 hp

theorem Keeps.note (s : State) (c) : Keeps s (s.note c) := .same (by simp) (by simp)

theorem Keeps.clock (s : State) (f) (h : WaitState.Kept s.params.prebufCap s.ws (f s.ws)) : Keeps s (s.clock f) :=
  .kept h (by simp) (by simp)

theorem Keeps.answered (s : State) (a n) : Keeps s (s.answered a n) := .same (by simp) (by simp)

theorem Keeps.setReg (s : State) (n v) : Keeps s (s.setReg n v) := .same (by simp) (by simp)

theorem Keeps.setUserReg (s : State) (n v) : Keeps s (s.setUserReg n v) := .same (by simp) (by simp)

theorem Keeps.setSpsrOf (s : State) (b p) : Keeps s (s.setSpsrOf b p) := .same (by simp) (by simp)

theorem Loose.setCpsr (s : State) (p) : Loose s (s.setCpsr p) := .same (by simp)

theorem Keeps.setCpsr (s : State) (p : Cpsr) (h : p.t = s.cpsr.t) : Keeps s (s.setCpsr p) := .same (by simp) (by simp [h])

theorem Keeps.shiftLatches (s : State) : Keeps s s.shiftLatches := .same (by simp) (by simp)

/-- A word that ends in `k` zero bits is left by a mask whose other bits are set. -/
theorem masked_iff {k : Nat} {m : Word} (h0 : m.setWidth k = 0) (h1 : ∀ i < 32, k ≤ i → m.getLsbD i = true)
    (r : Word) : r &&& m = r ↔ r.setWidth k = 0 := by
  constructor
  · intro h
    rw [← h, BitVec.setWidth_and, h0]; simp
  · intro h
    refine BitVec.eq_of_getLsbD_eq fun i hi => ?_
    rw [BitVec.getLsbD_and]
    by_cases hki : k ≤ i
    · rw [h1 i hi hki, Bool.and_true]
    · have := congrArg (·.getLsbD i) h
      simp only [BitVec.getLsbD_setWidth] at this
      simp [show i < k by omega] at this
      simp [this]

/-- Four more is aligned still. -/
theorem Aligned.add_four {r : Word} {t : Bool} (h : r &&& branchMask t = r) : (r + 4#32) &&& branchMask t = r + 4#32 := by
  cases t
  · have k := masked_iff (k := 2) (m := branchMask false) (by decide) (by decide)
    rw [k] at h ⊢
    rw [BitVec.setWidth_add _ _ (by omega), h]; decide
  · have k := masked_iff (k := 1) (m := branchMask true) (by decide) (by decide)
    rw [k] at h ⊢
    rw [BitVec.setWidth_add _ _ (by omega), h]; decide

theorem Keeps.advancePC (s : State) : Keeps s s.advancePC :=
  ⟨.same (by simp), fun _ a => by simpa [Aligned] using Aligned.add_four a⟩

/-- A branch leaves R15 aligned whatever was before. -/
theorem Loose.branch {s t : State} (h : Loose s t) (v : Word) : Keeps s (t.branch v) :=
  ⟨h.trans (.kept (.branchHook _) (by simp)), fun _ _ => by
    simp only [Aligned, State.branch_r15, State.branch_cpsr, BitVec.and_assoc, BitVec.and_self]⟩

theorem Keeps.branch (s : State) (v) : Keeps s (s.branch v) := (Keeps.refl s).toLoose.branch v

theorem Keeps.pokeByte (s : State) (a b) : Keeps s (s.pokeByte a b) where
  params _ := by simp
  calm c := by
    refine ⟨State.pokeByte_wf s c.memory a b, ?_, ?_, by simpa using c.agenda, by simpa using c.inside⟩
    · rw [State.pokeByte_params]
      unfold State.pokeByte
      split
      · exact WaitState.setControl_configured ..
      · split
        · exact WaitState.setControl_configured ..
        · split <;> exact c.configured
    · rw [State.pokeByte_params]
      unfold State.pokeByte
      split
      · exact WaitState.setControl_buffer c.buffered _ _
      · split
        · exact WaitState.setControl_buffer c.buffered _ _
        · split <;> exact c.buffered
  aligned _ a' := by simpa [Aligned] using a'

theorem Keeps.poke16 (s : State) (a b) : Keeps s (s.poke16 a b) := (Keeps.pokeByte ..).trans (.pokeByte ..)

theorem Keeps.poke32 (s : State) (a b) : Keeps s (s.poke32 a b) := (Keeps.poke16 ..).trans (.poke16 ..)

theorem next_inj {s t : State} (h : (Host.Outcome.next s : Result) = .next t) : t = s := by injection h with h; exact h.symm

theorem andThen_next {o : Result} {f : State → Result} {t : State} (h : Result.andThen o f = .next t) :
    ∃ u, o = .next u ∧ f u = .next t := by
  cases o with
  | next u => exact ⟨u, rfl, h⟩
  | fault r => cases h
  | refused r => cases h

/-- The CPSR restore can change the instruction set. -/
theorem Loose.restoreCpsr {s t : State} (h : s.restoreCpsr = .next t) : Loose s t := by
  unfold State.restoreCpsr at h
  split at h
  · rw [next_inj h]; exact (Keeps.refl s).toLoose
  · dsimp only at h
    split at h
    · rw [next_inj h]; exact Loose.setCpsr ..
    · cases h

theorem Keeps.returnTo {s t : State} {v} (h : s.returnTo v = .next t) : Keeps s t := by
  obtain ⟨u, h1, h2⟩ := andThen_next h
  rw [next_inj h2]; exact (Loose.restoreCpsr h1).branch v

theorem Keeps.enter (s : State) (b v f) : Keeps s (s.enter b v f) := by
  rw [State.enter_eq]
  exact Loose.branch ((Loose.setCpsr s _).trans ((Keeps.setSpsrOf ..).toLoose.trans
    ((Keeps.setReg ..).toLoose.trans (Loose.setCpsr ..)))) v

/-! ## The platform -/

theorem Keeps.resetSequence (s : State) : Keeps s s.resetSequence := by
  unfold State.resetSequence
  refine Loose.branch (t := _) ?_ _
  refine ⟨fun _ => by simp, fun c => ⟨by simpa using c.memory, by simpa using WaitState.reset_configured _,
      by simp [WaitState.reset],
    by simpa using c.agenda, by simpa using c.inside⟩⟩

/-- A call that cannot leave R15 misaligned keeps the invariant. -/
theorem Keeps.platformCall {c : PlatformCall} {s t : State} (hc : c.keepsAlignment = true)
    (h : platformCall c s = .next t) : Keeps s t := by
  cases c with
  | branch a => rw [next_inj h]; exact .branch ..
  | enterThumb =>
    rw [next_inj h]
    refine ⟨Loose.setCpsr .., fun _ a => ?_⟩
    simp only [Aligned, State.setCpsr_r15, State.setCpsr_cpsr] at *
    cases ht : s.cpsr.t with
    | true => rwa [ht] at a
    | false =>
      rw [ht] at a
      rw [← a]
      simp [branchMask, BitVec.and_assoc]
  | triggerIrq m => rw [next_inj h]; exact .same (by simp) (by simp)
  | switchBank m f =>
    cases f with
    | some f => simp [PlatformCall.keepsAlignment] at hc
    | none =>
      simp only [Machine.platformCall, State.switchBank] at h
      split at h
      · cases h
      · rw [next_inj h]; exact .setCpsr _ _ rfl
  | spsrToCpsr => simp [PlatformCall.keepsAlignment] at hc
  | writeReg n v =>
    simp only [Machine.platformCall] at h
    split at h
    · rw [next_inj h]; exact .branch ..
    · rw [next_inj h]; exact .setReg ..
  | writeUser n v =>
    simp only [Machine.platformCall] at h
    split at h
    · rw [next_inj h]; exact .branch ..
    · rw [next_inj h]; exact .setUserReg ..
  | writeFlags n z c v => rw [next_inj h]; exact .setCpsr _ _ rfl
  | setHalted on => rw [next_inj h]; exact .same (by simp) (by simp)
  | waitControl v =>
    rw [next_inj h]
    exact ⟨⟨fun _ => rfl, fun c => ⟨c.memory, WaitState.setControl_configured .., WaitState.setControl_buffer c.buffered ..,
        c.agenda,
      c.inside⟩⟩, fun _ a => a⟩
  | reset => rw [next_inj h]; exact .resetSequence s
  | dmaByte a b => rw [next_inj h]; exact .pokeByte ..

theorem deferReset_keeps {l : List Turn} (h : ∀ turn ∈ l, turn.keepsAlignment) : ∀ turn ∈ deferReset l,
    turn.keepsAlignment := by
  cases l with
  | nil => simp [deferReset, Turn.keepsAlignment, PlatformCall.keepsAlignment]
  | cons t l =>
    intro turn ht
    rcases List.mem_cons.mp ht with rfl | ht
    · have := h t (by simp)
      exact ⟨fun c hc => by
        rcases List.mem_cons.mp hc with rfl | hc
        · rfl
        · exact this.1 c hc, this.2⟩
    · exact h turn (by simp [ht])

theorem Keeps.innerCall {c : PlatformCall} {s t : State} (hc : c.keepsAlignment = true)
    (h : innerCall c s = .next t) : Keeps s t := by
  unfold Machine.innerCall at h
  split at h
  · rw [next_inj h]
    exact ⟨⟨fun _ => rfl, fun k => ⟨k.memory, k.configured, k.buffered, deferReset_keeps k.agenda, k.inside⟩⟩, fun _ a => a⟩
  · exact .platformCall hc h

theorem Keeps.runCalls {call : PlatformCall → State → Result}
    (hcall : ∀ {c : PlatformCall} {s t : State}, c.keepsAlignment = true → call c s = .next t → Keeps s t)
    {l : List PlatformCall} (hl : ∀ c ∈ l, c.keepsAlignment = true) {s t : State} (h : runCalls call l s = .next t) :
    Keeps s t := by
  induction l generalizing s with
  | nil => rw [next_inj h]; exact .refl s
  | cons c l ih =>
    obtain ⟨u, h1, h2⟩ := andThen_next h
    exact (hcall (hl c (by simp)) h1).trans (ih (fun c hc => hl c (by simp [hc])) h2)

/-- What is true of the calls inside a step when the invariant holds makes every acting point harmless. -/
theorem Keeps.attend (s : State) : Keeps s s.attend := by
  suffices h : Calm s → Keeps s s.attend from ⟨⟨fun c => (h c).params c, fun c => (h c).calm c⟩, fun c => (h c).aligned c⟩
  intro hs
  unfold State.attend
  split
  · exact .refl s
  · next batch rest hin =>
    have drop : ∀ (l : List (List PlatformCall)) (r : Option Refusal), (∀ b ∈ l, b ∈ s.inside) →
        Keeps s { s with inside := l, stop := r } := fun l r hl =>
      ⟨⟨fun _ => rfl, fun c => ⟨c.memory, c.configured, c.buffered, c.agenda, fun b hb => c.inside b (hl b hb)⟩⟩,
          fun _ a => a⟩
    split
    · next t ht =>
      exact (drop rest s.stop fun b hb => by simp [hin, hb]).trans
        (Keeps.runCalls Keeps.innerCall (hs.inside batch (by simp [hin])) ht)
    · next r hr => exact drop [] (some r) (by simp)

/-! ## Hooks and accesses -/

theorem Keeps.call (s : State) (f c) (h : WaitState.Kept s.params.prebufCap s.ws (f s.ws)) : Keeps s (s.call f c) :=
  ((Keeps.clock s f h).trans (.note ..)).trans (.attend _)

theorem Keeps.internal (s : State) : Keeps s s.internal := .call _ _ _ (.charge ..)
theorem Keeps.nonSeq (s : State) : Keeps s s.nonSeq := .call _ _ _ (.nonSeq _)
theorem Keeps.multiplier (s : State) (m) : Keeps s (s.multiplier m) := .call _ _ _ (.charge ..)
theorem Keeps.bulkCharge (s : State) (n a) : Keeps s (s.bulkCharge n a) := .call _ _ _ (.bulk ..)
theorem Keeps.fetch32 (s : State) (a) : Keeps s (s.fetch32 a).2 := (Keeps.call _ _ _ (.fetchCost ..)).trans (.answered ..)
theorem Keeps.memRead8 (s : State) (a t) : Keeps s (s.memRead8 a t).2 :=
    (Keeps.call _ _ _ (.dataCost ..)).trans (.answered ..)
theorem Keeps.memRead16 (s : State) (a t) : Keeps s (s.memRead16 a t).2 :=
  (Keeps.call _ _ _ (.dataCost ..)).trans (.answered ..)
theorem Keeps.memRead32 (s : State) (a t) : Keeps s (s.memRead32 a t).2 :=
  (Keeps.call _ _ _ (.dataCost ..)).trans (.answered ..)
theorem Keeps.memReadRaw32 (s : State) (a) : Keeps s (s.memReadRaw32 a).2 := (Keeps.note ..).trans (.answered ..)

theorem Keeps.write (s : State) (f c t) (poke : State → State) (h : WaitState.Kept s.params.prebufCap s.ws (f s.ws))
    (hp : ∀ x, Keeps x (poke x)) : Keeps s (s.write f c t poke) := by
  unfold State.write
  split
  · exact (((Keeps.clock s f h).trans (.note ..)).trans (hp _)).trans (.attend _)
  · exact (Keeps.call _ _ _ h).trans (hp _)

theorem Keeps.memWrite8 (s : State) (a v t) : Keeps s (s.memWrite8 a v t) :=
  .write _ _ _ _ _ (.dataCost ..) fun _ => .pokeByte ..
theorem Keeps.memWrite16 (s : State) (a v t) : Keeps s (s.memWrite16 a v t) :=
  .write _ _ _ _ _ (.dataCost ..) fun _ => .poke16 ..
theorem Keeps.memWrite32 (s : State) (a v t) : Keeps s (s.memWrite32 a v t) :=
  .write _ _ _ _ _ (.dataCost ..) fun _ => .poke32 ..
theorem Keeps.memWriteRaw32 (s : State) (a v) : Keeps s (s.memWriteRaw32 a v) := (Keeps.note ..).trans (.poke32 ..)

/-! ## Sequences -/

theorem Keeps.guardedWrite (s : State) (n v) : Keeps s (s.guardedWrite n v) := by
  unfold State.guardedWrite; split
  · exact .branch ..
  · exact (Keeps.setReg ..).trans (.advancePC _)

theorem Keeps.beforeOperands (s : State) (op2) : Keeps s (s.beforeOperands op2) := by
  unfold State.beforeOperands; split
  · exact (Keeps.advancePC s).trans (.internal _)
  · exact .refl s

theorem Keeps.afterOperation (s : State) (op2) : Keeps s (s.afterOperation op2) := by
  unfold State.afterOperation; split
  · exact .refl s
  · exact .advancePC s

theorem Keeps.dataProcess {s t : State} {sf rd op2 f} (hf : ∀ x b, (f x b).cpsr.t = x.cpsr.t)
    (h : s.dataProcess sf rd op2 f = .next t) : Keeps s t := by
  have h1 := Keeps.beforeOperands s op2
  unfold State.dataProcess at h
  dsimp only at h
  have hT := hf (s.beforeOperands op2) ((s.beforeOperands op2).operand2 op2)
  generalize f (s.beforeOperands op2) _ = out at *
  have h2 : Keeps s (if sf = true then (s.beforeOperands op2).setCpsr out.cpsr else s.beforeOperands op2) := by
    split
    · exact h1.trans (.setCpsr _ _ hT)
    · exact h1
  generalize (if sf = true then (s.beforeOperands op2).setCpsr out.cpsr else s.beforeOperands op2) = u at h h2
  refine h2.trans ?_
  unfold State.writeResult at h
  split at h
  · split at h
    · exact .returnTo h
    · rw [next_inj h]; exact .branch ..
  · rw [next_inj h]; exact (Keeps.setReg ..).trans (.afterOperation ..)

theorem Keeps.compare {s t : State} {op2 f} (hf : ∀ x b, (f x b).cpsr.t = x.cpsr.t) (h : s.compare op2 f = .next t) :
    Keeps s t := by
  rw [next_inj h]
  exact ((Keeps.beforeOperands s op2).trans (.setCpsr _ _ (hf _ _))).trans (.afterOperation ..)

theorem Keeps.writeBack (s : State) (rn wb) : Keeps s (s.writeBack rn wb) := by
  cases wb
  · exact .refl s
  · exact .setReg ..

theorem Keeps.load {s t : State} {e : Effective} {rn rd read} (hr : ∀ x a, Keeps x (read x a).2)
    (h : s.load e rn rd read = .next t) : Keeps s t := by
  unfold State.load at h; split at h
  · cases h
  · rw [next_inj h]
    exact (((((Keeps.nonSeq s).trans (hr ..)).trans (.nonSeq _)).trans (.writeBack ..)).trans (.internal _)).trans
      (.guardedWrite ..)

theorem Keeps.store {s t : State} {e : Effective} {rn rd write} (hw : ∀ x a v, Keeps x (write x a v))
    (h : s.store e rn rd write = .next t) : Keeps s t := by
  unfold State.store at h; split at h
  · cases h
  · rw [next_inj h]
    exact ((((Keeps.nonSeq s).trans (hw ..)).trans (.nonSeq _)).trans (.writeBack ..)).trans (.advancePC _)

theorem Keeps.swap (s : State) (rn rd rm) {read write} (hr : ∀ x a, Keeps x (read x a).2)
    (hw : ∀ x a v, Keeps x (write x a v)) : Keeps s (s.swap rn rd rm read write) :=
  ((((Keeps.nonSeq s).trans (hr ..)).trans (hw ..)).trans ((Keeps.nonSeq _).trans (.internal _))).trans (.guardedWrite ..)

theorem Keeps.commit (s : State) (rn wb) : Keeps s (s.commit rn wb) := by
  cases wb
  · exact .refl s
  · exact .setReg ..

theorem Keeps.takeLoaded (s : State) (user i v) : Keeps s (s.takeLoaded user i v) := by
  unfold State.takeLoaded State.setListedReg
  split
  · exact .refl s
  · split
    · exact .setUserReg ..
    · exact .setReg ..

theorem Keeps.loadOne (s : State) (user rn wb i v) : Keeps s (s.loadOne user rn wb i v) := by
  unfold State.loadOne
  split
  · exact (Keeps.commit ..).trans (.takeLoaded ..)
  · exact (Keeps.takeLoaded ..).trans (.commit ..)

theorem Keeps.storeWords (user rn l wb a) (s : State) : Keeps s (storeWords user rn l wb a s) := by
  induction l generalizing wb a s with
  | nil => exact .refl s
  | cons i l ih => exact ((Keeps.memWriteRaw32 ..).trans (.commit ..)).trans (ih ..)

theorem Keeps.loadWords (user rn l wb a) (s : State) : Keeps s (loadWords user rn l wb a s).1 := by
  induction l generalizing wb a s with
  | nil => exact .refl s
  | cons i l ih => exact ((Keeps.memReadRaw32 ..).trans (.loadOne ..)).trans (ih ..)

theorem Keeps.storeMultiple {s t : State} {p u w user rn list} (h : s.storeMultiple p u w user rn list = .next t) :
    Keeps s t := by
  unfold State.storeMultiple at h; split at h
  · cases h
  · rw [next_inj h]
    exact (((Keeps.nonSeq s).trans (.storeWords ..)).trans ((Keeps.bulkCharge ..).trans (.nonSeq _))).trans (.advancePC _)

theorem Keeps.loadMultiple {s t : State} {p u w sbit rn list} (h : s.loadMultiple p u w sbit rn list = .next t) :
    Keeps s t := by
  unfold State.loadMultiple at h; split at h
  · cases h
  · have tail : ∀ (x : State) n a, Keeps x (x.bulkCharge n a).internal.nonSeq := fun x n a =>
      ((Keeps.bulkCharge x n a).trans (.internal _)).trans (.nonSeq _)
    dsimp only at h
    have hk : Keeps s _ := (Keeps.nonSeq s).trans ((Keeps.loadWords (sbit && !(transferred list).contains 15) rn
      (transferred list) (if w = true then some (blockFinal u (s.reg rn) (transferCount list)) else none)
      (blockStart p u (s.reg rn) (transferCount list)) s.nonSeq).trans
      (tail _ (transferred list).length (align4 (blockStart p u (s.reg rn) (transferCount list)))))
    refine hk.trans ?_
    split at h
    · split at h
      · exact .returnTo h
      · rw [next_inj h]; exact .branch ..
    · rw [next_inj h]; exact .advancePC _

theorem Keeps.mulFlags (s : State) (sf n z) : Keeps s (s.mulFlags sf n z) := by
  unfold State.mulFlags; split
  · exact .setCpsr _ _ rfl
  · exact .refl s

theorem Keeps.finishMul (s : State) (sf rd r) : Keeps s (s.finishMul sf rd r) := (Keeps.mulFlags ..).trans (.guardedWrite ..)

theorem Keeps.writeLong (s : State) (lo hi r) : Keeps s (s.writeLong lo hi r) := by
  refine Keeps.trans (t := if lo = 15 then s else s.setReg lo (lo64 r)) ?_ (.guardedWrite ..)
  split
  · exact .refl s
  · exact .setReg ..

theorem Keeps.finishLong (s : State) (sf hi lo r m) : Keeps s (s.finishLong sf hi lo r m) :=
  ((Keeps.multiplier s m).trans (.mulFlags ..)).trans (.writeLong ..)

theorem Keeps.msrCpsr {s t : State} {mask op} (h : s.msrCpsr mask op = .next t) : Keeps s t := by
  unfold State.msrCpsr at h
  dsimp only at h
  split at h
  · split at h
    · rw [next_inj h]
      refine (Keeps.setCpsr s _ ?_).trans (.advancePC _)
      dsimp only; split <;> rfl
    · cases h
  · rw [next_inj h]
    refine (Keeps.setCpsr s _ ?_).trans (.advancePC _)
    split <;> rfl

theorem Keeps.msrSpsr {s t : State} {mask op} (h : s.msrSpsr mask op = .next t) : Keeps s t := by
  unfold State.msrSpsr at h
  split at h
  · rw [next_inj h]; exact (Keeps.setSpsrOf ..).trans (.advancePC _)
  · rw [next_inj h]; exact .advancePC _

theorem Keeps.readWord (t : BusAttr) (s : State) (a) : Keeps s (readWord t s a).2 := Keeps.memRead32 ..
theorem Keeps.readByte (t : BusAttr) (s : State) (a) : Keeps s (readByte t s a).2 := Keeps.memRead8 ..
theorem Keeps.readHalf (s : State) (a) : Keeps s (readHalf s a).2 := Keeps.memRead16 ..
theorem Keeps.readSignedByte (s : State) (a) : Keeps s (readSignedByte s a).2 := Keeps.memRead8 ..
theorem Keeps.readSignedHalf (s : State) (a) : Keeps s (readSignedHalf s a).2 := by
  unfold Machine.readSignedHalf; split
  · exact Keeps.memRead8 ..
  · exact Keeps.memRead16 ..
theorem Keeps.writeWord (t : BusAttr) (s : State) (a v) : Keeps s (writeWord t s a v) := Keeps.memWrite32 ..
theorem Keeps.writeByte (t : BusAttr) (s : State) (a v) : Keeps s (writeByte t s a v) := Keeps.memWrite8 ..
theorem Keeps.writeHalf (s : State) (a v) : Keeps s (writeHalf s a v) := Keeps.memWrite16 ..

/-- Every instruction that completes keeps what the invariant speaks of. -/
theorem exec_keeps {i : Instr} {s t : State} (h : exec i s = .next t) : Keeps s t := by
  cases i
  all_goals simp only [exec, execAnd, execEor, execSub, execRsb, execAdd, execAdc, execSbc, execRsc, execOrr, execMov,
      execBic,
    execMvn, execTst, execTeq, execCmp, execCmn, execStr, execLdr, execStrb, execLdrb, execStrt, execLdrt, execStrbt,
        execLdrbt,
    execStrh, execLdrh, execLdrsb, execLdrsh, execStm, execStmUser, execLdm, execLdmUser, execMrsCpsr, execMrsSpsr,
    execMsrCpsrReg, execMsrCpsrImm, execMsrSpsrReg, execMsrSpsrImm, execUmull, execUmlal, execSmull, execSmlal, execMul,
        execMla,
    execSwp, execSwpb, execB, execBl, execBx, execSwi, execUndefined] at h
  case and | eor | sub | rsb | add | adc | sbc | rsc | orr | mov | bic | mvn =>
    exact Keeps.dataProcess (fun _ _ => rfl) h
  case tst | teq | cmp | cmn => exact Keeps.compare (fun _ _ => rfl) h
  case mrsCpsr | mrsSpsr => rw [next_inj h]; exact .guardedWrite ..
  case msrCpsrReg | msrCpsrImm => exact .msrCpsr h
  case msrSpsrReg | msrSpsrImm => exact .msrSpsr h
  case bx => rw [next_inj h]; exact (Loose.setCpsr ..).branch _
  case mul | mla =>
    split at h <;> rw [next_inj h]
    · exact .finishMul ..
    · exact (Keeps.multiplier ..).trans (.finishMul ..)
  case umull | umlal | smull | smlal => rw [next_inj h]; exact .finishLong ..
  case swp => rw [next_inj h]; exact .swap _ _ _ _ (Keeps.readWord _) (Keeps.writeWord _)
  case swpb => rw [next_inj h]; exact .swap _ _ _ _ (Keeps.readByte _) (Keeps.writeByte _)
  case strh => exact .store Keeps.writeHalf h
  case ldrh => exact .load Keeps.readHalf h
  case ldrsb => exact .load Keeps.readSignedByte h
  case ldrsh => exact .load Keeps.readSignedHalf h
  case str | strt => exact .store (Keeps.writeWord _) h
  case ldr | ldrt => exact .load (Keeps.readWord _) h
  case strb | strbt => exact .store (Keeps.writeByte _) h
  case ldrb | ldrbt => exact .load (Keeps.readByte _) h
  case stm | stmUser => exact .storeMultiple h
  case ldm | ldmUser => exact .loadMultiple h
  case b => rw [next_inj h]; exact .branch ..
  case bl => rw [next_inj h]; exact (Keeps.setReg ..).trans (.branch ..)
  case swi | undefined => rw [next_inj h]; exact .enter ..

/-! ## Steps of the core -/

theorem Keeps.fetchNext (s : State) : Keeps s s.fetchNext :=
    (Keeps.fetch32 s s.r15).trans (.same (by simp [State.fetchNext]) (by simp [State.fetchNext]))

theorem Keeps.coreStep {s t : State} (h : coreStep s = .next t) : Keeps s t := by
  unfold Machine.coreStep at h
  split at h
  · rw [next_inj h]; exact .refl s
  · split at h
    · cases h
    · split at h
      · rw [next_inj h]
        exact (((Keeps.fetchNext s).trans (.advancePC _)).trans (.shiftLatches _)).trans
          (.same (by simp [State.bubbleStep]) (by simp [State.bubbleStep]))
      · split at h
        · rw [next_inj h]; rw [State.raiseIrq_eq]; exact (Keeps.clock s _ (.charge ..)).trans (.enter ..)
        · obtain ⟨u, h1, h2⟩ := andThen_next h
          rw [next_inj h2]
          refine ((Keeps.fetchNext s).trans ?_).trans (.shiftLatches u)
          unfold State.executeStage at h1
          split at h1
          · exact exec_keeps h1
          · rw [next_inj h1]; exact .advancePC _

end Sys2Proof.Machine
end

