-- ==== Sys2Proof/Laws/PerInstr.lean ====
section
/-! SUPPORT. The per-instruction family `Condition`: an encoded instruction carries the condition it was encoded under
(30_encoding.md R121), one lemma for each constructor of `Instr`. -/

namespace Sys2Proof.Laws.Condition

/-- The condition field of the encoded word is the condition. -/
def Statement (i : Instr) : Prop := ∀ c : Cond, condOf (encode c i) = c

theorem encodeDp_condition (c : Cond) (op : BitVec 4) (s : Bool) (rn rd : BitVec 4) (op2 : Operand2) :
    condOf (encodeDp c op s rn rd op2) = c := by
  cases op2 <;> simp (disch := decide) only [encodeDp, condOf, bits, bits_append_high, Cond.ofField_code,
    BitVec.extractLsb'_eq_self, Nat.reduceSub, Nat.sub_self]

theorem encodeSingle_condition (c : Cond) (p u b w l : Bool) (rn rd : Reg) (off : WordOffset) :
    condOf (encodeSingle c p u b w l rn rd off) = c := by
  cases off <;> simp (disch := decide) only [encodeSingle, condOf, bits, bits_append_high, Cond.ofField_code,
    BitVec.extractLsb'_eq_self, Nat.reduceSub, Nat.sub_self]

theorem encodeHalf_condition (c : Cond) (p u w l : Bool) (sh : BitVec 2) (rn rd : Reg) (off : HalfOffset) :
    condOf (encodeHalf c p u w l sh rn rd off) = c := by
  cases off <;> simp (disch := decide) only [encodeHalf, condOf, bits, bits_append_high, Cond.ofField_code,
    BitVec.extractLsb'_eq_self, Nat.reduceSub, Nat.sub_self]

theorem encodeBlock_condition (c : Cond) (p u s w l : Bool) (rn : Reg) (list : BitVec 16) :
    condOf (encodeBlock c p u s w l rn list) = c := by
  simp (disch := decide) only [encodeBlock, condOf, bits, bits_append_high, Cond.ofField_code,
    BitVec.extractLsb'_eq_self, Nat.reduceSub, Nat.sub_self]

theorem encodeMul_condition (c : Cond) (op : BitVec 4) (s : Bool) (hi lo : BitVec 4) (rs rm : Reg) :
    condOf (encodeMul c op s hi lo rs rm) = c := by
  simp (disch := decide) only [encodeMul, condOf, bits, bits_append_high, Cond.ofField_code,
    BitVec.extractLsb'_eq_self, Nat.reduceSub, Nat.sub_self]

theorem encodeMisc_condition (c : Cond) (op a b d e f : BitVec 4) : condOf (encodeMisc c op a b d e f) = c := by
  simp (disch := decide) only [encodeMisc, condOf, bits, bits_append_high, Cond.ofField_code,
    BitVec.extractLsb'_eq_self, Nat.reduceSub, Nat.sub_self]

theorem encodeMsrImm_condition (c : Cond) (op mask rot : BitVec 4) (imm8 : Byte) :
    condOf (encodeMsrImm c op mask rot imm8) = c := by
  simp (disch := decide) only [encodeMsrImm, condOf, bits, bits_append_high, Cond.ofField_code,
    BitVec.extractLsb'_eq_self, Nat.reduceSub, Nat.sub_self]

theorem and (s : Bool) (rn rd : Reg) (op2 : Operand2) : Statement (.and s rn rd op2) :=
  fun c => encodeDp_condition c _ _ _ _ _

theorem eor (s : Bool) (rn rd : Reg) (op2 : Operand2) : Statement (.eor s rn rd op2) :=
  fun c => encodeDp_condition c _ _ _ _ _

theorem sub (s : Bool) (rn rd : Reg) (op2 : Operand2) : Statement (.sub s rn rd op2) :=
  fun c => encodeDp_condition c _ _ _ _ _

theorem rsb (s : Bool) (rn rd : Reg) (op2 : Operand2) : Statement (.rsb s rn rd op2) :=
  fun c => encodeDp_condition c _ _ _ _ _

theorem add (s : Bool) (rn rd : Reg) (op2 : Operand2) : Statement (.add s rn rd op2) :=
  fun c => encodeDp_condition c _ _ _ _ _

theorem adc (s : Bool) (rn rd : Reg) (op2 : Operand2) : Statement (.adc s rn rd op2) :=
  fun c => encodeDp_condition c _ _ _ _ _

theorem sbc (s : Bool) (rn rd : Reg) (op2 : Operand2) : Statement (.sbc s rn rd op2) :=
  fun c => encodeDp_condition c _ _ _ _ _

theorem rsc (s : Bool) (rn rd : Reg) (op2 : Operand2) : Statement (.rsc s rn rd op2) :=
  fun c => encodeDp_condition c _ _ _ _ _

theorem tst (rn : Reg) (op2 : Operand2) : Statement (.tst rn op2) := fun c => encodeDp_condition c _ _ _ _ _

theorem teq (rn : Reg) (op2 : Operand2) : Statement (.teq rn op2) := fun c => encodeDp_condition c _ _ _ _ _

theorem cmp (rn : Reg) (op2 : Operand2) : Statement (.cmp rn op2) := fun c => encodeDp_condition c _ _ _ _ _

theorem cmn (rn : Reg) (op2 : Operand2) : Statement (.cmn rn op2) := fun c => encodeDp_condition c _ _ _ _ _

theorem orr (s : Bool) (rn rd : Reg) (op2 : Operand2) : Statement (.orr s rn rd op2) :=
  fun c => encodeDp_condition c _ _ _ _ _

theorem mov (s : Bool) (rd : Reg) (op2 : Operand2) : Statement (.mov s rd op2) := fun c => encodeDp_condition c _ _ _ _ _

theorem bic (s : Bool) (rn rd : Reg) (op2 : Operand2) : Statement (.bic s rn rd op2) :=
  fun c => encodeDp_condition c _ _ _ _ _

theorem mvn (s : Bool) (rd : Reg) (op2 : Operand2) : Statement (.mvn s rd op2) := fun c => encodeDp_condition c _ _ _ _ _

theorem mrsCpsr (rd : Reg) : Statement (.mrsCpsr rd) := fun c => encodeMisc_condition c _ _ _ _ _ _

theorem mrsSpsr (rd : Reg) : Statement (.mrsSpsr rd) := fun c => encodeMisc_condition c _ _ _ _ _ _

theorem msrCpsrReg (mask : BitVec 4) (rm : Reg) : Statement (.msrCpsrReg mask rm) :=
  fun c => encodeMisc_condition c _ _ _ _ _ _

theorem msrSpsrReg (mask : BitVec 4) (rm : Reg) : Statement (.msrSpsrReg mask rm) :=
  fun c => encodeMisc_condition c _ _ _ _ _ _

theorem msrCpsrImm (mask : BitVec 4) (rot : BitVec 4) (imm8 : Byte) : Statement (.msrCpsrImm mask rot imm8) :=
  fun c => encodeMsrImm_condition c _ _ _ _

theorem msrSpsrImm (mask : BitVec 4) (rot : BitVec 4) (imm8 : Byte) : Statement (.msrSpsrImm mask rot imm8) :=
  fun c => encodeMsrImm_condition c _ _ _ _

theorem bx (rm : Reg) : Statement (.bx rm) := fun c => encodeMisc_condition c _ _ _ _ _ _

theorem mul (s : Bool) (rd rs rm : Reg) : Statement (.mul s rd rs rm) := fun c => encodeMul_condition c _ _ _ _ _ _

theorem mla (s : Bool) (rd rn rs rm : Reg) : Statement (.mla s rd rn rs rm) := fun c => encodeMul_condition c _ _ _ _ _ _

theorem umull (s : Bool) (rdHi rdLo rs rm : Reg) : Statement (.umull s rdHi rdLo rs rm) :=
  fun c => encodeMul_condition c _ _ _ _ _ _

theorem umlal (s : Bool) (rdHi rdLo rs rm : Reg) : Statement (.umlal s rdHi rdLo rs rm) :=
  fun c => encodeMul_condition c _ _ _ _ _ _

theorem smull (s : Bool) (rdHi rdLo rs rm : Reg) : Statement (.smull s rdHi rdLo rs rm) :=
  fun c => encodeMul_condition c _ _ _ _ _ _

theorem smlal (s : Bool) (rdHi rdLo rs rm : Reg) : Statement (.smlal s rdHi rdLo rs rm) :=
  fun c => encodeMul_condition c _ _ _ _ _ _

theorem swp (rn rd rm : Reg) : Statement (.swp rn rd rm) := fun c => encodeMisc_condition c _ _ _ _ _ _

theorem swpb (rn rd rm : Reg) : Statement (.swpb rn rd rm) := fun c => encodeMisc_condition c _ _ _ _ _ _

theorem strh (p u w : Bool) (rn rd : Reg) (off : HalfOffset) : Statement (.strh p u w rn rd off) :=
  fun c => encodeHalf_condition c _ _ _ _ _ _ _ _

theorem ldrh (p u w : Bool) (rn rd : Reg) (off : HalfOffset) : Statement (.ldrh p u w rn rd off) :=
  fun c => encodeHalf_condition c _ _ _ _ _ _ _ _

theorem ldrsb (p u w : Bool) (rn rd : Reg) (off : HalfOffset) : Statement (.ldrsb p u w rn rd off) :=
  fun c => encodeHalf_condition c _ _ _ _ _ _ _ _

theorem ldrsh (p u w : Bool) (rn rd : Reg) (off : HalfOffset) : Statement (.ldrsh p u w rn rd off) :=
  fun c => encodeHalf_condition c _ _ _ _ _ _ _ _

theorem str (p u w : Bool) (rn rd : Reg) (off : WordOffset) : Statement (.str p u w rn rd off) :=
  fun c => encodeSingle_condition c _ _ _ _ _ _ _ _

theorem ldr (p u w : Bool) (rn rd : Reg) (off : WordOffset) : Statement (.ldr p u w rn rd off) :=
  fun c => encodeSingle_condition c _ _ _ _ _ _ _ _

theorem strb (p u w : Bool) (rn rd : Reg) (off : WordOffset) : Statement (.strb p u w rn rd off) :=
  fun c => encodeSingle_condition c _ _ _ _ _ _ _ _

theorem ldrb (p u w : Bool) (rn rd : Reg) (off : WordOffset) : Statement (.ldrb p u w rn rd off) :=
  fun c => encodeSingle_condition c _ _ _ _ _ _ _ _

theorem strt (u : Bool) (rn rd : Reg) (off : WordOffset) : Statement (.strt u rn rd off) :=
  fun c => encodeSingle_condition c _ _ _ _ _ _ _ _

theorem ldrt (u : Bool) (rn rd : Reg) (off : WordOffset) : Statement (.ldrt u rn rd off) :=
  fun c => encodeSingle_condition c _ _ _ _ _ _ _ _

theorem strbt (u : Bool) (rn rd : Reg) (off : WordOffset) : Statement (.strbt u rn rd off) :=
  fun c => encodeSingle_condition c _ _ _ _ _ _ _ _

theorem ldrbt (u : Bool) (rn rd : Reg) (off : WordOffset) : Statement (.ldrbt u rn rd off) :=
  fun c => encodeSingle_condition c _ _ _ _ _ _ _ _

theorem stm (p u w : Bool) (rn : Reg) (list : BitVec 16) : Statement (.stm p u w rn list) :=
  fun c => encodeBlock_condition c _ _ _ _ _ _ _

theorem ldm (p u w : Bool) (rn : Reg) (list : BitVec 16) : Statement (.ldm p u w rn list) :=
  fun c => encodeBlock_condition c _ _ _ _ _ _ _

theorem stmUser (p u w : Bool) (rn : Reg) (list : BitVec 16) : Statement (.stmUser p u w rn list) :=
  fun c => encodeBlock_condition c _ _ _ _ _ _ _

theorem ldmUser (p u w : Bool) (rn : Reg) (list : BitVec 16) : Statement (.ldmUser p u w rn list) :=
  fun c => encodeBlock_condition c _ _ _ _ _ _ _

theorem b (imm24 : BitVec 24) : Statement (.b imm24) := fun c => by
  simp (disch := decide) only [encode, condOf, bits, bits_append_high, Cond.ofField_code,
    BitVec.extractLsb'_eq_self, Nat.reduceSub, Nat.sub_self]

theorem bl (imm24 : BitVec 24) : Statement (.bl imm24) := fun c => by
  simp (disch := decide) only [encode, condOf, bits, bits_append_high, Cond.ofField_code,
    BitVec.extractLsb'_eq_self, Nat.reduceSub, Nat.sub_self]

theorem swi (comment : BitVec 24) : Statement (.swi comment) := fun c => by
  simp (disch := decide) only [encode, condOf, bits, bits_append_high, Cond.ofField_code,
    BitVec.extractLsb'_eq_self, Nat.reduceSub, Nat.sub_self]

theorem undefined (rest : BitVec 28) : Statement (.undefined rest) := fun c => by
  simp (disch := decide) only [encode, condOf, bits, bits_append_high, Cond.ofField_code,
    BitVec.extractLsb'_eq_self, Nat.sub_self]

end Sys2Proof.Laws.Condition
end

