-- ==== Sys2Proof/Laws/Shift.lean ====
section
/-! SUPPORT. The barrel shifter in exact arithmetic (41_shifter_operand2.md): rotation is BitVec's,
    shifts of 32 and more give
what multiplication and division by the power of two give. -/

namespace Sys2Proof.Machine

theorem ror32_eq (v : Word) (n : Nat) : ror32 v n = v.rotateRight n := by
  apply BitVec.eq_of_getLsbD_eq
  intro i hi
  simp only [ror32, lsr32, lsl32]
  rw [BitVec.getLsbD_rotateRight]
  split
  · next h => simp [h, hi]
  · next h =>
    simp only [BitVec.getLsbD_or, BitVec.getLsbD_ushiftRight, BitVec.getLsbD_shiftLeft]
    have : n % 32 < 32 := Nat.mod_lt _ (by omega)
    by_cases h2 : i < 32 - n % 32
    · simp [h2]
    · simp [h2, hi, BitVec.getLsbD_of_ge v (n % 32 + i) (by omega)]

theorem Word.msb_eq (m : Word) : m.msb = m.getLsbD 31 := by simp [BitVec.msb_eq_getLsbD_last]

/-- A left shift by 32 or more. -/
theorem mul_two_pow_mod (m : Word) (n : Nat) (h : 32 ≤ n) : m.toNat * 2 ^ n % 2 ^ 32 = 0 := by
  obtain ⟨k, rfl⟩ := Nat.exists_eq_add_of_le h
  rw [Nat.pow_add]
  simp only [← Nat.mul_assoc]
  rw [Nat.mul_right_comm]
  exact Nat.mul_mod_left _ _

/-- A logical right shift by 32 or more. -/
theorem div_two_pow_zero (m : Word) (n : Nat) (h : 32 ≤ n) : m.toNat / 2 ^ n = 0 :=
  Nat.div_eq_of_lt (lt_of_lt_of_le m.isLt (Nat.pow_le_pow_right (by omega) h))

/-- An arithmetic right shift by 32 or more. -/
theorem signFill_toInt (m : Word) (n : Nat) (h : 32 ≤ n) : (signFill m).toInt = m.toInt / 2 ^ n := by
  have h1 := BitVec.toInt_lt (x := m)
  have h2 := BitVec.le_toInt m
  have hp : (2 : Int) ^ 32 ≤ 2 ^ n := by exact_mod_cast Nat.pow_le_pow_right (by omega) h
  unfold signFill
  have hm := BitVec.msb_eq_toInt (x := m)
  split
  · next h =>
    rw [hm] at h
    simp at h
    have : m.toInt / 2 ^ n = -1 := by apply Int.ediv_eq_neg_one_of_neg_of_le <;> omega
    rw [this]
    decide
  · next h =>
    rw [hm] at h
    simp at h
    rw [Int.ediv_eq_zero_of_lt (by omega) (by omega)]
    decide

/-- Rotating by a multiple of 32 does nothing. -/
theorem rotateRight_of_mod (m : Word) (n : Nat) (h : n % 32 = 0) : m.rotateRight n = m := by
  apply BitVec.eq_of_getLsbD_eq
  intro i hi
  rw [BitVec.getLsbD_rotateRight, h]
  simp [hi]

/-- The carry-out of a rotation is the top bit of its result. -/
theorem msb_rotateRight (m : Word) (n : Nat) :
    (m.rotateRight n).msb = if n % 32 = 0 then m.msb else m.getLsbD (n % 32 - 1) := by
  have hn : n % 32 < 32 := Nat.mod_lt _ (by omega)
  split
  · next h => rw [rotateRight_of_mod m n h]
  · next h =>
    rw [Word.msb_eq, BitVec.getLsbD_rotateRight]
    have h1 : ¬ 31 < 32 - n % 32 := by omega
    simp only [h1, decide_false, cond_false]
    rw [show 31 - (32 - n % 32) = n % 32 - 1 by omega]
    simp

end Sys2Proof.Machine
end

