-- ==== Sys2Proof/Laws/Steps.lean ====
section
/-! SUPPORT. What any instruction can do to the privileged state when the platform does nothing inside it,
    once for all 51: from
the shared operations up to `exec_ending`, the three ways an instruction that completes can end (60_exceptions.md R384,
    R385). -/

namespace Sys2Proof.Machine

/-- CPSR, the saved words and the registers of banks other than the present one and User's are as before. -/
structure Untouched (s t : State) : Prop where
  inside : t.inside = []
  cpsr : t.cpsr = s.cpsr
  spsrs : ∀ b, t.spsrOf b = s.spsrOf b
  priv : ∀ p, (∀ n, physical s.cpsr.mode n ≠ some p) → (∀ n, physical .user n ≠ some p) → t.phys p = s.phys p

/-- The middle of an instruction: untouched, if the platform does nothing. -/
structure Mild (s t : State) : Prop where
  untouched : s.inside = [] → Untouched s t

theorem Untouched.refl {s : State} (h : s.inside = []) : Untouched s s := ⟨h, rfl, fun _ => rfl, fun _ _ _ => rfl⟩

theorem Untouched.trans {s t u : State} (h : Untouched s t) (h' : Untouched t u) : Untouched s u :=
  ⟨h'.inside, h'.cpsr.trans h.cpsr, fun b => (h'.spsrs b).trans (h.spsrs b),
    fun p a b => (h'.priv p (by rw [h.cpsr]; exact a) b).trans (h.priv p a b)⟩

theorem Mild.refl (s : State) : Mild s s := ⟨.refl⟩

theorem Mild.trans {s t u : State} (h : Mild s t) (h' : Mild t u) : Mild s u :=
  ⟨fun q => (h.untouched q).trans (h'.untouched (h.untouched q).inside)⟩

/-- What changes no register is mild. -/
theorem Mild.frame {s t : State} (h : s.inside = [] → Frame s t [] ∧ t.cpsr = s.cpsr) : Mild s t where
  untouched q :=
    ⟨(h q).1.fixed.2.1.trans q, (h q).2, fun b => (h q).1.spsrs b (by simp), fun p _ _ => (h q).1.regs p (by simp)⟩

theorem Mild.still {s t : State} (h : s.inside = [] → Still s t) : Mild s t := .frame fun q => ⟨(h q).frame, (h q).cpsr⟩

/-! ## Hooks and accesses -/

theorem Mild.nonSeq (s : State) : Mild s s.nonSeq := .still Still.nonSeq
theorem Mild.internal (s : State) : Mild s s.internal := .still Still.internal
theorem Mild.multiplier (s : State) (m) : Mild s (s.multiplier m) := .still fun q => Still.multiplier q m
theorem Mild.bulkCharge (s : State) (n a) : Mild s (s.bulkCharge n a) := .still fun q => Still.bulkCharge q n a
theorem Mild.memRead8 (s : State) (a t) : Mild s (s.memRead8 a t).2 := .still fun q => Still.memRead8 q a t
theorem Mild.memRead16 (s : State) (a t) : Mild s (s.memRead16 a t).2 := .still fun q => Still.memRead16 q a t
theorem Mild.memRead32 (s : State) (a t) : Mild s (s.memRead32 a t).2 := .still fun q => Still.memRead32 q a t
theorem Mild.memReadRaw32 (s : State) (a) : Mild s (s.memReadRaw32 a).2 := .still fun _ => Still.memReadRaw32 s a

theorem Mild.fetchNext (s : State) : Mild s s.fetchNext where
  untouched q :=
    have h := Still.fetch32 q s.r15
    ⟨h.quiet q, h.cpsr, fun b => h.frame.spsrs b (by simp), fun p _ _ => h.frame.regs p (by simp)⟩

theorem Mild.write (s : State) (f c t) (poke : State → State)
    (hp : ∀ x, Frame x (poke x) [] ∧ (poke x).cpsr = x.cpsr) : Mild s (s.write f c t poke) := .frame fun q => by
  rw [State.write_quiet q f c t poke fun x => (hp x).1.fixed.2.1]
  exact ⟨Frame.trans (.of_eq (by simp) (by simp) (by simp) (by simp) (by simp)) (hp _).1, by simp [(hp _).2]⟩

theorem Mild.memWrite8 (s : State) (a v t) : Mild s (s.memWrite8 a v t) := .write _ _ _ _ _ fun x => ⟨.pokeByte x _ _,
    by simp⟩
theorem Mild.memWrite16 (s : State) (a v t) : Mild s (s.memWrite16 a v t) := .write _ _ _ _ _ fun x => ⟨.poke16 x _ _,
    by simp⟩
theorem Mild.memWrite32 (s : State) (a v t) : Mild s (s.memWrite32 a v t) := .write _ _ _ _ _ fun x => ⟨.poke32 x _ _,
    by simp⟩
theorem Mild.memWriteRaw32 (s : State) (a v) : Mild s (s.memWriteRaw32 a v) := .frame fun _ => by
  rw [State.memWriteRaw32]
  exact ⟨Frame.trans (.of_eq (by simp) (by simp) (by simp) (by simp) (by simp)) (.poke32 (s.note _) a v), by simp⟩

theorem Mild.setReg (s : State) (n v) : Mild s (s.setReg n v) where
  untouched q := ⟨by simpa using q, by simp, fun b => State.spsrOf_congr (by simp) b,
    fun p a _ => by rw [State.phys_setReg, if_neg (a n)]⟩
theorem Mild.setUserReg (s : State) (n v) : Mild s (s.setUserReg n v) where
  untouched q := ⟨by simpa using q, by simp, fun b => State.spsrOf_congr (by simp) b,
    fun p _ a => by rw [State.phys_setUserReg, if_neg (a n)]⟩

/-! ## Sequences -/

theorem Mild.writeBack (s : State) (rn wb) : Mild s (s.writeBack rn wb) := by
  cases wb
  · exact .refl s
  · exact .setReg ..

theorem Mild.commit (s : State) (rn wb) : Mild s (s.commit rn wb) := by
  cases wb
  · exact .refl s
  · exact .setReg ..

theorem Mild.takeLoaded (s : State) (user i v) : Mild s (s.takeLoaded user i v) := by
  unfold State.takeLoaded State.setListedReg
  split
  · exact .refl s
  · split
    · exact .setUserReg ..
    · exact .setReg ..

theorem Mild.loadOne (s : State) (user rn wb i v) : Mild s (s.loadOne user rn wb i v) := by
  unfold State.loadOne
  split
  · exact (Mild.commit ..).trans (.takeLoaded ..)
  · exact (Mild.takeLoaded ..).trans (.commit ..)

theorem Mild.storeWords (user rn l wb a) (s : State) : Mild s (storeWords user rn l wb a s) := by
  induction l generalizing wb a s with
  | nil => exact .refl s
  | cons i l ih => exact ((Mild.memWriteRaw32 s _ _).trans (.commit _ rn wb)).trans (ih ..)

theorem Mild.loadWords (user rn l wb a) (s : State) : Mild s (loadWords user rn l wb a s).1 := by
  induction l generalizing wb a s with
  | nil => exact .refl s
  | cons i l ih => exact ((Mild.memReadRaw32 s _).trans (.loadOne ..)).trans (ih ..)

/-! ## How an instruction ends -/

/-- An instruction that neither takes an exception nor uses a privilege. -/
structure Plain (s t : State) : Prop where
  spsrs : ∀ b, t.spsrOf b = s.spsrOf b
  priv : ∀ p, (∀ n, physical s.cpsr.mode n ≠ some p) → (∀ n, physical .user n ≠ some p) → t.phys p = s.phys p
  mode : t.cpsr.mode = s.cpsr.mode ∧ t.cpsr.i = s.cpsr.i ∧ t.cpsr.f = s.cpsr.f

/-- The ways an instruction ends: plainly, by an effect that User mode does not have, or by an exception. -/
def Ending (s t : State) : Prop :=
  Plain s t ∨ s.cpsr.mode ≠ .user ∨
  ∃ e ∈ [(Banked.supervisor, swiVector), (.undefined, undefinedVector)], t = s.enter e.1 e.2 false

theorem Plain.trans {s t u : State} (h : Plain s t) (h' : Plain t u) : Plain s u :=
  ⟨fun b => (h'.spsrs b).trans (h.spsrs b), fun p a b => (h'.priv p (by rw [h.mode.1]; exact a) b).trans (h.priv p a b),
    ⟨h'.mode.1.trans h.mode.1, h'.mode.2.1.trans h.mode.2.1, h'.mode.2.2.trans h.mode.2.2⟩⟩

theorem Plain.refl (s : State) : Plain s s := ⟨fun _ => rfl, fun _ _ _ => rfl, rfl, rfl, rfl⟩

theorem Untouched.plain {s t : State} (h : Untouched s t) : Plain s t := ⟨h.spsrs, h.priv, by simp [h.cpsr]⟩

/-- What changes no register and no privileged bit is plain. -/
theorem Plain.frame {s t : State} (h : Frame s t [])
    (hm : t.cpsr.mode = s.cpsr.mode ∧ t.cpsr.i = s.cpsr.i ∧ t.cpsr.f = s.cpsr.f) : Plain s t :=
  ⟨fun b => h.spsrs b (by simp), fun p _ _ => h.regs p (by simp), hm⟩

theorem Plain.advancePC (s : State) : Plain s s.advancePC :=
  .frame (.of_eq (by simp) (by simp) (by simp) (by simp) (by simp)) (by simp)

theorem Plain.branch (s : State) (v) : Plain s (s.branch v) := .frame (.branch ..) (by simp)

theorem Plain.setCpsr (s : State) {p : Cpsr} (h : p.mode = s.cpsr.mode ∧ p.i = s.cpsr.i ∧ p.f = s.cpsr.f) :
    Plain s (s.setCpsr p) := .frame (.of_eq (by simp) (by simp) (by simp) (by simp) (by simp)) h

theorem Plain.setReg (s : State) (n v) : Plain s (s.setReg n v) :=
  ⟨fun b => State.spsrOf_congr (by simp) b, fun p a _ => by rw [State.phys_setReg, if_neg (a n)], by simp⟩

theorem Plain.guardedWrite (s : State) (n v) : Plain s (s.guardedWrite n v) := by
  unfold State.guardedWrite
  split
  · exact .branch ..
  · exact (Plain.setReg ..).trans (.advancePC _)

theorem Ending.plain_trans {s t u : State} (h : Plain s t) (h' : Plain t u ∨ t.cpsr.mode ≠ .user) : Ending s u :=
  h'.elim (fun k => .inl (h.trans k)) fun k => .inr (.inl (h.mode.1 ▸ k))

theorem returnTo_ending {s t : State} {v} (h : s.returnTo v = .next t) : Plain s t ∨ s.cpsr.mode ≠ .user := by
  by_cases hu : s.cpsr.mode = .user
  · obtain ⟨u, h1, h2⟩ := andThen_next h
    rw [State.restoreCpsr_none (by rw [hu]; rfl)] at h1
    rw [next_inj h2, next_inj h1]
    exact .inl (.branch ..)
  · exact .inr hu

theorem Ending.dataProcess {s t : State} (q : s.inside = []) {sf rd op2 f}
    (hf : ∀ x b, (f x b).cpsr.mode = x.cpsr.mode ∧ (f x b).cpsr.i = x.cpsr.i ∧ (f x b).cpsr.f = x.cpsr.f)
    (h : s.dataProcess sf rd op2 f = .next t) : Ending s t := by
  rw [State.dataProcess_eq q (out := f (s.beforeOperands op2) (s.shifted op2)) rfl] at h
  have hf' := hf (s.beforeOperands op2) (s.shifted op2)
  rw [State.beforeOperands_cpsr q] at hf'
  generalize f (s.beforeOperands op2) (s.shifted op2) = out at *
  have h1 : Plain s (s.atResult sf op2 out.cpsr) := .frame (Frame.atResult q ..) (by
    rw [(State.atResult_fields q sf op2 out.cpsr).1]; split
    · exact hf'
    · exact ⟨rfl, rfl, rfl⟩)
  refine .plain_trans h1 ?_
  unfold State.writeResult at h
  split at h
  · split at h
    · exact returnTo_ending h
    · rw [next_inj h]; exact .inl (.branch ..)
  · rw [next_inj h]
    exact .inl ((Plain.setReg ..).trans (.frame (.afterOperation ..) (by simp)))

theorem Ending.compare {s t : State} (q : s.inside = []) {op2 f}
    (hf : ∀ x b, (f x b).cpsr.mode = x.cpsr.mode ∧ (f x b).cpsr.i = x.cpsr.i ∧ (f x b).cpsr.f = x.cpsr.f)
    (h : s.compare op2 f = .next t) : Ending s t := by
  rw [next_inj h]
  have h1 : Plain s (s.beforeOperands op2) := .frame (Frame.beforeOperands q op2) (by simp [State.beforeOperands_cpsr q])
  exact .inl ((h1.trans (.setCpsr _ (hf ..))).trans (.frame (.afterOperation ..) (by simp)))

theorem Ending.load {s t : State} (q : s.inside = []) {e : Effective} {rn rd read} (hr : ∀ x a, Mild x (read x a).2)
    (h : s.load e rn rd read = .next t) : Ending s t := by
  unfold State.load at h; split at h
  · cases h
  · rw [next_inj h]
    exact .inl (((((Mild.nonSeq s).trans (hr ..)).trans (.nonSeq _)).trans ((Mild.writeBack ..).trans (.internal _))).untouched q
      |>.plain.trans (.guardedWrite ..))

theorem Ending.store {s t : State} (q : s.inside = []) {e : Effective} {rn rd write} (hw : ∀ x a v, Mild x (write x a v))
    (h : s.store e rn rd write = .next t) : Ending s t := by
  unfold State.store at h; split at h
  · cases h
  · rw [next_inj h]
    exact .inl ((((Mild.nonSeq s).trans (hw ..)).trans ((Mild.nonSeq _).trans (.writeBack ..))).untouched q
      |>.plain.trans (.advancePC _))

theorem Plain.swap {s : State} (q : s.inside = []) (rn rd rm) {read write} (hr : ∀ x a, Mild x (read x a).2)
    (hw : ∀ x a v, Mild x (write x a v)) : Plain s (s.swap rn rd rm read write) :=
  ((((Mild.nonSeq s).trans (hr ..)).trans (hw ..)).trans ((Mild.nonSeq _).trans (.internal _))).untouched q
    |>.plain.trans (.guardedWrite ..)

theorem Ending.storeMultiple {s t : State} (q : s.inside = []) {p u w user rn list}
    (h : s.storeMultiple p u w user rn list = .next t) : Ending s t := by
  unfold State.storeMultiple at h; split at h
  · cases h
  · rw [next_inj h]
    exact .inl ((((Mild.nonSeq s).trans (.storeWords ..)).trans ((Mild.bulkCharge ..).trans (.nonSeq _))).untouched q
      |>.plain.trans (.advancePC _))

theorem Ending.loadMultiple {s t : State} (q : s.inside = []) {p u w sbit rn list}
    (h : s.loadMultiple p u w sbit rn list = .next t) : Ending s t := by
  unfold State.loadMultiple at h; split at h
  · cases h
  · have tail : ∀ (x : State) n a, Mild x (x.bulkCharge n a).internal.nonSeq := fun x n a =>
      ((Mild.bulkCharge x n a).trans (.internal _)).trans (.nonSeq _)
    dsimp only at h
    have hk : Mild s _ := (Mild.nonSeq s).trans ((Mild.loadWords (sbit && !(transferred list).contains 15) rn
      (transferred list) (if w = true then some (blockFinal u (s.reg rn) (transferCount list)) else none)
      (blockStart p u (s.reg rn) (transferCount list)) s.nonSeq).trans
      (tail _ (transferred list).length (align4 (blockStart p u (s.reg rn) (transferCount list)))))
    refine .plain_trans (hk.untouched q).plain ?_
    split at h
    · split at h
      · exact returnTo_ending h
      · rw [next_inj h]; exact .inl (.branch ..)
    · rw [next_inj h]; exact .inl (.advancePC _)

theorem Plain.mulFlags (s : State) (sf n z) : Plain s (s.mulFlags sf n z) := by
  unfold State.mulFlags
  split
  · exact .setCpsr _ ⟨rfl, rfl, rfl⟩
  · exact .refl s

theorem Plain.finishMul (s : State) (sf rd r) : Plain s (s.finishMul sf rd r) := (Plain.mulFlags ..).trans (.guardedWrite ..)

theorem Plain.writeLong (s : State) (lo hi r) : Plain s (s.writeLong lo hi r) := by
  refine Plain.trans (t := if lo = 15 then s else s.setReg lo (lo64 r)) ?_ (.guardedWrite ..)
  split
  · exact .refl s
  · exact .setReg ..

theorem Plain.finishLong {s : State} (q : s.inside = []) (sf hi lo r m) : Plain s (s.finishLong sf hi lo r m) :=
  (((Mild.multiplier s m).untouched q).plain.trans (.mulFlags ..)).trans (.writeLong ..)

theorem Ending.msrCpsr {s t : State} {mask op} (h : s.msrCpsr mask op = .next t) : Ending s t := by
  unfold State.msrCpsr at h
  dsimp only at h
  split at h
  · next hc =>
    refine .inr (.inl fun e => ?_)
    rw [e] at hc; simp [Mode.privileged] at hc
  · rw [next_inj h]
    refine .inl ((Plain.setCpsr s ?_).trans (.advancePC _))
    split <;> exact ⟨rfl, rfl, rfl⟩

theorem Ending.msrSpsr {s t : State} {mask op} (h : s.msrSpsr mask op = .next t) : Ending s t := by
  unfold State.msrSpsr at h
  split at h
  · next b hb =>
    refine .inr (.inl fun e => ?_)
    rw [e] at hb; cases hb
  · rw [next_inj h]; exact .inl (.advancePC _)

theorem Mild.readWord (t : BusAttr) (s : State) (a) : Mild s (readWord t s a).2 := Mild.memRead32 ..
theorem Mild.readByte (t : BusAttr) (s : State) (a) : Mild s (readByte t s a).2 := Mild.memRead8 ..
theorem Mild.readHalf (s : State) (a) : Mild s (readHalf s a).2 := Mild.memRead16 ..
theorem Mild.readSignedByte (s : State) (a) : Mild s (readSignedByte s a).2 := Mild.memRead8 ..
theorem Mild.readSignedHalf (s : State) (a) : Mild s (readSignedHalf s a).2 := by
  unfold Machine.readSignedHalf; split
  · exact Mild.memRead8 ..
  · exact Mild.memRead16 ..
theorem Mild.writeWord (t : BusAttr) (s : State) (a v) : Mild s (writeWord t s a v) := Mild.memWrite32 ..
theorem Mild.writeByte (t : BusAttr) (s : State) (a v) : Mild s (writeByte t s a v) := Mild.memWrite8 ..
theorem Mild.writeHalf (s : State) (a v) : Mild s (writeHalf s a v) := Mild.memWrite16 ..

/-- Every instruction that completes ends in one of the three ways. -/
theorem exec_ending {i : Instr} {s t : State} (q : s.inside = []) (h : exec i s = .next t) : Ending s t := by
  cases i
  all_goals simp only [exec, execAnd, execEor, execSub, execRsb, execAdd, execAdc, execSbc, execRsc, execOrr, execMov,
      execBic,
    execMvn, execTst, execTeq, execCmp, execCmn, execStr, execLdr, execStrb, execLdrb, execStrt, execLdrt, execStrbt,
        execLdrbt,
    execStrh, execLdrh, execLdrsb, execLdrsh, execStm, execStmUser, execLdm, execLdmUser, execMrsCpsr, execMrsSpsr,
    execMsrCpsrReg, execMsrCpsrImm, execMsrSpsrReg, execMsrSpsrImm, execUmull, execUmlal, execSmull, execSmlal, execMul,
        execMla,
    execSwp, execSwpb, execB, execBl, execBx, execSwi, execUndefined] at h
  case and | eor | sub | rsb | add | adc | sbc | rsc | orr | mov | bic | mvn =>
    exact .dataProcess q (fun _ _ => ⟨rfl, rfl, rfl⟩) h
  case tst | teq | cmp | cmn => exact .compare q (fun _ _ => ⟨rfl, rfl, rfl⟩) h
  case mrsCpsr | mrsSpsr => rw [next_inj h]; exact .inl (.guardedWrite ..)
  case msrCpsrReg | msrCpsrImm => exact .msrCpsr h
  case msrSpsrReg | msrSpsrImm => exact .msrSpsr h
  case bx => rw [next_inj h]; exact .inl (.frame (Frame.setCpsr_branch ..) (by simp))
  case mul | mla =>
    split at h <;> rw [next_inj h]
    · exact .inl (.finishMul ..)
    · exact .inl (((Mild.multiplier _ _).untouched q).plain.trans (.finishMul ..))
  case umull | umlal | smull | smlal => rw [next_inj h]; exact .inl (.finishLong q ..)
  case swp => rw [next_inj h]; exact .inl (.swap q _ _ _ (Mild.readWord _) (Mild.writeWord _))
  case swpb => rw [next_inj h]; exact .inl (.swap q _ _ _ (Mild.readByte _) (Mild.writeByte _))
  case strh => exact .store q Mild.writeHalf h
  case ldrh => exact .load q Mild.readHalf h
  case ldrsb => exact .load q Mild.readSignedByte h
  case ldrsh => exact .load q Mild.readSignedHalf h
  case str | strt => exact .store q (Mild.writeWord _) h
  case ldr | ldrt => exact .load q (Mild.readWord _) h
  case strb | strbt => exact .store q (Mild.writeByte _) h
  case ldrb | ldrbt => exact .load q (Mild.readByte _) h
  case stm | stmUser => exact .storeMultiple q h
  case ldm | ldmUser => exact .loadMultiple q h
  case b => rw [next_inj h]; exact .inl (.branch ..)
  case bl => rw [next_inj h]; exact .inl ((Plain.setReg ..).trans (.branch ..))
  case swi => exact .inr (.inr ⟨(.supervisor, swiVector), by simp, next_inj h⟩)
  case undefined => exact .inr (.inr ⟨(.undefined, undefinedVector), by simp, next_inj h⟩)

end Sys2Proof.Machine
end

