-- ==== Sys2Proof/Laws/Timing.lean ====
section
/-! SUPPORT. States that differ in the wait-state controller alone: the shared operations read the same from them and leave them
alike (21_waitstate.md R112). -/

namespace Sys2Proof.Machine

/-- Two states that differ in the controller alone, its control value apart. -/
def Alike (s u : State) : Prop := ∃ w : WaitState, w.wcnt = s.ws.wcnt ∧ u = { s with ws := w }

/-- Two outcomes alike: next states alike, or the same refusal. -/
def AlikeR : Result → Result → Prop
  | .next t, .next u => Alike t u
  | .refused r, .refused q => q = r
  | _, _ => False

theorem Alike.refl (s : State) : Alike s s := ⟨s.ws, rfl, rfl⟩

variable {s u : State}

theorem Alike.reg (h : Alike s u) (n) : u.reg n = s.reg n := by obtain ⟨w, hw, rfl⟩ := h; rfl
theorem Alike.userReg (h : Alike s u) (n) : u.userReg n = s.userReg n := by obtain ⟨w, hw, rfl⟩ := h; rfl
theorem Alike.listedReg (h : Alike s u) (b n) : u.listedReg b n = s.listedReg b n := by obtain ⟨w, hw, rfl⟩ := h; rfl
theorem Alike.storeValue (h : Alike s u) (n) : u.storeValue n = s.storeValue n := by obtain ⟨w, hw, rfl⟩ := h; rfl
theorem Alike.params (h : Alike s u) : u.params = s.params := by obtain ⟨w, hw, rfl⟩ := h; rfl
theorem Alike.r15 (h : Alike s u) : u.r15 = s.r15 := by obtain ⟨w, hw, rfl⟩ := h; rfl
theorem Alike.cpsr (h : Alike s u) : u.cpsr = s.cpsr := by obtain ⟨w, hw, rfl⟩ := h; rfl
theorem Alike.spsrOf (h : Alike s u) (b) : u.spsrOf b = s.spsrOf b := by obtain ⟨w, hw, rfl⟩ := h; cases b <;> rfl
theorem Alike.byteAt (h : Alike s u) (a) : u.byteAt a = s.byteAt a := by
  obtain ⟨w, hw, rfl⟩ := h
  simp only [State.byteAt, State.deviceByte, hw]
theorem Alike.peek8 (h : Alike s u) (a) : u.peek8 a = s.peek8 a := by simp only [State.peek8, h.byteAt]
theorem Alike.peek16 (h : Alike s u) (a) : u.peek16 a = s.peek16 a := by simp only [State.peek16, h.byteAt]
theorem Alike.peek32 (h : Alike s u) (a) : u.peek32 a = s.peek32 a := by simp only [State.peek32, h.byteAt]

theorem Alike.setReg (h : Alike s u) (n v) : Alike (s.setReg n v) (u.setReg n v) := by
  obtain ⟨w, hw, rfl⟩ := h
  refine ⟨w, by simpa using hw, ?_⟩
  simp only [State.setReg, State.setRegIn]; cases physical s.cpsr.mode n <;> rfl
theorem Alike.setUserReg (h : Alike s u) (n v) : Alike (s.setUserReg n v) (u.setUserReg n v) := by
  obtain ⟨w, hw, rfl⟩ := h
  refine ⟨w, by simpa using hw, ?_⟩
  simp only [State.setUserReg, State.setRegIn]; cases physical .user n <;> rfl
theorem Alike.setPhys (h : Alike s u) (n v) : Alike (s.setPhys n v) (u.setPhys n v) := by
  obtain ⟨w, hw, rfl⟩ := h; exact ⟨w, hw, rfl⟩
theorem Alike.setListedReg (h : Alike s u) (b n v) : Alike (s.setListedReg b n v) (u.setListedReg b n v) := by
  unfold State.setListedReg; split; exact h.setUserReg ..; exact h.setReg ..
theorem Alike.setCpsr (h : Alike s u) (p) : Alike (s.setCpsr p) (u.setCpsr p) := by
  obtain ⟨w, hw, rfl⟩ := h; exact ⟨w, hw, rfl⟩
theorem Alike.setSpsrOf (h : Alike s u) (b p) : Alike (s.setSpsrOf b p) (u.setSpsrOf b p) := by
  obtain ⟨w, hw, rfl⟩ := h; cases b <;> exact ⟨w, hw, rfl⟩
theorem Alike.advancePC (h : Alike s u) : Alike s.advancePC u.advancePC := by obtain ⟨w, hw, rfl⟩ := h; exact ⟨w, hw, rfl⟩
theorem Alike.shiftLatches (h : Alike s u) : Alike s.shiftLatches u.shiftLatches := by obtain ⟨w, hw, rfl⟩ := h; exact ⟨w,
    hw, rfl⟩
theorem Alike.note (h : Alike s u) (c) : Alike (s.note c) (u.note c) := by obtain ⟨w, hw, rfl⟩ := h; exact ⟨w, hw, rfl⟩
theorem Alike.answered (h : Alike s u) (a n) : Alike (s.answered a n) (u.answered a n) := by
  obtain ⟨w, hw, rfl⟩ := h; unfold State.answered; split <;> exact ⟨w, hw, rfl⟩
theorem Alike.clock (h : Alike s u) (f g : WaitState → WaitState) (hf : ∀ w, (f w).wcnt = w.wcnt) (hg : ∀ w,
    (g w).wcnt = w.wcnt) : Alike (s.clock f) (u.clock g) := by
  obtain ⟨w, hw, rfl⟩ := h; exact ⟨g w, by simp [State.clock, hf, hg, hw], rfl⟩
theorem Alike.setControl (h : Alike s u) (v) : Alike (s.clock fun ws => ws.setControl s.params v)
    (u.clock fun ws => ws.setControl u.params v) := by
  obtain ⟨w, hw, rfl⟩ := h; exact ⟨w.setControl s.params v, rfl, rfl⟩
theorem Alike.branch (h : Alike s u) (v) : Alike (s.branch v) (u.branch v) := by
  obtain ⟨w, hw, rfl⟩ := h; exact ⟨w.branchHook, hw, rfl⟩
theorem Alike.guardedWrite (h : Alike s u) (n v) : Alike (s.guardedWrite n v) (u.guardedWrite n v) := by
  unfold State.guardedWrite; split
  · exact h.branch v
  · exact (h.setReg n v).advancePC
theorem Alike.pokeByte (h : Alike s u) (a b) : Alike (s.pokeByte a b) (u.pokeByte a b) := by
  unfold State.pokeByte
  obtain ⟨w, hw, rfl⟩ := h
  dsimp only
  split
  · exact ⟨w.setControl s.params (w.wcnt.extractLsb' 8 8 ++ b), by simp [State.clock, WaitState.setControl, hw], rfl⟩
  · split
    · exact ⟨w.setControl s.params (b ++ w.wcnt.extractLsb' 0 8), by simp [State.clock, WaitState.setControl, hw], rfl⟩
    · split <;> exact ⟨w, hw, rfl⟩
theorem Alike.poke16 (h : Alike s u) (a b) : Alike (s.poke16 a b) (u.poke16 a b) := (h.pokeByte ..).pokeByte ..
theorem Alike.poke32 (h : Alike s u) (a b) : Alike (s.poke32 a b) (u.poke32 a b) := (h.poke16 ..).poke16 ..

theorem AlikeR.andThen {a b : Result} (h : AlikeR a b) {f g : State → Result} (hf : ∀ s u, Alike s u → AlikeR (f s)
    (g u)) : AlikeR (Result.andThen a f) (Result.andThen b g) := by
  cases a <;> cases b <;> first | exact h.elim | exact hf _ _ h | exact h
theorem Alike.restoreCpsr (h : Alike s u) : AlikeR s.restoreCpsr u.restoreCpsr := by
  unfold State.restoreCpsr
  rw [h.cpsr]; cases s.cpsr.mode.banked with
  | none => exact h
  | some b => simp only [h.spsrOf]; cases Mode.ofCode (s.spsrOf b).m with
    | none => exact rfl
    | some m => exact h.setCpsr _
theorem Alike.returnTo (h : Alike s u) (v) : AlikeR (s.returnTo v) (u.returnTo v) :=
    h.restoreCpsr.andThen fun _ _ k => k.branch v
theorem Alike.enter (h : Alike s u) (b v f) : Alike (s.enter b v f) (u.enter b v f) := by
  simp only [State.enter_eq, h.cpsr, h.r15]
  have k := ((h.setCpsr { s.cpsr with mode := b.mode }).setSpsrOf b s.cpsr.save).setReg 14 (s.r15 - 4#32)
  rw [k.cpsr]
  exact (k.setCpsr _).branch v

/-! ## The platform -/

theorem Alike.resetSequence (h : Alike s u) : Alike s.resetSequence u.resetSequence := by
  unfold State.resetSequence
  obtain ⟨w, hw, rfl⟩ := h
  dsimp only
  exact Alike.branch ⟨_, rfl, rfl⟩ _

theorem Alike.raiseIrq (h : Alike s u) : Alike s.raiseIrq u.raiseIrq :=
  State.raiseIrq_eq s ▸ State.raiseIrq_eq u ▸ (h.clock _ _ (by simp) (by simp)).enter ..

theorem Alike.platformCall (c : PlatformCall) (s u : State) (h : Alike s u) :
    AlikeR (platformCall c s) (platformCall c u) := by
  cases c <;> simp only [Machine.platformCall]
  case branch => exact h.branch _
  case enterThumb => rw [h.cpsr]; exact h.setCpsr _
  case triggerIrq => obtain ⟨w, hw, rfl⟩ := h; exact ⟨w, hw, rfl⟩
  case switchBank m f =>
    simp only [State.switchBank, h.cpsr]
    cases Mode.ofCode m with
    | none => exact rfl
    | some m => cases f <;> exact h.setCpsr _
  case spsrToCpsr => exact h.restoreCpsr
  case writeReg =>
    split
    · exact h.branch _
    · exact h.setReg ..
  case writeUser =>
    split
    · exact h.branch _
    · exact h.setUserReg ..
  case writeFlags => rw [h.cpsr]; exact h.setCpsr _
  case setHalted => obtain ⟨w, hw, rfl⟩ := h; exact ⟨w, hw, rfl⟩
  case waitControl => exact h.setControl _
  case reset => exact h.resetSequence
  case dmaByte => exact h.pokeByte ..

theorem Alike.innerCall (c : PlatformCall) (s u : State) (h : Alike s u) : AlikeR (innerCall c s) (innerCall c u) := by
  unfold Machine.innerCall; split
  · obtain ⟨w, hw, rfl⟩ := h; exact ⟨w, hw, rfl⟩
  · exact Alike.platformCall c s u h

theorem Alike.runCalls {call : PlatformCall → State → Result}
    (hc : ∀ c s u, Alike s u → AlikeR (call c s) (call c u)) (l : List PlatformCall) (s u : State) (h : Alike s u) :
    AlikeR (runCalls call l s) (runCalls call l u) := by
  induction l generalizing s u with
  | nil => exact h
  | cons c l ih => exact (hc c s u h).andThen ih

theorem Alike.attend (h : Alike s u) : Alike s.attend u.attend := by
  unfold State.attend
  obtain ⟨w, hw, rfl⟩ := h
  dsimp only
  split
  · exact ⟨w, hw, rfl⟩
  · next batch rest hin =>
    have k : AlikeR (Machine.runCalls Machine.innerCall batch { s with inside := rest })
        (Machine.runCalls Machine.innerCall batch { s with inside := rest, ws := w }) :=
      Alike.runCalls Alike.innerCall batch _ _ ⟨w, hw, rfl⟩
    revert k
    generalize Machine.runCalls Machine.innerCall batch { s with inside := rest } = a
    generalize Machine.runCalls Machine.innerCall batch { s with inside := rest, ws := w } = b
    intro k
    cases a <;> cases b <;> first | exact k.elim | exact k | skip
    obtain rfl := k; exact ⟨w, hw, rfl⟩

/-! ## Hooks and accesses -/

theorem Alike.call (h : Alike s u) (f g : WaitState → WaitState) (hf : ∀ w, (f w).wcnt = w.wcnt)
    (hg : ∀ w, (g w).wcnt = w.wcnt) (c) : Alike (s.call f c) (u.call g c) := ((h.clock f g hf hg).note c).attend
theorem Alike.nonSeq (h : Alike s u) : Alike s.nonSeq u.nonSeq := h.call _ _ (by simp) (by simp) _
theorem Alike.internal (h : Alike s u) : Alike s.internal u.internal := h.call _ _ (by simp) (by simp) _
theorem Alike.multiplier (h : Alike s u) (m) : Alike (s.multiplier m) (u.multiplier m) := h.call _ _ (by simp) (by simp) _
theorem Alike.bulkCharge (h : Alike s u) (n a) : Alike (s.bulkCharge n a) (u.bulkCharge n a) :=
  h.call _ _ (by simp) (by simp) _

/-- Two reads alike: the same value and states alike. -/
abbrev AlikeP (a b : Word × State) : Prop := b.1 = a.1 ∧ Alike a.2 b.2
theorem Alike.fetch32 (h : Alike s u) (a) : AlikeP (s.fetch32 a) (u.fetch32 a) := by
  have k := h.call (fun ws => ws.fetchCost s.params (s.params.inCart s.r15) a)
    (fun ws => ws.fetchCost u.params (u.params.inCart u.r15) a) (by simp) (by simp) (.fetch32 a)
  exact ⟨k.peek32 a, k.answered a _⟩
theorem Alike.data (h : Alike s u) (a b c) : Alike (s.call (s.dataCost a b) c) (u.call (u.dataCost a b) c) :=
  h.call _ _ (by simp [State.dataCost]) (by simp [State.dataCost]) c
theorem Alike.memRead8 (h : Alike s u) (a t) : AlikeP (s.memRead8 a t) (u.memRead8 a t) := ⟨(h.data ..).peek8 a,
    (h.data ..).answered a _⟩
theorem Alike.memRead16 (h : Alike s u) (a t) : AlikeP (s.memRead16 a t) (u.memRead16 a t) := ⟨(h.data ..).peek16 a,
    (h.data ..).answered a _⟩
theorem Alike.memRead32 (h : Alike s u) (a t) : AlikeP (s.memRead32 a t) (u.memRead32 a t) := ⟨(h.data ..).peek32 a,
    (h.data ..).answered a _⟩
theorem Alike.memReadRaw32 (h : Alike s u) (a) : AlikeP (s.memReadRaw32 a) (u.memReadRaw32 a) := ⟨(h.note _).peek32 a,
    (h.note _).answered a _⟩
theorem Alike.write (h : Alike s u) (a b c t) (poke : State → State) (hp : ∀ s u, Alike s u → Alike (poke s) (poke u)) :
    Alike (s.write (s.dataCost a b) c t poke) (u.write (u.dataCost a b) c t poke) := by
  unfold State.write
  split
  · exact (hp _ _ ((h.clock _ _ (by simp [State.dataCost]) (by simp [State.dataCost])).note c)).attend
  · exact hp _ _ (h.data ..)
theorem Alike.memWrite8 (h : Alike s u) (a v t) : Alike (s.memWrite8 a v t) (u.memWrite8 a v t) :=
  h.write _ _ _ _ _ fun _ _ k => k.pokeByte ..
theorem Alike.memWrite16 (h : Alike s u) (a v t) : Alike (s.memWrite16 a v t) (u.memWrite16 a v t) :=
  h.write _ _ _ _ _ fun _ _ k => k.poke16 ..
theorem Alike.memWrite32 (h : Alike s u) (a v t) : Alike (s.memWrite32 a v t) (u.memWrite32 a v t) :=
  h.write _ _ _ _ _ fun _ _ k => k.poke32 ..
theorem Alike.memWriteRaw32 (h : Alike s u) (a v) : Alike (s.memWriteRaw32 a v) (u.memWriteRaw32 a v) := (h.note _).poke32 ..

/-! ## Sequences -/

theorem Alike.beforeOperands (h : Alike s u) (o) : Alike (s.beforeOperands o) (u.beforeOperands o) := by
  unfold State.beforeOperands; split; exact h.advancePC.internal; exact h
theorem Alike.afterOperation (h : Alike s u) (o) : Alike (s.afterOperation o) (u.afterOperation o) := by
  unfold State.afterOperation; split; exact h; exact h.advancePC
theorem Alike.operand2 (h : Alike s u) (o) : u.operand2 o = s.operand2 o := by
  cases o <;> simp only [State.operand2, h.reg, h.cpsr]
theorem Alike.dataProcess (h : Alike s u) (sf rd o f) (hf : ∀ s u b, Alike s u →
    f u b = f s b) : AlikeR (s.dataProcess sf rd o f) (u.dataProcess sf rd o f) := by
  unfold State.dataProcess
  have k := h.beforeOperands o
  dsimp only
  rw [k.operand2, hf _ _ _ k]
  generalize f (s.beforeOperands o) _ = out
  have k2 : Alike (if sf then (s.beforeOperands o).setCpsr out.cpsr else s.beforeOperands o)
      (if sf then (u.beforeOperands o).setCpsr out.cpsr else u.beforeOperands o) := by
    split; exact k.setCpsr _; exact k
  revert k2
  generalize (if sf then (s.beforeOperands o).setCpsr out.cpsr else s.beforeOperands o) = x
  generalize (if sf then (u.beforeOperands o).setCpsr out.cpsr else u.beforeOperands o) = y
  intro k2
  unfold State.writeResult
  split
  · split
    · exact k2.returnTo _
    · exact k2.branch _
  · exact (k2.setReg ..).afterOperation o
theorem Alike.compare (h : Alike s u) (o f) (hf : ∀ s u b, Alike s u → f u b = f s b) : AlikeR (s.compare o f)
    (u.compare o f) := by
  unfold State.compare
  have k := h.beforeOperands o
  dsimp only
  rw [k.operand2, hf _ _ _ k]
  exact (k.setCpsr _).afterOperation o
theorem Alike.writeBack (h : Alike s u) (n v) : Alike (s.writeBack n v) (u.writeBack n v) :=
    by cases v; exact h; exact h.setReg ..
theorem Alike.commit (h : Alike s u) (n v) : Alike (s.commit n v) (u.commit n v) := by cases v; exact h; exact h.setReg ..
theorem Alike.load (h : Alike s u) {e e' : Effective} (he : e' = e) (rn rd read) (hr : ∀ s u a, Alike s u →
    AlikeP (read s a) (read u a)) : AlikeR (s.load e rn rd read) (u.load e' rn rd read) := by
  subst he; unfold State.load; split
  · exact rfl
  · have k := hr _ _ e'.addr h.nonSeq
    dsimp only
    rw [k.1]
    exact ((k.2.nonSeq.writeBack ..).internal).guardedWrite ..
theorem Alike.store (h : Alike s u) {e e' : Effective} (he : e' = e) (rn rd write) (hr : ∀ s u a v, Alike s u →
    Alike (write s a v) (write u a v)) : AlikeR (s.store e rn rd write) (u.store e' rn rd write) := by
  subst he; unfold State.store; split
  · exact rfl
  · rw [h.storeValue]
    exact (((hr _ _ _ _ h.nonSeq).nonSeq.writeBack ..).advancePC)
theorem Alike.swap (h : Alike s u) (rn rd rm read write) (hr : ∀ s u a, Alike s u → AlikeP (read s a) (read u a))
    (hw : ∀ s u a v, Alike s u → Alike (write s a v) (write u a v)) :
   Alike (s.swap rn rd rm read write) (u.swap rn rd rm read write) := by
  unfold State.swap
  dsimp only
  rw [h.reg, h.reg]
  have k := hr _ _ (s.reg rn) h.nonSeq
  rw [k.1]
  exact (hw _ _ _ _ k.2).nonSeq.internal.guardedWrite ..
theorem Alike.wordAddress (h : Alike s u) (p q w rn off) : u.wordAddress p q w rn off = s.wordAddress p q w rn off := by
  unfold State.wordAddress; cases off <;> simp only [State.wordOffset, h.reg, h.cpsr]
theorem Alike.halfAddress (h : Alike s u) (p q w rn off) : u.halfAddress p q w rn off = s.halfAddress p q w rn off := by
  unfold State.halfAddress; cases off <;> simp only [State.halfOffset, h.reg]
theorem Alike.takeLoaded (h : Alike s u) (b i v) : Alike (s.takeLoaded b i v) (u.takeLoaded b i v) := by
  unfold State.takeLoaded; split; exact h; exact h.setListedReg ..
theorem Alike.loadOne (h : Alike s u) (b n w i v) : Alike (s.loadOne b n w i v) (u.loadOne b n w i v) := by
  unfold State.loadOne
  rw [h.params]
  split
  · exact (h.commit ..).takeLoaded ..
  · exact (h.takeLoaded ..).commit ..
theorem Alike.storeWords (b rn l wb a) (h : Alike s u) : Alike (storeWords b rn l wb a s) (storeWords b rn l wb a u) := by
  induction l generalizing wb a s u with
  | nil => exact h
  | cons i l ih =>
    simp only [Machine.storeWords, h.storeValue, h.listedReg]
    exact ih _ _ ((h.memWriteRaw32 ..).commit ..)
theorem Alike.loadWords (b rn l wb a) (h : Alike s u) : (loadWords b rn l wb a u).2 = (loadWords b rn l wb a s).2 ∧
    Alike (loadWords b rn l wb a s).1 (loadWords b rn l wb a u).1 := by
  induction l generalizing wb a s u with
  | nil => exact ⟨rfl, h⟩
  | cons i l ih =>
    have k := h.memReadRaw32 (align4 a)
    have k2 := ih none (a + 4#32) (k.2.loadOne b rn wb i (s.memReadRaw32 (align4 a)).1)
    simp only [Machine.loadWords, k.1]
    exact ⟨by rw [k2.1], k2.2⟩
theorem Alike.storeMultiple (h : Alike s u) (p q w b rn l) : AlikeR (s.storeMultiple p q w b rn l)
    (u.storeMultiple p q w b rn l) := by
  unfold State.storeMultiple; split
  · exact rfl
  · simp only [h.reg]
    exact ((Alike.storeWords _ _ _ _ _ h.nonSeq).bulkCharge ..).nonSeq.advancePC
theorem Alike.loadMultiple (h : Alike s u) (p q w b rn l) : AlikeR (s.loadMultiple p q w b rn l)
    (u.loadMultiple p q w b rn l) := by
  unfold State.loadMultiple; split
  · exact rfl
  · simp only [h.reg]
    have k := Alike.loadWords (b && !(transferred l).contains 15) rn (transferred l)
        (if w then some (blockFinal q (s.reg rn) (transferCount l)) else none) (blockStart p q (s.reg rn)
        (transferCount l)) h.nonSeq
    generalize Machine.loadWords _ _ (transferred l) _ _ s.nonSeq = r at *
    generalize Machine.loadWords _ _ (transferred l) _ _ u.nonSeq = r' at *
    rw [k.1]
    have k2 := ((k.2.bulkCharge (transferred l).length (align4 (blockStart p q (s.reg rn)
        (transferCount l)))).internal).nonSeq
    split
    · split
      · exact k2.returnTo _
      · exact k2.branch _
    · exact k2.advancePC
theorem Alike.mulFlags (h : Alike s u) (a b c) : Alike (s.mulFlags a b c) (u.mulFlags a b c) := by
  unfold State.mulFlags; split
  · rw [h.cpsr]; exact h.setCpsr _
  · exact h
theorem Alike.finishMul (h : Alike s u) (a b c) : Alike (s.finishMul a b c) (u.finishMul a b c) :=
    (h.mulFlags ..).guardedWrite ..
theorem Alike.finishLong (h : Alike s u) (a b c d e) : Alike (s.finishLong a b c d e) (u.finishLong a b c d e) := by
  unfold State.finishLong State.writeLong
  have k := (h.multiplier e).mulFlags a d.msb (d == 0#64)
  split
  · exact k.guardedWrite ..
  · exact (k.setReg ..).guardedWrite ..
theorem Alike.msrCpsr (h : Alike s u) (m o) : AlikeR (s.msrCpsr m o) (u.msrCpsr m o) := by
  simp only [State.msrCpsr, h.cpsr]
  split
  · split
    · exact (h.setCpsr _).advancePC
    · exact rfl
  · exact (h.setCpsr _).advancePC
theorem Alike.msrSpsr (h : Alike s u) (m o) : AlikeR (s.msrSpsr m o) (u.msrSpsr m o) := by
  simp only [State.msrSpsr, h.cpsr, h.spsrOf]
  split
  · exact (h.setSpsrOf ..).advancePC
  · exact h.advancePC
theorem Alike.readWord (t : BusAttr) (s u a) (h : Alike s u) : AlikeP (readWord t s a) (readWord t u a) := by
  have k := h.memRead32 (align4 a) t; exact ⟨by simp only [Machine.readWord, k.1], k.2⟩
theorem Alike.readByte (t : BusAttr) (s u a) (h : Alike s u) : AlikeP (readByte t s a) (readByte t u a) := h.memRead8 ..
theorem Alike.readHalf (s u a) (h : Alike s u) : AlikeP (readHalf s a) (readHalf u a) := by
  have k := h.memRead16 (align2 a) plainAccess; exact ⟨by simp only [Machine.readHalf, k.1], k.2⟩
theorem Alike.readSignedByte (s u a) (h : Alike s u) : AlikeP (readSignedByte s a) (readSignedByte u a) := by
  have k := h.memRead8 a plainAccess; exact ⟨by simp only [Machine.readSignedByte, k.1], k.2⟩
theorem Alike.readSignedHalf (s u a) (h : Alike s u) : AlikeP (readSignedHalf s a) (readSignedHalf u a) := by
  unfold Machine.readSignedHalf; split
  · exact Alike.readSignedByte _ _ _ h
  · have k := h.memRead16 a plainAccess; exact ⟨by dsimp only; rw [k.1], k.2⟩
theorem Alike.writeWord (t : BusAttr) (s u a v) (h : Alike s u) : Alike (writeWord t s a v) (writeWord t u a v) :=
    h.memWrite32 ..
theorem Alike.writeByte (t : BusAttr) (s u a v) (h : Alike s u) : Alike (writeByte t s a v) (writeByte t u a v) :=
    h.memWrite8 ..
theorem Alike.writeHalf (s u a v) (h : Alike s u) : Alike (writeHalf s a v) (writeHalf u a v) := h.memWrite16 ..

end Sys2Proof.Machine
end

