-- ==== Sys2Proof/Tests/Slice0.lean ====
section
/-! SUPPORT. Tests of the model and witnesses of the statements. The words and outcomes of a step test are those of the vector
of 95_test_vectors.md to 97_test_vectors_3.md its docstring names; the words of a decode test are put together from the fields
of 30_encoding.md R122. -/

open Sys2Proof Sys2Proof.Machine

namespace Sys2Proof.Tests

set_option Elab.async false

/-! ## Well-formedness (30_encoding.md R133, R134, R137) -/

/-- A plain transfer with P = 0 and W = 1 is no instruction: that pattern is the T form. -/
theorem test_wellFormed_refuses_t_pattern :
    [Instr.str false true true 1 0 (.imm 4), .ldr false true true 1 0 (.imm 4), .strb false false true 1 0 (.imm 4),
      .ldrb false true true 1 0 (.reg .lsl 0 2)].map WellFormed = [false, false, false, false] := by decide

/-- The same transfers are instructions with P = 1 or with W = 0. -/
theorem test_wellFormed_admits_the_rest :
    [Instr.str true true true 1 0 (.imm 4), .ldr false true false 1 0 (.imm 4), .strb true false false 1 0 (.imm 4),
      .ldrt true 1 0 (.imm 4)].map WellFormed = [true, true, true, true] := by decide

/-- The bits of a MOV, of an SWI and of a MUL make no undefined word; those of classes 0x7FF, 0xC00 and 0x300 do. -/
theorem test_wellFormed_undefined :
    [Instr.undefined 0x1A00000#28, .undefined 0xF000000#28, .undefined 0x0000090#28, .undefined 0x7F000F0#28,
      .undefined 0xC000000#28, .undefined 0x3000000#28].map WellFormed =
    [false, false, false, true, true, true] := by decide +kernel

/-! ## Decoding -/

/-- Fewer than four bytes hold no instruction. -/
theorem test_decode_too_short : decode [0x00#8, 0x00#8, 0xA0#8] = .error .tooShort := by decide +kernel

/-- The first byte is the lowest of the word (20_memory.md R62); the bytes after the fourth are left. -/
theorem test_decode_byte_order :
    decode [0x01#8, 0x00#8, 0xA0#8, 0x13#8, 0x7F#8] = .ok (.ne, .mov false 0 (.imm 0 1), [0x7F#8]) := by decide +kernel

/-- Formats DPI, DPR and DPM: condition, 000 or 001, opcode, S, Rn, Rd, operand 2. -/
theorem test_decode_data_processing :
    [0xE#4 ++ 0b000#3 ++ 0x0#4 ++ 1#1 ++ 0x1#4 ++ 0x2#4 ++ 0b00101#5 ++ 0b00#2 ++ 0#1 ++ 0x3#4,
      0xE#4 ++ 0b000#3 ++ 0x1#4 ++ 0#1 ++ 0x1#4 ++ 0x2#4 ++ 0b11111#5 ++ 0b01#2 ++ 0#1 ++ 0xF#4,
      0xE#4 ++ 0b000#3 ++ 0x2#4 ++ 1#1 ++ 0xF#4 ++ 0x2#4 ++ 0x4#4 ++ 0#1 ++ 0b10#2 ++ 1#1 ++ 0x3#4,
      0xE#4 ++ 0b000#3 ++ 0x3#4 ++ 0#1 ++ 0x1#4 ++ 0xF#4 ++ 0x4#4 ++ 0#1 ++ 0b11#2 ++ 1#1 ++ 0x3#4,
      0xE#4 ++ 0b001#3 ++ 0x4#4 ++ 1#1 ++ 0x1#4 ++ 0x2#4 ++ 0x9#4 ++ 0xAB#8,
      0xE#4 ++ 0b001#3 ++ 0x5#4 ++ 0#1 ++ 0x8#4 ++ 0x7#4 ++ 0xF#4 ++ 0x01#8,
      0xE#4 ++ 0b001#3 ++ 0x6#4 ++ 1#1 ++ 0x8#4 ++ 0x7#4 ++ 0x0#4 ++ 0xFF#8,
      0xE#4 ++ 0b000#3 ++ 0x7#4 ++ 1#1 ++ 0x1#4 ++ 0x2#4 ++ 0b00000#5 ++ 0b11#2 ++ 0#1 ++ 0x3#4].map decodeWord =
    [.and true 1 2 (.shiftImm .lsl 5 3), .eor false 1 2 (.shiftImm .lsr 31 15), .sub true 15 2 (.shiftReg .asr 4 3),
      .rsb false 1 15 (.shiftReg .ror 4 3), .add true 1 2 (.imm 9 0xAB), .adc false 8 7 (.imm 15 1),
      .sbc true 8 7 (.imm 0 0xFF), .rsc true 1 2 (.shiftImm .ror 0 3)] := by decide +kernel

/-- The compares have S = 1 and ignore Rd; MOV and MVN ignore Rn (R124). -/
theorem test_decode_data_processing_rest :
    [0xE#4 ++ 0b000#3 ++ 0x8#4 ++ 1#1 ++ 0x1#4 ++ 0x2#4 ++ 0b00101#5 ++ 0b00#2 ++ 0#1 ++ 0x3#4,
      0xE#4 ++ 0b000#3 ++ 0x9#4 ++ 1#1 ++ 0x1#4 ++ 0x0#4 ++ 0x4#4 ++ 0#1 ++ 0b10#2 ++ 1#1 ++ 0x3#4,
      0xE#4 ++ 0b001#3 ++ 0xA#4 ++ 1#1 ++ 0x1#4 ++ 0x0#4 ++ 0x9#4 ++ 0xAB#8,
      0xE#4 ++ 0b001#3 ++ 0xB#4 ++ 1#1 ++ 0x1#4 ++ 0xF#4 ++ 0x9#4 ++ 0xAB#8,
      0xE#4 ++ 0b001#3 ++ 0xC#4 ++ 1#1 ++ 0x1#4 ++ 0x2#4 ++ 0x9#4 ++ 0xAB#8,
      0xE#4 ++ 0b000#3 ++ 0xD#4 ++ 0#1 ++ 0x5#4 ++ 0x2#4 ++ 0x4#4 ++ 0#1 ++ 0b00#2 ++ 1#1 ++ 0x3#4,
      0xE#4 ++ 0b000#3 ++ 0xE#4 ++ 0#1 ++ 0x1#4 ++ 0x2#4 ++ 0b00101#5 ++ 0b10#2 ++ 0#1 ++ 0x3#4,
      0xE#4 ++ 0b001#3 ++ 0xF#4 ++ 1#1 ++ 0x0#4 ++ 0x2#4 ++ 0x9#4 ++ 0xAB#8].map decodeWord =
    [.tst 1 (.shiftImm .lsl 5 3), .teq 1 (.shiftReg .asr 4 3), .cmp 1 (.imm 9 0xAB), .cmn 1 (.imm 9 0xAB),
      .orr true 1 2 (.imm 9 0xAB), .mov false 2 (.shiftReg .lsl 4 3), .bic false 1 2 (.shiftImm .asr 5 3),
      .mvn true 2 (.imm 9 0xAB)] := by decide +kernel

/-- Formats MRS, MSR, MSI and BX. -/
theorem test_decode_status_and_bx :
    [0xE#4 ++ 0b00010#5 ++ 0#1 ++ 0b00#2 ++ 0xF#4 ++ 0x7#4 ++ 0x0#4 ++ 0x0#4 ++ 0x0#4,
      0xE#4 ++ 0b00010#5 ++ 1#1 ++ 0b00#2 ++ 0xF#4 ++ 0x7#4 ++ 0x0#4 ++ 0x0#4 ++ 0x0#4,
      0xE#4 ++ 0b00010#5 ++ 0#1 ++ 0b10#2 ++ 0x9#4 ++ 0xF#4 ++ 0x0#4 ++ 0x0#4 ++ 0x5#4,
      0xE#4 ++ 0b00010#5 ++ 1#1 ++ 0b10#2 ++ 0x8#4 ++ 0xF#4 ++ 0x0#4 ++ 0x0#4 ++ 0x5#4,
      0xE#4 ++ 0b00110#5 ++ 0#1 ++ 0b10#2 ++ 0x1#4 ++ 0xF#4 ++ 0x2#4 ++ 0xD3#8,
      0xE#4 ++ 0b00110#5 ++ 1#1 ++ 0b10#2 ++ 0xF#4 ++ 0xF#4 ++ 0x4#4 ++ 0x60#8,
      0xE#4 ++ 0b00010010#8 ++ 0xF#4 ++ 0xF#4 ++ 0xF#4 ++ 0b0001#4 ++ 0xE#4].map decodeWord =
    [.mrsCpsr 7, .mrsSpsr 7, .msrCpsrReg 9 5, .msrSpsrReg 8 5, .msrCpsrImm 1 2 0xD3, .msrSpsrImm 15 4 0x60, .bx 14] := by
  decide +kernel

/-- Formats MUL, MLL and SWP. -/
theorem test_decode_multiply_and_swap :
    [0xE#4 ++ 0b000000#6 ++ 0#1 ++ 1#1 ++ 0x1#4 ++ 0x0#4 ++ 0x3#4 ++ 0b1001#4 ++ 0x4#4,
      0xE#4 ++ 0b000000#6 ++ 1#1 ++ 0#1 ++ 0x1#4 ++ 0x2#4 ++ 0x3#4 ++ 0b1001#4 ++ 0x4#4,
      0xE#4 ++ 0b00001#5 ++ 0#1 ++ 0#1 ++ 1#1 ++ 0x1#4 ++ 0x2#4 ++ 0x3#4 ++ 0b1001#4 ++ 0x4#4,
      0xE#4 ++ 0b00001#5 ++ 0#1 ++ 1#1 ++ 0#1 ++ 0x1#4 ++ 0x2#4 ++ 0x3#4 ++ 0b1001#4 ++ 0x4#4,
      0xE#4 ++ 0b00001#5 ++ 1#1 ++ 0#1 ++ 0#1 ++ 0x1#4 ++ 0x2#4 ++ 0x3#4 ++ 0b1001#4 ++ 0x4#4,
      0xE#4 ++ 0b00001#5 ++ 1#1 ++ 1#1 ++ 1#1 ++ 0x1#4 ++ 0x2#4 ++ 0x3#4 ++ 0b1001#4 ++ 0x4#4,
      0xE#4 ++ 0b00010#5 ++ 0#1 ++ 0b00#2 ++ 0x1#4 ++ 0x2#4 ++ 0x0#4 ++ 0b1001#4 ++ 0x4#4,
      0xE#4 ++ 0b00010#5 ++ 1#1 ++ 0b00#2 ++ 0x1#4 ++ 0x2#4 ++ 0x0#4 ++ 0b1001#4 ++ 0x4#4].map decodeWord =
    [.mul true 1 3 4, .mla false 1 2 3 4, .umull true 1 2 3 4, .umlal false 1 2 3 4, .smull false 1 2 3 4,
      .smlal true 1 2 3 4, .swp 1 2 4, .swpb 1 2 4] := by decide +kernel

/-- Formats HSI and HSR: P, U, form, W, L, then 1 S H 1. -/
theorem test_decode_half :
    [0xE#4 ++ 0b000#3 ++ 1#1 ++ 0#1 ++ 1#1 ++ 0#1 ++ 0#1 ++ 0x1#4 ++ 0x2#4 ++ 0xA#4 ++ 0b1011#4 ++ 0x5#4,
      0xE#4 ++ 0b000#3 ++ 0#1 ++ 1#1 ++ 0#1 ++ 0#1 ++ 1#1 ++ 0x1#4 ++ 0x2#4 ++ 0x0#4 ++ 0b1011#4 ++ 0x5#4,
      0xE#4 ++ 0b000#3 ++ 1#1 ++ 1#1 ++ 1#1 ++ 1#1 ++ 1#1 ++ 0x1#4 ++ 0x2#4 ++ 0xA#4 ++ 0b1101#4 ++ 0x5#4,
      0xE#4 ++ 0b000#3 ++ 0#1 ++ 0#1 ++ 0#1 ++ 1#1 ++ 1#1 ++ 0x1#4 ++ 0x2#4 ++ 0x0#4 ++ 0b1111#4 ++ 0x5#4].map decodeWord =
    [.strh true false false 1 2 (.imm 0xA5), .ldrh false true false 1 2 (.reg 5), .ldrsb true true true 1 2 (.imm 0xA5),
      .ldrsh false false true 1 2 (.reg 5)] := by decide +kernel

/-- Formats SDI and SDR: P, U, B, W, L; P = 0 with W = 1 is the T form. -/
theorem test_decode_single :
    [0xE#4 ++ 0b010#3 ++ 1#1 ++ 1#1 ++ 0#1 ++ 0#1 ++ 0#1 ++ 0x1#4 ++ 0x2#4 ++ 0xABC#12,
      0xE#4 ++ 0b011#3 ++ 1#1 ++ 0#1 ++ 0#1 ++ 1#1 ++ 1#1 ++ 0x1#4 ++ 0x2#4 ++ 0b00111#5 ++ 0b10#2 ++ 0#1 ++ 0x3#4,
      0xE#4 ++ 0b010#3 ++ 0#1 ++ 1#1 ++ 1#1 ++ 0#1 ++ 0#1 ++ 0x1#4 ++ 0x2#4 ++ 0xABC#12,
      0xE#4 ++ 0b011#3 ++ 0#1 ++ 0#1 ++ 1#1 ++ 0#1 ++ 1#1 ++ 0x1#4 ++ 0x2#4 ++ 0b10000#5 ++ 0b11#2 ++ 0#1 ++ 0x3#4,
      0xE#4 ++ 0b010#3 ++ 0#1 ++ 1#1 ++ 0#1 ++ 1#1 ++ 0#1 ++ 0x1#4 ++ 0x2#4 ++ 0xABC#12,
      0xE#4 ++ 0b011#3 ++ 0#1 ++ 0#1 ++ 0#1 ++ 1#1 ++ 1#1 ++ 0x1#4 ++ 0x2#4 ++ 0b00001#5 ++ 0b01#2 ++ 0#1 ++ 0x3#4,
      0xE#4 ++ 0b010#3 ++ 0#1 ++ 1#1 ++ 1#1 ++ 1#1 ++ 0#1 ++ 0x1#4 ++ 0x2#4 ++ 0x001#12,
      0xE#4 ++ 0b010#3 ++ 0#1 ++ 0#1 ++ 1#1 ++ 1#1 ++ 1#1 ++ 0x1#4 ++ 0x2#4 ++ 0xFFF#12].map decodeWord =
    [.str true true false 1 2 (.imm 0xABC), .ldr true false true 1 2 (.reg .asr 7 3),
        .strb false true false 1 2 (.imm 0xABC),
      .ldrb false false false 1 2 (.reg .ror 16 3), .strt true 1 2 (.imm 0xABC), .ldrt false 1 2 (.reg .lsr 1 3),
      .strbt true 1 2 (.imm 1), .ldrbt false 1 2 (.imm 0xFFF)] := by decide +kernel

/-- Formats BDT, BRN and SWI, and a class with no instruction. -/
theorem test_decode_block_branch_exception :
    [0xE#4 ++ 0b100#3 ++ 1#1 ++ 0#1 ++ 0#1 ++ 1#1 ++ 0#1 ++ 0xD#4 ++ 0x4003#16,
      0xE#4 ++ 0b100#3 ++ 0#1 ++ 1#1 ++ 0#1 ++ 0#1 ++ 1#1 ++ 0x3#4 ++ 0x8001#16,
      0xE#4 ++ 0b100#3 ++ 1#1 ++ 1#1 ++ 1#1 ++ 0#1 ++ 0#1 ++ 0x3#4 ++ 0x6000#16,
      0xE#4 ++ 0b100#3 ++ 0#1 ++ 0#1 ++ 1#1 ++ 1#1 ++ 1#1 ++ 0x3#4 ++ 0x0000#16,
      0xE#4 ++ 0b1010#4 ++ 0x800001#24, 0xE#4 ++ 0b1011#4 ++ 0x123456#24, 0xE#4 ++ 0b1111#4 ++ 0xABCDEF#24,
      0xE#4 ++ 0xEE00100#28].map decodeWord =
    [.stm true false true 13 0x4003, .ldm false true false 3 0x8001, .stmUser true true false 3 0x6000,
      .ldmUser false false true 3 0, .b 0x800001, .bl 0x123456, .swi 0xABCDEF, .undefined 0xEE00100] := by decide +kernel

/-- The sample words of 97_test_vectors_3.md 3.12 select the entries it gives. -/
theorem test_decode_samples :
    [0xE1A00000#32, 0xE0000090#32, 0xE0000010#32, 0xE00000B0#32, 0xE00000D0#32, 0xE01000D0#32, 0xE0400090#32, 0xE0800090#32,
      0xE1000090#32, 0xE1400090#32, 0xE1200090#32, 0xE1000000#32, 0xE1200000#32, 0xE1400000#32, 0xE1600000#32,
      0xE1100000#32, 0xE1200010#32, 0xE1200030#32, 0xE1200070#32, 0xE1600010#32, 0xE1000050#32, 0xE3000000#32].map
        (fun w => (decodeWord w).mnemonic) =
    ["MOV", "MUL", "AND", "STRH", "UNDEFINED", "LDRSB", "UNDEFINED", "UMULL", "SWP", "SWPB", "UNDEFINED", "MRS__CPSR",
      "MSR__CPSR__register", "MRS__SPSR", "MSR__SPSR__register", "TST", "BX", "UNDEFINED", "UNDEFINED", "UNDEFINED",
      "UNDEFINED", "UNDEFINED"] := by decide +kernel

/-- The rest of those words. -/
theorem test_decode_samples_rest :
    [0xE3200000#32, 0xE3400000#32, 0xE3600000#32, 0xE3100000#32, 0xE4000000#32, 0xE4200000#32, 0xE4700000#32, 0xE5200000#32,
      0xE6000000#32, 0xE6000010#32, 0xE7F000F0#32, 0xE8000000#32, 0xE8500000#32, 0xEA000000#32, 0xEB000000#32, 0xEC000000#32,
      0xEE000010#32, 0xEF000000#32, 0xF1A00000#32, 0x00000000#32, 0xFFFFFFFF#32].map (fun w => (decodeWord w).mnemonic) =
    ["MSR__CPSR__immediate", "UNDEFINED", "MSR__SPSR__immediate", "TST", "STR", "STRT", "LDRBT", "STR", "STR", "UNDEFINED",
      "UNDEFINED", "STM", "LDM__user_bank_or_CPSR_restore", "B", "BL", "UNDEFINED", "UNDEFINED", "SWI", "MOV", "AND",
      "SWI"] := by decide +kernel

/-! ## Single steps

A vector stands at A = 0x08000000: R15 is A + 8, the word is in `execute`, no bubble is due (95_test_vectors.md part 1). -/

/-- A status word with a legal mode number as CPSR (10_state.md R26). -/
def status (w : Word) : Cpsr where
  n := bit w 31
  z := bit w 30
  c := bit w 29
  v := bit w 28
  i := bit w 7
  f := bit w 6
  t := bit w 5
  mode := (Mode.ofCode (bits w 0 5)).getD .supervisor

/-- The state of a vector: its word, CPSR as a word, the registers named as the mode sees them. -/
def vector (w cpsr : Word) (regs : List (Reg × Word)) : State :=
  regs.foldl (fun s r => s.setReg r.1 r.2)
    { State.reset with r15 := 0x08000008#32, refill := 0, execute := w, cpsr := status cpsr }

/-- Memory holding words at addresses. -/
def holding (s : State) (words : List (Word × Word)) : State :=
  words.foldl (fun s p => s.poke32 p.1 p.2) s

/-- The words in memory in the vectors of 95_test_vectors.md 3.5. -/
def singleWords : List (Word × Word) := [(0x03000000#32, 0x11223344#32), (0x03000004#32, 0x8899AABB#32)]

/-- What is seen after a step, if it gives a next state. -/
def after {α : Type} (s : State) (f : State → α) : Option α :=
  match step s with
  | .next t => some (f t)
  | .fault _ => none
  | .refused _ => none

/-- The refusal of a step, if it is refused. -/
def refusal (s : State) : Option Refusal :=
  match step s with
  | .next _ => none
  | .fault _ => none
  | .refused r => some r

/-- DP1: `ANDS R0, R1, R2`. -/
theorem test_and :
    after (vector 0xE0110002#32 0x300000D3#32 [(1, 0x0000000F#32), (2, 0xF0000001#32)])
      (fun t => (t.r15, t.refill, t.cpsr.toWord, t.reg 0)) =
    some (0x0800000C#32, 0, 0x300000D3#32, 0x00000001#32) := by decide +kernel

/-- DP2: `EORS R0, R1, R2`. -/
theorem test_eor :
    after (vector 0xE0310002#32 0x200000D3#32 [(1, 0x0000000F#32), (2, 0xF0000001#32)])
      (fun t => (t.r15, t.refill, t.cpsr.toWord, t.reg 0)) =
    some (0x0800000C#32, 0, 0xA00000D3#32, 0xF000000E#32) := by decide +kernel

/-- DP5: `SUBS R0, R1, #1`. -/
theorem test_sub :
    after (vector 0xE2510001#32 0x000000D3#32 [(1, 0x80000000#32)])
      (fun t => (t.r15, t.refill, t.cpsr.toWord, t.reg 0)) =
    some (0x0800000C#32, 0, 0x300000D3#32, 0x7FFFFFFF#32) := by decide +kernel

/-- DP6: `RSBS R0, R1, R2`. -/
theorem test_rsb :
    after (vector 0xE0710002#32 0x000000D3#32 [(1, 0x0000000F#32), (2, 0xF0000001#32)])
      (fun t => (t.r15, t.refill, t.cpsr.toWord, t.reg 0)) =
    some (0x0800000C#32, 0, 0xA00000D3#32, 0xEFFFFFF2#32) := by decide +kernel

/-- DP8: `ADDS R0, R2, R2`. -/
theorem test_add :
    after (vector 0xE0920002#32 0x000000D3#32 [(2, 0x80000000#32)])
      (fun t => (t.r15, t.refill, t.cpsr.toWord, t.reg 0)) =
    some (0x0800000C#32, 0, 0x700000D3#32, 0x00000000#32) := by decide +kernel

/-- DP29: `ADD R0, R15, R0, LSL R1`. -/
theorem test_add_reads_pc :
    after (vector 0xE08F0110#32 0x000000D3#32 [(0, 0x00000004#32), (1, 0x00000001#32)])
      (fun t => (t.r15, t.refill, t.cpsr.toWord, t.reg 0)) =
    some (0x0800000C#32, 0, 0x000000D3#32, 0x08000014#32) := by decide +kernel

/-- DP12: `ADCS R0, R1, #0`. -/
theorem test_adc :
    after (vector 0xE2B10000#32 0x200000D3#32 [(1, 0xFFFFFFFF#32)])
      (fun t => (t.r15, t.refill, t.cpsr.toWord, t.reg 0)) =
    some (0x0800000C#32, 0, 0x600000D3#32, 0x00000000#32) := by decide +kernel

/-- DP13: `SBCS R0, R1, R2`. -/
theorem test_sbc :
    after (vector 0xE0D10002#32 0x000000D3#32 [(1, 0x0000000F#32), (2, 0xF0000001#32)])
      (fun t => (t.r15, t.refill, t.cpsr.toWord, t.reg 0)) =
    some (0x0800000C#32, 0, 0x000000D3#32, 0x1000000D#32) := by decide +kernel

/-- DP16: `RSCS R0, R1, R2`. -/
theorem test_rsc :
    after (vector 0xE0F10002#32 0x200000D3#32 [(1, 0x0000000F#32), (2, 0xF0000001#32)])
      (fun t => (t.r15, t.refill, t.cpsr.toWord, t.reg 0)) =
    some (0x0800000C#32, 0, 0xA00000D3#32, 0xEFFFFFF2#32) := by decide +kernel

/-- DP17: `TST R1, R2`. -/
theorem test_tst :
    after (vector 0xE1110002#32 0x000000D3#32 [(1, 0x0000000F#32), (2, 0xF0000001#32)])
      (fun t => (t.r15, t.refill, t.cpsr.toWord)) =
    some (0x0800000C#32, 0, 0x000000D3#32) := by decide +kernel

/-- DP36: `TST R0, #1 (Rd field = 15)`. -/
theorem test_tst_rd_15 :
    after (vector 0xE310F001#32 0x400000D3#32 [(0, 0x00000001#32)])
      (fun t => (t.r15, t.refill, t.cpsr.toWord)) =
    some (0x0800000C#32, 0, 0x000000D3#32) := by decide +kernel

/-- DP18: `TEQ R1, R1`. -/
theorem test_teq :
    after (vector 0xE1310001#32 0x300000D3#32 [(1, 0x0000000F#32), (2, 0xF0000001#32)])
      (fun t => (t.r15, t.refill, t.cpsr.toWord)) =
    some (0x0800000C#32, 0, 0x700000D3#32) := by decide +kernel

/-- DP19b: `CMP R2, R1`. -/
theorem test_cmp :
    after (vector 0xE1520001#32 0x000000D3#32 [(1, 0x0000000F#32), (2, 0xF0000001#32)])
      (fun t => (t.r15, t.refill, t.cpsr.toWord)) =
    some (0x0800000C#32, 0, 0xA00000D3#32) := by decide +kernel

/-- DP19c: `CMN R1, R2`. -/
theorem test_cmn :
    after (vector 0xE1710002#32 0x000000D3#32 [(1, 0x0000000F#32), (2, 0xF0000001#32)])
      (fun t => (t.r15, t.refill, t.cpsr.toWord)) =
    some (0x0800000C#32, 0, 0x800000D3#32) := by decide +kernel

/-- DP21: `ORRS R0, R1, R2`. -/
theorem test_orr :
    after (vector 0xE1910002#32 0x000000D3#32 [(1, 0x0000000F#32), (2, 0xF0000001#32)])
      (fun t => (t.r15, t.refill, t.cpsr.toWord, t.reg 0)) =
    some (0x0800000C#32, 0, 0x800000D3#32, 0xF000000F#32) := by decide +kernel

/-- SH1: `MOVS R0, R1, LSL R2`. -/
theorem test_mov :
    after (vector 0xE1B00211#32 0x100000D3#32 [(1, 0x80000001#32), (2, 0x00000020#32)])
      (fun t => (t.r15, t.refill, t.cpsr.toWord, t.reg 0)) =
    some (0x0800000C#32, 0, 0x700000D3#32, 0x00000000#32) := by decide +kernel

/-- DP32: `MOVS R15, R14`. -/
theorem test_mov_return :
    after ((vector 0xE1B0F00E#32 0x800000D3#32 [(14, 0x08000104#32)]).setSpsrOf .supervisor (.ofWord 0x60000010#32))
      (fun t => (t.r15, t.refill, t.cpsr.toWord)) =
    some (0x08000104#32, 2, 0x60000010#32) := by decide +kernel

/-- DP22: `BICS R0, R2, R1`. -/
theorem test_bic :
    after (vector 0xE1D20001#32 0x100000D3#32 [(1, 0x0000000F#32), (2, 0xF0000001#32)])
      (fun t => (t.r15, t.refill, t.cpsr.toWord, t.reg 0)) =
    some (0x0800000C#32, 0, 0x900000D3#32, 0xF0000000#32) := by decide +kernel

/-- DP23: `MVNS R0, R1`. -/
theorem test_mvn :
    after (vector 0xE1F00001#32 0x000000D3#32 [(1, 0x0000000F#32), (2, 0xF0000001#32)])
      (fun t => (t.r15, t.refill, t.cpsr.toWord, t.reg 0)) =
    some (0x0800000C#32, 0, 0x800000D3#32, 0xFFFFFFF0#32) := by decide +kernel

/-- DP33: `SUBS R15, R14, #4`. -/
theorem test_sub_return :
    after ((vector 0xE25EF004#32 0x000000D2#32 [(14, 0x08000108#32)]).setSpsrOf .irq (.ofWord 0x8000001F#32))
      (fun t => (t.r15, t.refill, t.cpsr.toWord)) =
    some (0x08000104#32, 2, 0x8000001F#32) := by decide +kernel

/-- PS2: `MRS R0, CPSR`. -/
theorem test_mrs_cpsr :
    after (vector 0xE10F0000#32 0xA0000010#32 [])
      (fun t => (t.r15, t.refill, t.cpsr.toWord, t.reg 0)) =
    some (0x0800000C#32, 0, 0xA0000010#32, 0xA0000010#32) := by decide +kernel

/-- PS3: `MRS R0, SPSR`. -/
theorem test_mrs_spsr :
    after ((vector 0xE14F0000#32 0x000000D3#32 []).setSpsrOf .supervisor (.ofWord 0x9000003F#32))
      (fun t => (t.r15, t.refill, t.cpsr.toWord, t.reg 0)) =
    some (0x0800000C#32, 0, 0x000000D3#32, 0x9000003F#32) := by decide +kernel

/-- PS4: `MRS R0, SPSR`. -/
theorem test_mrs_spsr_system :
    after ((vector 0xE14F0000#32 0x400000DF#32 []).setSpsrOf .supervisor (.ofWord 0x9000003F#32))
      (fun t => (t.r15, t.refill, t.cpsr.toWord, t.reg 0)) =
    some (0x0800000C#32, 0, 0x400000DF#32, 0x400000DF#32) := by decide +kernel

/-- PS6: `MSR CPSR_fc, R0`. -/
theorem test_msr_cpsr_reg :
    after (vector 0xE129F000#32 0x000000D3#32 [(0, 0xFFFFFF3F#32)])
      (fun t => (t.r15, t.refill, t.cpsr.toWord)) =
    some (0x0800000C#32, 0, 0xF000001F#32) := by decide +kernel

/-- PS7: `MSR CPSR_fc, R0`. -/
theorem test_msr_cpsr_reg_user :
    after (vector 0xE129F000#32 0x00000010#32 [(0, 0xF00000DF#32)])
      (fun t => (t.r15, t.refill, t.cpsr.toWord)) =
    some (0x0800000C#32, 0, 0xF0000010#32) := by decide +kernel

/-- PS16: `MSR SPSR_f, R0`. -/
theorem test_msr_spsr_reg :
    after ((vector 0xE168F000#32 0x000000D3#32 [(0, 0xA0000000#32)]).setSpsrOf .supervisor (.ofWord 0x5000001F#32))
      (fun t => (t.r15, t.refill, t.cpsr.toWord, (t.spsrOf .supervisor).toWord)) =
    some (0x0800000C#32, 0, 0x000000D3#32, 0xA000001F#32) := by decide +kernel

/-- PS18: `MSR SPSR_fc, R0`. -/
theorem test_msr_spsr_reg_system :
    after (vector 0xE169F000#32 0x000000DF#32 [(0, 0xFFFFFFFF#32)])
      (fun t => (t.r15, t.refill, t.cpsr.toWord)) =
    some (0x0800000C#32, 0, 0x000000DF#32) := by decide +kernel

/-- PS10: `MSR CPSR_f, #0xF0000000`. -/
theorem test_msr_cpsr_imm :
    after (vector 0xE328F20F#32 0x000000D3#32 [])
      (fun t => (t.r15, t.refill, t.cpsr.toWord)) =
    some (0x0800000C#32, 0, 0xF00000D3#32) := by decide +kernel

/-- PS11: `MSR CPSR_c, #0x1F`. -/
theorem test_msr_cpsr_imm_control :
    after (vector 0xE321F01F#32 0x000000D3#32 [])
      (fun t => (t.r15, t.refill, t.cpsr.toWord)) =
    some (0x0800000C#32, 0, 0x0000001F#32) := by decide +kernel

/-- PS17: `MSR SPSR_c, #0x10`. -/
theorem test_msr_spsr_imm :
    after ((vector 0xE361F010#32 0x000000D3#32 []).setSpsrOf .supervisor (.ofWord 0x5000001F#32))
      (fun t => (t.r15, t.refill, t.cpsr.toWord, (t.spsrOf .supervisor).toWord)) =
    some (0x0800000C#32, 0, 0x000000D3#32, 0x50000010#32) := by decide +kernel

/-- BR12: `BX R14`. -/
theorem test_bx :
    after (vector 0xE12FFF1E#32 0x000000D3#32 [(14, 0x08000104#32)])
      (fun t => (t.r15, t.refill, t.cpsr.toWord)) =
    some (0x08000104#32, 2, 0x000000D3#32) := by decide +kernel

/-- BR13: `BX R14`. -/
theorem test_bx_compact :
    after (vector 0xE12FFF1E#32 0x000000D3#32 [(14, 0x08000105#32)])
      (fun t => (t.r15, t.refill, t.cpsr.toWord)) =
    some (0x08000104#32, 2, 0x000000F3#32) := by decide +kernel

/-- MU2: `MULS R2, R0, R1`. -/
theorem test_mul :
    after (vector 0xE0120190#32 0x300000D3#32 [(0, 0xFFFFFFFF#32), (1, 0x00000002#32)])
      (fun t => (t.r15, t.refill, t.cpsr.toWord, t.reg 2)) =
    some (0x0800000C#32, 0, 0xB00000D3#32, 0xFFFFFFFE#32) := by decide +kernel

/-- MU4: `MUL R0, R0, R1`. -/
theorem test_mul_alias :
    after (vector 0xE0000190#32 0x000000D3#32 [(0, 0x00000009#32), (1, 0x00000009#32)])
      (fun t => (t.r15, t.refill, t.cpsr.toWord, t.reg 0)) =
    some (0x0800000C#32, 0, 0x000000D3#32, 0x00000000#32) := by decide +kernel

/-- MU7: `MLAS R3, R0, R1, R2`. -/
theorem test_mla :
    after (vector 0xE0332190#32 0x000000D3#32 [(0, 0xFFFFFFFF#32), (1, 0x00000001#32), (2, 0x00000001#32)])
      (fun t => (t.r15, t.refill, t.cpsr.toWord, t.reg 3)) =
    some (0x0800000C#32, 0, 0x400000D3#32, 0x00000000#32) := by decide +kernel

/-- MU8: `MLA R0, R0, R1, R2`. -/
theorem test_mla_alias :
    after (vector 0xE0202190#32 0x000000D3#32 [(0, 0x00000007#32), (1, 0x00000006#32), (2, 0x00000064#32)])
      (fun t => (t.r15, t.refill, t.cpsr.toWord, t.reg 0)) =
    some (0x0800000C#32, 0, 0x000000D3#32, 0x00000000#32) := by decide +kernel

/-- MU10b: `UMULLS R2, R3, R0, R1`. -/
theorem test_umull :
    after (vector 0xE0932190#32 0xB00000D3#32 [(0, 0x80000000#32), (1, 0x00000000#32)])
      (fun t => (t.r15, t.refill, t.cpsr.toWord, t.reg 2, t.reg 3)) =
    some (0x0800000C#32, 0, 0x700000D3#32, 0x00000000#32, 0x00000000#32) := by decide +kernel

/-- MU11: `UMULL R15, R3, R0, R1`. -/
theorem test_umull_low_15 :
    after (vector 0xE083F190#32 0x000000D3#32 [(0, 0x00000003#32), (1, 0x00000005#32)])
      (fun t => (t.r15, t.refill, t.cpsr.toWord, t.reg 3)) =
    some (0x0800000C#32, 0, 0x000000D3#32, 0x00000000#32) := by decide +kernel

/-- MU14: `UMLAL R2, R3, R0, R1`. -/
theorem test_umlal :
    after (vector 0xE0A32190#32 0x000000D3#32 [(0, 0xFFFFFFFF#32), (1, 0xFFFFFFFF#32), (2, 0xFFFFFFFF#32), (3,
        0xFFFFFFFF#32)])
      (fun t => (t.r15, t.refill, t.cpsr.toWord, t.reg 2, t.reg 3)) =
    some (0x0800000C#32, 0, 0x000000D3#32, 0x00000000#32, 0xFFFFFFFE#32) := by decide +kernel

/-- MU17: `SMULLS R2, R3, R0, R1`. -/
theorem test_smull :
    after (vector 0xE0D32190#32 0x000000D3#32 [(0, 0x80000000#32), (1, 0x00000001#32)])
      (fun t => (t.r15, t.refill, t.cpsr.toWord, t.reg 2, t.reg 3)) =
    some (0x0800000C#32, 0, 0x800000D3#32, 0x80000000#32, 0xFFFFFFFF#32) := by decide +kernel

/-- MU18: `SMLALS R2, R3, R0, R1`. -/
theorem test_smlal :
    after (vector 0xE0F32190#32 0x000000D3#32 [(0, 0xFFFFFFFF#32), (1, 0x00000001#32), (2, 0x00000001#32), (3,
        0x00000000#32)])
      (fun t => (t.r15, t.refill, t.cpsr.toWord, t.reg 2, t.reg 3)) =
    some (0x0800000C#32, 0, 0x400000D3#32, 0x00000000#32, 0x00000000#32) := by decide +kernel

/-- SW3: `SWP R0, R1, [R2]`. -/
theorem test_swp :
    after (holding (vector 0xE1020091#32 0x000000D3#32 [(1, 0xAAAAAAAA#32), (2, 0x03000001#32)]) [(0x03000000#32,
        0x11223344#32)])
      (fun t => (t.r15, t.refill, t.cpsr.toWord, t.reg 0, t.peek32 0x03000000#32)) =
    some (0x0800000C#32, 0, 0x000000D3#32, 0x44112233#32, 0xAAAAAAAA#32) := by decide +kernel

/-- SW4: `SWPB R0, R1, [R2]`. -/
theorem test_swpb :
    after (holding (vector 0xE1420091#32 0x000000D3#32 [(0, 0xFFFFFFFF#32), (1, 0x123456FF#32), (2,
        0x03000001#32)]) [(0x03000000#32, 0x11223344#32)])
      (fun t => (t.r15, t.refill, t.cpsr.toWord, t.reg 0, t.peek32 0x03000000#32)) =
    some (0x0800000C#32, 0, 0x000000D3#32, 0x00000033#32, 0x1122FF44#32) := by decide +kernel

/-- ST31: `STRH R0, [R1, #3]`. -/
theorem test_strh :
    after (holding (vector 0xE1C100B3#32 0x000000D3#32 [(0, 0xA1B2C3D4#32), (1, 0x03000000#32)]) singleWords)
      (fun t => (t.r15, t.refill, t.cpsr.toWord, t.peek32 0x03000000#32)) =
    some (0x0800000C#32, 0, 0x000000D3#32, 0xC3D43344#32) := by decide +kernel

/-- ST17: `LDRH R0, [R1, #1]`. -/
theorem test_ldrh :
    after (holding (vector 0xE1D100B1#32 0x000000D3#32 [(1, 0x03000000#32)]) singleWords)
      (fun t => (t.r15, t.refill, t.cpsr.toWord, t.reg 0)) =
    some (0x0800000C#32, 0, 0x000000D3#32, 0x44000033#32) := by decide +kernel

/-- ST19: `LDRSB R0, [R1, #5]`. -/
theorem test_ldrsb :
    after (holding (vector 0xE1D100D5#32 0x000000D3#32 [(1, 0x03000000#32)]) singleWords)
      (fun t => (t.r15, t.refill, t.cpsr.toWord, t.reg 0)) =
    some (0x0800000C#32, 0, 0x000000D3#32, 0xFFFFFFAA#32) := by decide +kernel

/-- ST22: `LDRSH R0, [R1, #5]`. -/
theorem test_ldrsh :
    after (holding (vector 0xE1D100F5#32 0x000000D3#32 [(1, 0x03000000#32)]) singleWords)
      (fun t => (t.r15, t.refill, t.cpsr.toWord, t.reg 0)) =
    some (0x0800000C#32, 0, 0x000000D3#32, 0xFFFFFFAA#32) := by decide +kernel

/-- ST21: `LDRSH R0, [R1, #6]`. -/
theorem test_ldrsh_even :
    after (holding (vector 0xE1D100F6#32 0x000000D3#32 [(1, 0x03000000#32)]) singleWords)
      (fun t => (t.r15, t.refill, t.cpsr.toWord, t.reg 0)) =
    some (0x0800000C#32, 0, 0x000000D3#32, 0xFFFF8899#32) := by decide +kernel

/-- ST26: `STR R0, [R1, #9]`. -/
theorem test_str :
    after (holding (vector 0xE5810009#32 0x000000D3#32 [(0, 0xA1B2C3D4#32), (1, 0x03000000#32)]) singleWords)
      (fun t => (t.r15, t.refill, t.cpsr.toWord, t.peek32 0x03000008#32)) =
    some (0x0800000C#32, 0, 0x000000D3#32, 0xA1B2C3D4#32) := by decide +kernel

/-- ST27: `STR R1, [R1], #4`. -/
theorem test_str_base :
    after (holding (vector 0xE4811004#32 0x000000D3#32 [(1, 0x03000008#32)]) singleWords)
      (fun t => (t.r15, t.refill, t.cpsr.toWord, t.reg 1, t.peek32 0x03000008#32)) =
    some (0x0800000C#32, 0, 0x000000D3#32, 0x0300000C#32, 0x03000008#32) := by decide +kernel

/-- ST5: `LDR R0, [R1, #1]`. -/
theorem test_ldr :
    after (holding (vector 0xE5910001#32 0x000000D3#32 [(1, 0x03000000#32)]) singleWords)
      (fun t => (t.r15, t.refill, t.cpsr.toWord, t.reg 0)) =
    some (0x0800000C#32, 0, 0x000000D3#32, 0x44112233#32) := by decide +kernel

/-- ST13: `LDR R15, [R1]`. -/
theorem test_ldr_pc :
    after (holding (vector 0xE591F000#32 0x000000D3#32 [(1, 0x03000010#32)]) (singleWords ++ [(0x03000010#32,
        0x08000203#32)]))
      (fun t => (t.r15, t.refill, t.cpsr.toWord)) =
    some (0x08000200#32, 2, 0x000000D3#32) := by decide +kernel

/-- ST29: `STRB R0, [R1, #1]`. -/
theorem test_strb :
    after (holding (vector 0xE5C10001#32 0x000000D3#32 [(0, 0xA1B2C3D4#32), (1, 0x03000000#32)]) singleWords)
      (fun t => (t.r15, t.refill, t.cpsr.toWord, t.peek32 0x03000000#32)) =
    some (0x0800000C#32, 0, 0x000000D3#32, 0x1122D444#32) := by decide +kernel

/-- ST15: `LDRB R0, [R1, #5]`. -/
theorem test_ldrb :
    after (holding (vector 0xE5D10005#32 0x000000D3#32 [(1, 0x03000000#32)]) singleWords)
      (fun t => (t.r15, t.refill, t.cpsr.toWord, t.reg 0)) =
    some (0x0800000C#32, 0, 0x000000D3#32, 0x000000AA#32) := by decide +kernel

/-- `STRT R0, [R1], #4`, worked out from rules R262, R264. -/
theorem test_strt :
    after (holding (vector 0xE4A10004#32 0x000000D3#32 [(0, 0xA1B2C3D4#32), (1, 0x03000001#32)]) [])
      (fun t => (t.r15, t.refill, t.cpsr.toWord, t.reg 1, t.peek32 0x03000000#32)) =
    some (0x0800000C#32, 0, 0x000000D3#32, 0x03000005#32, 0xA1B2C3D4#32) := by decide +kernel

/-- ST33: `LDRT R0, [R1], #4`. -/
theorem test_ldrt :
    after (holding (vector 0xE4B10004#32 0x000000D3#32 [(1, 0x03000000#32)]) singleWords)
      (fun t => (t.r15, t.refill, t.cpsr.toWord, t.reg 0, t.reg 1)) =
    some (0x0800000C#32, 0, 0x000000D3#32, 0x11223344#32, 0x03000004#32) := by decide +kernel

/-- `LDRBT R0, [R1], #1`, worked out from rules R262, R265. -/
theorem test_ldrbt :
    after (holding (vector 0xE4F10001#32 0x000000D3#32 [(1, 0x03000003#32)]) [(0x03000000#32, 0x11223344#32)])
      (fun t => (t.r15, t.refill, t.cpsr.toWord, t.reg 0, t.reg 1)) =
    some (0x0800000C#32, 0, 0x000000D3#32, 0x00000011#32, 0x03000004#32) := by decide +kernel

/-- ST34: `STRBT R0, [R1], #1`. -/
theorem test_strbt :
    after (holding (vector 0xE4E10001#32 0x000000D3#32 [(0, 0x000000EE#32), (1, 0x03000000#32)]) singleWords)
      (fun t => (t.r15, t.refill, t.cpsr.toWord, t.reg 1, t.peek32 0x03000000#32)) =
    some (0x0800000C#32, 0, 0x000000D3#32, 0x03000001#32, 0x112233EE#32) := by decide +kernel

/-- BT29: `STMIA R1!, (R0, R1)`. -/
theorem test_stm :
    after (vector 0xE8A10003#32 0x000000D3#32 [(0, 0x55555555#32), (1, 0x03000000#32)])
      (fun t => (t.r15, t.refill, t.cpsr.toWord, t.reg 1, t.peek32 0x03000000#32, t.peek32 0x03000004#32)) =
    some (0x0800000C#32, 0, 0x000000D3#32, 0x03000008#32, 0x55555555#32, 0x03000008#32) := by decide +kernel

/-- BT8: `STMDB R0!, (R1-R3)`. -/
theorem test_stm_before :
    after (vector 0xE920000E#32 0x000000D3#32 [(0, 0x03000100#32), (1, 0x11111111#32), (2, 0x22222222#32), (3,
        0x33333333#32)])
      (fun t => (t.r15, t.refill, t.cpsr.toWord, t.reg 0, t.peek32 0x030000F4#32, t.peek32 0x030000F8#32,
          t.peek32 0x030000FC#32)) =
    some (0x0800000C#32, 0, 0x000000D3#32, 0x030000F4#32, 0x11111111#32, 0x22222222#32, 0x33333333#32) := by decide +kernel

/-- BT27: `LDMIA R13!, (R0, R1, R15)`. -/
theorem test_ldm :
    after (holding (vector 0xE8BD8003#32 0x000000D3#32 [(13, 0x03007EF4#32)]) [(0x03007EF4#32, 0xAAAA0000#32),
        (0x03007EF8#32,
        0xBBBB1111#32), (0x03007EFC#32, 0x08000123#32)])
      (fun t => (t.r15, t.refill, t.cpsr.toWord, t.reg 0, t.reg 1, t.reg 13)) =
    some (0x08000120#32, 2, 0x000000D3#32, 0xAAAA0000#32, 0xBBBB1111#32, 0x03007F00#32) := by decide +kernel

/-- BT18: `LDMIB R0!, ()`. -/
theorem test_ldm_empty :
    after (holding (vector 0xE9B00000#32 0x000000D3#32 [(0, 0x03000100#32)]) [(0x030000C0#32, 0x08000400#32), (0x030000C4#32,
        0x08000500#32), (0x03000100#32, 0x08000600#32), (0x03000104#32, 0x08000700#32)])
      (fun t => (t.r15, t.refill, t.cpsr.toWord, t.reg 0)) =
    some (0x08000700#32, 2, 0x000000D3#32, 0x03000140#32) := by decide +kernel

/-- BT36: `STMIA R0, (R13, R14)^`. -/
theorem test_stm_user :
    after (((vector 0xE8C06000#32 0x000000D2#32 [(0, 0x03000000#32), (13, 0x03007FA0#32), (14,
        0x00000138#32)]).setPhys .r13_usr 0x03007F00#32).setPhys .r14_usr 0x08001234#32)
      (fun t => (t.r15, t.refill, t.cpsr.toWord, t.peek32 0x03000000#32, t.peek32 0x03000004#32)) =
    some (0x0800000C#32, 0, 0x000000D2#32, 0x03007F00#32, 0x08001234#32) := by decide +kernel

/-- BT37: `LDMIA R0, (R13, R14)^`. -/
theorem test_ldm_user :
    after (holding (vector 0xE8D06000#32 0x000000D3#32 [(0, 0x03000000#32), (13, 0x03007FE0#32), (14,
        0x00000999#32)]) [(0x03000000#32, 0x03007F00#32), (0x03000004#32, 0x08001234#32)])
      (fun t => (t.r15, t.refill, t.cpsr.toWord, t.phys .r13_usr, t.phys .r14_usr)) =
    some (0x0800000C#32, 0, 0x000000D3#32, 0x03007F00#32, 0x08001234#32) := by decide +kernel

/-- BT38: `LDMIA R13!, (R0, R1, R15)^`. -/
theorem test_ldm_user_return :
    after ((holding (vector 0xE8FD8003#32 0x000000D2#32 [(13, 0x03007FA0#32)]) [(0x03007FA0#32, 0x00000001#32),
        (0x03007FA4#32,
        0x00000002#32), (0x03007FA8#32, 0x08000800#32)]).setSpsrOf .irq (.ofWord 0x4000001F#32))
      (fun t => (t.r15, t.refill, t.cpsr.toWord, t.reg 0, t.reg 1, t.phys .r13_irq)) =
    some (0x08000800#32, 2, 0x4000001F#32, 0x00000001#32, 0x00000002#32, 0x03007FAC#32) := by decide +kernel

/-- BR5: `B A - 0x01FFFFF8`. -/
theorem test_b :
    after (vector 0xEA800000#32 0x000000D3#32 [])
      (fun t => (t.r15, t.refill, t.cpsr.toWord)) =
    some (0x06000008#32, 2, 0x000000D3#32) := by decide +kernel

/-- BR9: `BL A + 0x100`. -/
theorem test_bl :
    after (vector 0xEB00003E#32 0x000000D3#32 [(14, 0xDEAD0000#32)])
      (fun t => (t.r15, t.refill, t.cpsr.toWord, t.reg 14)) =
    some (0x08000100#32, 2, 0x000000D3#32, 0x08000004#32) := by decide +kernel

/-- EX3: `SWI 0x123456`. -/
theorem test_swi :
    after (vector 0xEF123456#32 0x8000001F#32 [(13, 0x03007F00#32)])
      (fun t => (t.r15, t.refill, t.cpsr.toWord, t.phys .r14_svc, (t.spsrOf .supervisor).toWord)) =
    some (0x00000008#32, 2, 0x80000093#32, 0x08000004#32, 0x8000001F#32) := by decide +kernel

/-- EX9: `(class 0x601)`. -/
theorem test_undefined :
    after (vector 0xE6000010#32 0x00000092#32 [])
      (fun t => (t.r15, t.refill, t.cpsr.toWord, t.phys .r14_und, (t.spsrOf .undefined).toWord)) =
    some (0x00000004#32, 2, 0x0000009B#32, 0x08000004#32, 0x00000092#32) := by decide +kernel

/-- ST35 and BT40: a writeback to R15 is refused. -/
theorem test_writeback_to_pc :
    refusal (vector 0xE5BF0004#32 0x000000D3#32 []) = some .writebackToR15 ∧
    refusal (vector 0xE8AF0001#32 0x000000D3#32 []) = some .writebackToR15 := by decide +kernel

/-- PS14: MSR to an illegal mode number is refused. -/
theorem test_illegal_mode : refusal (vector 0xE121F000#32 0x000000D3#32 []) = some (.illegalMode 0) := by decide +kernel

/-- CC1 to CC6: `MOVEQ`, `MOVHI` and `MOVLT` with the flags of those vectors. -/
theorem test_conditions :
    [(0x03A00001#32, 0x400000D3#32), (0x03A00001#32, 0xB00000D3#32), (0x83A00001#32, 0x600000D3#32),
      (0x83A00001#32, 0x200000D3#32), (0xB3A00001#32, 0x800000D3#32), (0xB3A00001#32, 0x900000D3#32)].map
        (fun p => after (vector p.1 p.2 []) fun t => (t.reg 0, t.r15)) =
    [some (1#32, 0x0800000C#32), some (0#32, 0x0800000C#32), some (0#32, 0x0800000C#32), some (1#32, 0x0800000C#32),
      some (1#32, 0x0800000C#32), some (0#32, 0x0800000C#32)] := by decide +kernel

/-- IQ1: an interrupt entry from User mode; the word is not executed and nothing is fetched. -/
theorem test_interrupt_entry :
    after { vector 0xE3A00001#32 0x90000010#32 [] with irqLine := true }
      (fun t => (t.r15, t.refill, t.cpsr.toWord, t.phys .r14_irq, t.spsrIrq.toWord)) =
    some (0x00000018#32, 2, 0x90000092#32, 0x08000004#32, 0x90000010#32) := by decide +kernel

/-- IQ1 goes on: the word's register keeps its value, the branch is the one call. -/
theorem test_interrupt_entry_calls :
    after { vector 0xE3A00001#32 0x90000010#32 [] with irqLine := true } (fun t => (t.reg 0, t.calls)) =
    some (0#32, [.branch]) := by decide +kernel

/-- Q4: reset, then the first bubble step. -/
theorem test_reset_call :
    after { vector 0xE3A00001#32 0xF0000010#32 [] with halted := true, agenda := [⟨[.reset], []⟩] }
      (fun t => (t.r15, t.refill, t.cpsr.toWord, t.halted)) =
    some (0x00000004#32, 1, 0xF00000D3#32, false) := by decide +kernel

/-- The calls of ST5, in the order of 97_test_vectors_3.md 3.13. -/
theorem test_calls_ldr :
    after (holding (vector 0xE5910001#32 0x000000D3#32 [(1, 0x03000000#32)]) singleWords) (fun t => t.calls) =
    some [.fetch32 0x08000008#32, .nonSeq, .memRead 0x03000000#32 4 ⟨false, false⟩, .nonSeq, .internal] := by decide +kernel

/-- The calls of BT2, likewise. -/
theorem test_calls_stm :
    after (vector 0xE8A0000E#32 0x000000D3#32
        [(0, 0x03000100#32), (1, 0x11111111#32), (2, 0x22222222#32), (3, 0x33333333#32)]) (fun t => t.calls) =
    some [.fetch32 0x08000008#32, .nonSeq, .memWriteRaw32 0x03000100#32 0x11111111#32,
      .memWriteRaw32 0x03000104#32 0x22222222#32, .memWriteRaw32 0x03000108#32 0x33333333#32, .bulkCharge 3, .nonSeq] := by
  decide +kernel

/-- Right after reset the placed word `MOV R0, #1` is what the next step runs. -/
theorem test_placed_word :
    after (State.reset.withFetchWord 32 0xE3A00001) (fun t => (t.reg 0, t.r15, t.refill)) =
      some (1#32, 0x0000000C#32, 0) := by decide +kernel

/-- The decoder on a table word. -/
theorem test_table_word : decodeTableWord 32 0xE3A00001 = some (.mov false 0 (.imm 0 1)) := by decide +kernel

/-! ## The platform inside a step, and the parameters (00_scope.md R4, R8)

The expected values follow from the rules each docstring names. -/

/-- A DMA byte written between the fetch and the load of `LDR R0, [R1]` is what the load sees (R8). -/
theorem test_platform_inside_load :
    after { holding (vector 0xE5910000#32 0x000000D3#32 [(1, 0x03000000#32)]) singleWords with
        agenda := [⟨[], [[], [.dmaByte 0x03000000#32 0x55#8]]⟩] } (fun t => (t.reg 0, t.peek32 0x03000000#32)) =
    some (0x11223355#32, 0x11223355#32) := by decide +kernel

/-- A reset asserted inside a step waits for the next (70_reset_and_hazards.md R410). -/
theorem test_platform_inside_reset :
    after { vector 0xE3A00001#32 0xF0000010#32 [] with agenda := [⟨[], [[.reset]]⟩] }
      (fun t => (t.reg 0, t.cpsr.toWord, t.agenda)) =
    some (1#32, 0xF0000010#32, [⟨[.reset], []⟩]) := by decide +kernel

/-- `switchRegisterBank(0x1F)` with flags I, F, T = 0, 0, 1 sets the mode, I and F and makes no T = 1 (60_exceptions.md R390,
47_status_transfer.md R334). -/
theorem test_switch_bank_never_sets_t :
    after { vector 0xE3A00001#32 0xF00000D3#32 [] with agenda := [⟨[.switchBank 0x1F#5 (some (false, false, true))], []⟩] }
      (fun t => t.cpsr.toWord) = some 0xF000001F#32 := by decide +kernel

/-- A fetch that begins below the I/O window and reaches into it takes a new draw, one that ends below it takes none
(20_memory.md R71, log 4). -/
theorem test_draws_at_window_edge :
    [0x03FFFFFE#32, 0x03FFFFFC#32].map (fun a =>
      after { vector 0xE3A00001#32 0x000000D3#32 [] with r15 := a } (fun t => t.draws)) = [some 1, some 0] := by decide +kernel

/-- `SWP R0, R1, [R2]` with a DMA byte at its write: after the write when the swap is locked, before it when it is not
(20_memory.md R76). -/
theorem test_swap_locked :
    [true, false].map (fun locked =>
      let s := holding (vector 0xE1020091#32 0x000000D3#32 [(1, 0xAABBCCDD#32), (2, 0x03000000#32)]) singleWords
      after { s with
        params := { s.params with swpLocked := locked }
        agenda := [⟨[], [[], [], [], [.dmaByte 0x03000000#32 0x55#8]]⟩] } fun t => (t.reg 0, t.peek32 0x03000000#32)) =
    [some (0x11223344#32, 0xAABBCC55#32), some (0x11223344#32, 0xAABBCCDD#32)] := by decide +kernel

/-- `STORE_PC_OFF` = 8: `STR R15, [R1]` stores the instruction's address + 8 (44_single_transfer.md R261). -/
theorem test_param_store_pc_off :
    let s := vector 0xE581F000#32 0x000000D3#32 [(1, 0x03000000#32)]
    [12#32, 8#32].map (fun off => after { s with params := { s.params with storePcOff := off } } fun t =>
        t.peek32 0x03000000#32) = [some 0x0800000C#32, some 0x08000008#32] := by decide +kernel

/-- `LDM_BASE_FIRST`: `LDMIA R0!, (R0, R1)` keeps the loaded or the written-back base (45_block_transfer.md R298). -/
theorem test_param_ldm_base_first :
    let s := holding (vector 0xE8B00003#32 0x000000D3#32 [(0, 0x03000000#32)]) singleWords
    [LdmBaseFirst.loaded, .writeback].map (fun first => after { s with params := { s.params with ldmBaseFirst := first } }
        fun t => (t.reg 0, t.reg 1)) =
      [some (0x11223344#32, 0x8899AABB#32), some (0x03000008#32, 0x8899AABB#32)] := by decide +kernel

/-- `MLA_ALIAS_RESULT`: `MLA R0, R0, R1, R2` gives zero or the accumulator (43_multiply.md R232). -/
theorem test_param_mla_alias :
    let s := vector 0xE0202190#32 0x000000D3#32 [(0, 3#32), (1, 5#32), (2, 7#32)]
    [MlaAlias.constant 0#32, .accumulator].map (fun result => after { s with params := { s.params with mlaAlias := result } }
        fun t => t.reg 0) = [some 0#32, some 7#32] := by decide +kernel

/-- `LDMIA R2, (R0, R1)` from 0x0801FFFD accesses 0x0801FFFC and 0x08020000; the second, at a 128 KiB boundary, is charged
non-sequentially too: 8 + 8 cycles beside the fetch's 8 and the internal one (21_waitstate.md R99, R108). Aligned words that
cross no boundary take 8 + 6. -/
theorem test_bulk_charge_boundary :
    [0x0801FFFD#32, 0x0801FFF4#32].map (fun base =>
      after (vector 0xE8920003#32 0x000000D3#32 [(2, base)]) fun t => t.ws.cycles) =
    [some (8 + 8 + 8 + 1), some (8 + 8 + 6 + 1)] := by decide +kernel

/-! ## The cycle table (70_reset_and_hazards.md R421, R424, R425)

Program and data stand in ROM slot 0 with the reset control value: a 32-bit access costs N = 8 or S = 6, an internal cycle
1 (21_waitstate.md R93). The step's own fetch is S, or N after a data access or branch, as R421 has it. -/

/-- The cycles of one step of each word, its own fetch sequential or not; R3 = 5, so that m = 1 (R423). -/
def cyclesOf (afterBreak : Bool) (words : List Word) : List (Option Nat) :=
  words.map fun w =>
    let s := vector w 0x000000D3#32 [(1, 0x08001000#32), (3, 5#32)]
    after { s with ws := { s.ws with nonseq := afterBreak } } fun t => t.ws.cycles

/-- The rows that count the fetch as S: MOV, MOV by register shift, MRS, MSR, LDR, LDM of three, MUL, MLA, UMULL, UMLAL, a
failed condition, B, SWI. -/
theorem test_cycles_after_sequence :
    cyclesOf false [0xE3A00001#32, 0xE1A00211#32, 0xE10F0000#32, 0xE128F000#32, 0xE5910000#32, 0xE891000D#32,
      0xE0000392#32, 0xE0200392#32, 0xE0840392#32, 0xE0A40392#32, 0x03A00001#32, 0xEA000010#32, 0xEF000000#32] =
    [6, 6 + 1, 6, 6, 6 + 8 + 1, 3 * 6 + 8 + 1, 6 + 1, 6 + 2, 6 + 2, 6 + 3, 6, 6, 6].map some := by decide +kernel

/-- The rows that count the fetch as N: STR is 2N, STM of three (n-1)S + 2N, SWP 1S + 2N + 1I. -/
theorem test_cycles_after_break :
    cyclesOf true [0xE5810000#32, 0xE881000D#32, 0xE1010092#32] = [2 * 8, 2 * 6 + 2 * 8, 6 + 2 * 8 + 1].map some := by
  decide +kernel

/-- With prefetch on and the fetch buffered, MUL and a register-specified shift both cost 1 + 1, but only the cycle of
`Internal()` goes to the prefetch buffer (21_waitstate.md R100, R102; 43_multiply.md R240). -/
theorem test_cycles_free :
    [0xE0020190#32, 0xE1A00211#32].map (fun w =>
      let s := vector w 0x000000D3#32 []
      after { s with ws := { s.ws with nonseq := false, prefetchEn := true, buffer := 2 } } fun t => (t.ws.cycles, t.ws.clocks)) =
    [some (2, 0), some (2, 1)] := by decide +kernel

/-- The interrupt entry costs S, without a fetch; the two bubble steps that follow a branch cost N and S. -/
theorem test_cycles_refill :
    (after { vector 0xE3A00001#32 0x00000010#32 [] with irqLine := true } (fun t => (t.ws.cycles, t.ws.nonseq)),
      after { vector 0xE3A00001#32 0x000000D3#32 [] with refill := 2 } (fun t => (t.ws.cycles, t.ws.nonseq)),
      let s := vector 0xE3A00001#32 0x000000D3#32 []
      after { s with
        refill := 1
        ws := { s.ws with nonseq := false } } (fun t => (t.ws.cycles, t.ws.nonseq))) =
    (some (6, true), some (8, false), some (6, false)) := by decide +kernel

/-! ## Witnesses

For each statement with hypotheses, states and operands that meet them. -/

/-- Supervisor mode, `MOV R0, #1` in `execute`. -/
def svc : State := vector 0xE3A00001#32 0x000000D3#32 []

/-- User mode, interrupts enabled. -/
def usr : State := vector 0xE3A00001#32 0x00000010#32 []

/-- IRQ mode with a legal saved word (System mode, Z set). -/
def irq : State := (vector 0xE3A00001#32 0x000000D2#32 []).setSpsrOf .irq (.ofWord 0x4000001F#32)

theorem witness_DecodeOfEncode :
    WellFormed (.str true false true 15 0 (.imm 0xFFF)) = true ∧
        WellFormed (.ldrb false true false 0 15 (.reg .ror 31 14)) = true ∧
    WellFormed (.undefined 0x7F000F0) = true ∧ WellFormed (.swi 0xFFFFFF) = true := by decide +kernel

theorem witness_ClassSelectsInstruction : classOf 0xE0901000#32 = classOf 0x10910F03#32 := by decide +kernel

theorem witness_BankedReadAfterWrite : (13 : Reg) ≠ 15 ∧ (0 : Reg) ≠ 15 := by decide

theorem witness_MemoryReadAfterWrite : Memory.wf [(3, 0x11#8), (0xFFFFFFFF, 0x22#8)] := by decide +kernel

theorem running_of {s : State} (h : (!s.halted && !s.cpsr.t && s.agenda.isEmpty) = true) : Running s := by
  simp only [Bool.and_eq_true, Bool.not_eq_true', List.isEmpty_iff] at h
  exact ⟨⟨h.1.1, h.1.2⟩, h.2⟩

theorem svc_running : Running svc := running_of (by decide +kernel)

theorem witness_StepRunsDecoded :
    Running svc ∧ svc.refill = 0 ∧ svc.uninterrupted ∧
    decode (bytesOfWord svc.execute ++ []) = .ok (.al, .mov false 0 (.imm 0 1), []) ∧ condPass .al svc.cpsr = true :=
  ⟨svc_running, by decide +kernel, .inr (by decide +kernel), by decide +kernel, by decide +kernel⟩

/-- Nothing on the agenda: the state after the platform's turn is the state itself. A turn that writes a register before the step
and a byte inside its fetch: the state after it is the one with the register written. -/
theorem witness_StepRunsDecoded_turn :
    platformTurn svc.fresh = .next svc ∧
    platformTurn ({ svc with agenda := [⟨[.writeReg 1 7#32], [[.dmaByte 0x03000000#32 0x55#8]]⟩] } : State).fresh =
      .next { svc.setReg 1 7#32 with inside := [[.dmaByte 0x03000000#32 0x55#8]] } := ⟨rfl, rfl⟩

/-- A word is plain when its four bytes lie outside the window. -/
theorem plainWord_of {s : State} {a : Word} (h : [0#32, 1#32, 2#32, 3#32].all (fun k => !s.params.isIo (a + k)) = true) :
    s.plainWord a := by
  simp only [List.all_cons, List.all_nil, Bool.and_true, Bool.and_eq_true, Bool.not_eq_true'] at h
  intro k hk
  have : k = 0 ∨ k = 1 ∨ k = 2 ∨ k = 3 := by omega
  rcases this with rfl | rfl | rfl | rfl
  · exact h.1
  · exact h.2.1
  · exact h.2.2.1
  · exact h.2.2.2

/-- The words outside the I/O window, and a DMA write of the very word that is being fetched. -/
theorem witness_FetchComesFirst :
    svc.plainWord svc.r15 ∧
    let batch : List PlatformCall := [.dmaByte 0x08000008#32 0x55#8]
    let u : State := { svc with inside := [batch, []] }
    let v : State := { u with
      inside := [[]], ws := u.ws.fetchCost u.params (u.params.inCart u.r15) u.r15, calls := u.calls ++ [.fetch32 u.r15] }
    u.inside = batch :: [[]] ∧ runCalls innerCall batch v = .next (v.pokeByte 0x08000008#32 0x55#8) :=
  ⟨plainWord_of (by decide +kernel), rfl, rfl⟩

theorem witness_FailedConditionOnlyAdvances :
    let s := vector 0x03A00001#32 0x000000D3#32 []
    Running s ∧ s.refill = 0 ∧ s.uninterrupted ∧ condPass (condOf s.execute) s.cpsr = false :=
  ⟨running_of (by decide +kernel), by decide +kernel, .inr (by decide +kernel), by decide +kernel⟩

theorem witness_BubbleStepOnlyFetches :
    Running { svc with refill := 1, irqLine := true } ∧ ({ svc with refill := 1, irqLine := true } : State).refill ≠ 0 :=
  ⟨running_of (by decide +kernel), by decide +kernel⟩

theorem witness_TwoBubblesAfterBranch :
    Running { svc with refill := 2 } ∧ ({ svc with refill := 2 } : State).refill = 2 ∧
    ({ svc with refill := 2 } : State).plainWord svc.r15 ∧ svc.plainWord 0x03FFFFFC#32 ∧ svc.plainWord 0x040003FF#32 :=
  ⟨running_of (by decide +kernel), by decide +kernel, plainWord_of (by decide +kernel),
    plainWord_of (by decide +kernel), plainWord_of (by decide +kernel)⟩

theorem witness_HaltedStepChangesNothing :
    ({ svc with halted := true } : State).agenda = [] ∧ ({ svc with halted := true } : State).halted = true :=
        by decide +kernel

theorem witness_CompactEncodingRefused :
    let s := vector 0xE3A00001#32 0x000000F3#32 []
    s.agenda = [] ∧ s.halted = false ∧ s.cpsr.t = true := by decide +kernel

theorem witness_InterruptEntry :
    let s := { usr with irqLine := true }
    Running s ∧ s.refill = 0 ∧ s.irqLine = true ∧ s.cpsr.i = false :=
  ⟨running_of (by decide +kernel), by decide +kernel, by decide +kernel, by decide +kernel⟩

/-- The first amount, the last one and the width, for the statement on shifts by register. -/
theorem witness_ShiftByRegister : (0 < 256) ∧ (255 < 256 ∧ 0 < 255) ∧ (32 < 256 ∧ 0 < 32) := by decide

theorem witness_LogicalToRegister : svc.inside = [] ∧ (14 : Reg) ≠ 15 ∧ ∃ f, f ∈ svc.logicalForms 15 (.shiftReg .lsl 1 15) :=
  ⟨rfl, by decide, _, List.mem_cons_self⟩

theorem witness_ArithmeticToRegister : svc.inside = [] ∧ (0 : Reg) ≠ 15 ∧ ∃ f, f ∈ svc.arithForms 1 (.imm 4 0xFF) :=
  ⟨rfl, by decide, _, List.mem_cons_self⟩

theorem witness_ComparesSetFlagsOnly : svc.inside = [] ∧ ∃ f, f ∈ svc.compareForms 1 (.shiftImm .ror 0 2) := ⟨rfl, _,
    List.mem_cons_self⟩

theorem witness_DataToPcBranches :
    svc.inside = [] ∧ svc.cpsr.t = false ∧ ∃ f, f ∈ svc.logicalForms 1 (.imm 0 1) ++ svc.arithForms 1 (.imm 0 1) :=
  ⟨rfl, by decide +kernel, _, List.mem_cons_self⟩

/-- The three cases: an SPSR with a legal mode number, one with an illegal number, no SPSR. -/
theorem witness_DataReturnRestores :
    irq.inside = [] ∧ svc.inside = [] ∧ usr.inside = [] ∧
    (irq.cpsr.mode.banked = some .irq ∧ Mode.ofCode (irq.spsrOf .irq).m = some .system) ∧
    (svc.cpsr.mode.banked = some .supervisor ∧ Mode.ofCode (svc.spsrOf .supervisor).m = none) ∧
    usr.cpsr.mode.banked = none ∧ ∃ f, f ∈ usr.logicalForms 1 (.imm 0 1) ++ usr.arithForms 1 (.imm 0 1) :=
  ⟨rfl, rfl, rfl, by decide +kernel, by decide +kernel, by decide +kernel, _, List.mem_cons_self⟩

theorem witness_MultiplyToRegister : svc.inside = [] ∧ (0 : Reg) ≠ 15 ∧ (14 : Reg) ≠ 15 := by decide

theorem witness_LongMultiplyToRegisters : svc.inside = [] ∧ (3 : Reg) ≠ 15 ∧ ∃ f, f ∈ svc.longForms true 3 15 1 0 :=
  ⟨rfl, by decide, _, List.mem_cons_self⟩

theorem witness_MultiplyToPcBranches : svc.inside = [] ∧ svc.cpsr.t = false ∧ ∃ f, f ∈ svc.longForms true 15 2 1 0 :=
  ⟨rfl, by decide +kernel, _, List.mem_cons_self⟩

/-- A base that is written back, and R15 as a base that is not. -/
theorem witness_LoadsToRegister :
    svc.inside = [] ∧ (0 : Reg) ≠ 15 ∧
    (∃ f ∈ svc.wordLoads false true false 1 (.imm 4) ++ svc.halfLoads true true true 1 (.imm 4),
      (1 : Reg) = 15 → f.address.writeback = none) ∧
    ∃ f ∈ svc.wordLoads true true false 15 (.imm 4) ++ svc.halfLoads true true false 15 (.imm 4),
      (15 : Reg) = 15 → f.address.writeback = none :=
  ⟨rfl, by decide, ⟨_, List.mem_cons_self, fun h => absurd h (by decide)⟩, _, List.mem_cons_self, fun _ => rfl⟩

theorem witness_LoadsToPcBranch :
    svc.inside = [] ∧ svc.cpsr.t = false ∧
    ∃ f ∈ svc.wordLoads true true false 15 (.imm 4) ++ svc.halfLoads true true false 15 (.reg 2),
      (15 : Reg) = 15 → f.address.writeback = none :=
  ⟨rfl, by decide +kernel, _, List.mem_cons_self, fun _ => rfl⟩

/-- R15 as a base that is not written back, and two bases at the edges of the I/O window: the stores just below it, and a
halfword whose first byte is the window's last and whose second byte is outside it. -/
theorem witness_StoresReachTheirBytes :
    svc.inside = [] ∧ svc.mem.wf ∧
    (∃ f ∈ svc.stores true true false 15 (.imm 4) (.reg 2), (15 : Reg) = 15 → f.address.writeback = none) ∧
    ((svc.setReg 1 0x03FFFFFE#32).stores true true true 1 (.imm 1) (.imm 1)).map (·.first) =
      [0x03FFFFFC#32, 0x03FFFFFF#32, 0x03FFFFFC#32, 0x03FFFFFE#32, 0x03FFFFFE#32] ∧
    ((svc.setReg 1 0x040003FF#32).stores true true false 1 (.imm 0) (.imm 0)).map (·.first) =
      [0x040003FC#32, 0x040003FF#32, 0x040003FC#32, 0x040003FF#32, 0x040003FE#32] ∧
    [0x03FFFFFF#32, 0x04000000#32, 0x040003FE#32, 0x040003FF#32, 0xFFFFFFFF#32].map svc.params.isIo =
      [false, true, true, false, false] :=
  ⟨rfl, by decide +kernel, ⟨_, List.mem_cons_self, fun _ => rfl⟩, by decide +kernel, by decide +kernel, by decide +kernel⟩

theorem resetControl_configured (p : Params) : (WaitState.reset p).Configured p := by
  constructor <;> simp [WaitState.reset]

/-- The store reaches the register at its own address and, the low bit dropped, from the next one. -/
theorem witness_WaitControlStore :
    let s := vector 0xE1C100B0#32 0x000000D3#32 [(0, 0x00004317#32), (1, 0x04000204#32)]
    s.inside = [] ∧ (0 : Reg) ≠ 15 ∧ (1 : Reg) ≠ 15 ∧ s.ws.Configured s.params ∧
    align2 (s.halfAddress true true false 1 (.imm 0)).addr = 0x04000204#32 ∧
    align2 (s.halfAddress true true false 1 (.imm 1)).addr = 0x04000204#32 ∧
    (s.reg 0).getLsbD 14 ≠ s.ws.wcnt.getLsbD 14 :=
  ⟨rfl, by decide, by decide, resetControl_configured _, by decide +kernel, by decide +kernel, by decide +kernel⟩

theorem witness_SwapsExchange : svc.inside = [] ∧ (2 : Reg) ≠ 15 ∧ (holding svc singleWords).mem.wf := by decide +kernel

theorem witness_SwapsToPcBranch : svc.inside = [] ∧ svc.cpsr.t = false ∧ (holding svc singleWords).mem.wf :=
    by decide +kernel

/-- A list with the base in it and R15, whose words lie around the top of the address space. -/
theorem witness_StoreMultiple : svc.inside = [] ∧ (0x8003#16 : BitVec 16) ≠ 0 ∧ ¬ ((1 : Reg) = 15 ∧ true = true) ∧
    svc.mem.wf := by decide +kernel

theorem witness_LoadMultiple :
    svc.inside = [] ∧ (0x4003#16 : BitVec 16) ≠ 0 ∧ (0x4003#16).getLsbD 15 = false ∧ ¬ ((0 : Reg) = 15 ∧ true = true) ∧
    svc.plainWord (slot 0x4003#16 0x03000000#32 14) ∧
    (∀ q ∈ svc.named 13, q ∉ listedIn Mode.user 0x6000#16) ∧ ¬ ((15 : Reg) = 15 ∧ false = true) :=
  ⟨rfl, by decide, by decide, by decide, plainWord_of (by decide +kernel), by decide +kernel, by decide⟩

theorem witness_LoadMultipleToPc :
    svc.inside = [] ∧ (0x8000#16).getLsbD 15 = true ∧ ¬ ((0 : Reg) = 15 ∧ true = true) ∧ svc.cpsr.t = false ∧
    svc.plainWord (slot 0x8000#16 0x03000000#32 15) ∧ (0x8003#16).getLsbD 15 = true ∧ (0x8003#16).getLsbD 2 = false :=
  ⟨rfl, by decide, by decide, by decide +kernel, plainWord_of (by decide +kernel), by decide, by decide⟩

/-- The list of vector BT38, in the three cases: a legal saved mode number, an illegal one, no SPSR. -/
theorem witness_LoadMultipleReturns :
    irq.inside = [] ∧ svc.inside = [] ∧ usr.inside = [] ∧
    (0x8003#16).getLsbD 15 = true ∧ ¬ ((13 : Reg) = 15 ∧ true = true) ∧ svc.plainWord (slot 0x8003#16 0x03007FA0#32 15) ∧
    (irq.cpsr.mode.banked = some .irq ∧ Mode.ofCode (irq.spsrOf .irq).m = some .system) ∧
    (svc.cpsr.mode.banked = some .supervisor ∧ Mode.ofCode (svc.spsrOf .supervisor).m = none) ∧
        usr.cpsr.mode.banked = none :=
  ⟨rfl, rfl, rfl, by decide, by decide, plainWord_of (by decide +kernel), by decide +kernel, by decide +kernel,
      by decide +kernel⟩

theorem witness_EmptyListMovesPcAlone : svc.inside = [] ∧ ¬ ((0 : Reg) = 15 ∧ true = true) ∧ svc.mem.wf ∧
    svc.cpsr.t = false := by decide +kernel

theorem witness_EmptyListReturns :
    irq.inside = [] ∧ svc.inside = [] ∧ usr.inside = [] ∧
    ¬ ((0 : Reg) = 15 ∧ true = true) ∧
    (irq.cpsr.mode.banked = some .irq ∧ Mode.ofCode (irq.spsrOf .irq).m = some .system) ∧
    (svc.cpsr.mode.banked = some .supervisor ∧ Mode.ofCode (svc.spsrOf .supervisor).m = none) ∧
    usr.cpsr.mode.banked = none := by decide +kernel

theorem witness_WritebackToPcRefused :
    (Instr.ldr false true false 15 0 (.imm 4)).writesBackToPc = true ∧
        (Instr.ldrh true true true 15 0 (.reg 1)).writesBackToPc = true ∧
    (Instr.strt true 15 0 (.imm 0)).writesBackToPc = true ∧ (Instr.stmUser true true true 15 0).writesBackToPc = true :=
        by decide

theorem witness_BranchesReachTheirTarget : svc.cpsr.t = false ∧ svc.r15 &&& 3#32 = 0#32 := by decide +kernel

theorem witness_StatusRead : (14 : Reg) ≠ 15 := by decide

theorem witness_StatusReadToPc : svc.cpsr.t = false := by decide +kernel

/-- The control field written with a legal mode number, and not written in User mode. -/
theorem witness_StatusWrite :
    ((9#4).getLsbD 0 = true ∧ svc.cpsr.mode ≠ .user ∧ legalMode ((0xF00000DF#32).extractLsb' 0 5) = true) ∧
    ¬ ((9#4).getLsbD 0 = true ∧ usr.cpsr.mode ≠ .user) := by decide +kernel

theorem witness_IllegalModeRefused :
    svc.inside = [] ∧ (Instr.msrCpsrImm 1 0 0x00).writesBackToPc = false ∧
        (Instr.msrCpsrImm 1 0 0x00).installs svc = some 0 ∧
    (Instr.mov true 15 (.shiftImm .lsl 0 14)).installs svc = some 0 ∧
        (Instr.ldmUser true true true 0 0).installs svc = some 0 ∧
    legalMode 0 = false := by decide +kernel

theorem witness_StatusRoundTrip :
    (2 : Reg) ≠ 15 ∧ svc.cpsr.t = false ∧
    (svc.cpsr.mode ≠ .user ∧ legalMode (((svc.setReg 0 0xF00000DF#32).reg 0).extractLsb' 0 5) = true) ∧
    (usr.cpsr.t = false ∧ usr.cpsr.mode = .user) ∧ svc.cpsr.mode.banked.isSome = true := by decide +kernel

theorem witness_ReturnAfterTrap : usr.cpsr.t = false ∧ usr.r15 &&& 3#32 = 0#32 := by decide +kernel

theorem witness_EveryInstructionCompletes :
    irq.inside = [] ∧ (Instr.mov true 15 (.shiftImm .lsl 0 14)).writesBackToPc = false ∧
    ∀ m, (Instr.mov true 15 (.shiftImm .lsl 0 14)).installs irq = some m → legalMode m = true := by
  refine ⟨rfl, by decide, fun m h => ?_⟩
  have : (Instr.mov true 15 (.shiftImm .lsl 0 14)).installs irq = some 0x1F#5 := by decide +kernel
  rw [this] at h
  cases h
  decide

/-- The step of a state, as a next state. -/
theorem next_of_after {s : State} (h : (after s fun _ => ()).isSome = true) : ∃ t, step s = .next t := by
  unfold after at h
  split at h
  · exact ⟨_, by assumption⟩
  · cases h
  · cases h

/-- The cases of User mode: an instruction that stays there, a software interrupt, an undefined word, an interrupt. -/
theorem witness_UserModeIsConfined :
    ∀ s ∈ [usr, { usr with execute := 0xEF000000#32 }, { usr with execute := 0xE7F000F0#32 }, { usr with irqLine := true }],
      s.agenda = [] ∧ s.cpsr.mode = .user ∧ ∃ t, step s = .next t := by
  intro s hs
  simp only [List.mem_cons, List.not_mem_nil, or_false] at hs
  rcases hs with rfl | rfl | rfl | rfl <;>
    exact ⟨by decide +kernel, by decide +kernel, next_of_after (by decide +kernel)⟩

/-- A state with a listed byte and a call of the platform to come. -/
theorem witness_StepKeepsInvariant :
    let s : State := { holding svc singleWords with agenda := [⟨[.triggerIrq 1#32], [[.dmaByte 0x03000000#32 0x55#8]]⟩] }
    Inv s ∧ ∃ t, step s = .next t :=
  ⟨⟨by decide +kernel, resetControl_configured _, by decide +kernel, by decide +kernel, by
      intro turn h
      cases List.mem_singleton.mp h
      exact ⟨by decide, by decide⟩⟩, next_of_after (by decide +kernel)⟩

theorem witness_TimingChangesNoValue :
    ({ svc.ws with cycles := 7, buffer := 3, nonseq := false } : WaitState).wcnt = svc.ws.wcnt := by decide +kernel

end Sys2Proof.Tests
end

section
/-! PROOFS. The branches of a step, one equation for each, and the statements on steps that execute no instruction: halted, a
bubble, a failed condition (40_pipeline_condition.md R150 to R153, R165). -/

namespace Sys2Proof.Machine

/-! ## The branches of a step (R150) -/

theorem platformTurn_quiet {s : State} (h : s.agenda = []) : platformTurn s = .next s := by
  simp only [platformTurn, h]

/-- With nothing on the agenda a step is the core's own. -/
theorem step_quiet {s : State} (h : s.agenda = []) : step s = Result.andThen (coreStep s.fresh) State.endStep := by
  rw [step, machineStep, platformTurn_quiet (s := s.fresh) h]
  rfl

theorem coreStep_halted {s : State} (h : s.halted = true) : coreStep s = .next s := if_pos h

theorem coreStep_bubble {s : State} (h : Awake s) (hr : s.refill ≠ 0) : coreStep s = .next s.bubbleStep := by
  simp [coreStep, h.awake, h.primary, hr]

theorem coreStep_normal {s : State} (h : Awake s) (hr : s.refill = 0) (hi : s.uninterrupted) :
    coreStep s = s.normalStep := by
  have hline : (s.irqLine && !s.cpsr.i) = false := by
    rcases hi with hlow | hmasked
    · simp [hlow]
    · simp [hmasked]
  simp [coreStep, h.awake, h.primary, hr, hline]

theorem State.normalStep_failed {s : State} (h : condPass (condOf s.fetchNext.execute) s.fetchNext.cpsr = false) :
    s.normalStep = .next s.fetchNext.advancePC.shiftLatches := by
  simp [State.normalStep, State.executeStage, h, Result.andThen]

theorem State.endStep_quiet {s : State} (hs : s.stop = none) (hi : s.inside = []) : s.endStep = .next s := by
  unfold State.endStep
  split
  · next r hr => cases hs.symm.trans hr
  · rw [← hi]

/-! ## A fetch that the platform leaves alone (R151; 21_waitstate.md R112) -/

theorem State.fetchNext_quiet {s : State} (h : s.inside = []) :
    ∃ w d, w.wcnt = s.ws.wcnt ∧
      s.fetchNext =
        { s with fetch := s.peek32 s.r15, calls := s.calls ++ [.fetch32 s.r15], ws := w, draws := d } := by
  refine ⟨_, (s.fetch32 s.r15).2.draws, (Still.fetch32 h s.r15).control, ?_⟩
  simp only [State.fetchNext, State.fetch32_quiet h, State.answered]
  split <;> rfl

/-! ## Steps that only fetch and advance (R152, R153) -/

/-- The state after a step that executes nothing: its fetch made, R15 and the latches advanced, `n` bubbles still to come. -/
def State.passedOver (s : State) (n : Fin 3) : State := { s.fetched.advancePC.shiftLatches with refill := n }

/-- All that such a step changes. -/
theorem State.passedOver_eq (s : State) (n : Fin 3) :
    ∃ w d, w.wcnt = s.ws.wcnt ∧
      s.passedOver n =
        { s.fresh with
          r15 := s.r15 + 4#32, fetch := s.peek32 s.r15, decode := s.peek32 s.r15, execute := s.decode, refill := n,
          calls := [.fetch32 s.r15], ws := w, draws := d } := by
  obtain ⟨w, d, hw, hfetch⟩ := State.fetchNext_quiet (s := s.fresh) rfl
  refine ⟨w, d, hw, ?_⟩
  rw [State.passedOver, State.fetched, hfetch]
  rfl

theorem State.endStep_passedOver (s : State) (n : Fin 3) : (s.passedOver n).endStep = .next (s.passedOver n) := by
  obtain ⟨w, d, -, h⟩ := s.passedOver_eq n
  exact State.endStep_quiet (by rw [h]; rfl) (by rw [h]; rfl)

theorem step_bubble {s : State} (h : Running s) (hr : s.refill ≠ 0) :
    step s = .next (s.passedOver (lessRefill s.refill)) := by
  obtain ⟨w, d, -, hfetch⟩ := State.fetchNext_quiet (s := s.fresh) rfl
  have hbubble : s.fresh.bubbleStep = s.passedOver (lessRefill s.refill) := by
    rw [State.bubbleStep, State.passedOver, State.fetched, hfetch]
    rfl
  rw [step_quiet h.quiet, coreStep_bubble (s := s.fresh) ⟨h.awake, h.primary⟩ hr, hbubble]
  exact s.endStep_passedOver _

theorem step_failed {s : State} (h : Running s) (hr : s.refill = 0) (hi : s.uninterrupted)
    (hc : condPass (condOf s.execute) s.cpsr = false) : step s = .next (s.passedOver s.refill) := by
  obtain ⟨w, d, -, hfetch⟩ := State.fetchNext_quiet (s := s.fresh) rfl
  have hnormal : s.fresh.normalStep = .next (s.passedOver s.refill) := by
    rw [State.normalStep_failed (by rw [hfetch]; exact hc), State.passedOver, State.fetched, hfetch]
    rfl
  rw [step_quiet h.quiet, coreStep_normal (s := s.fresh) ⟨h.awake, h.primary⟩ hr hi, hnormal]
  exact s.endStep_passedOver _

theorem lessRefill_succ {n : Fin 3} (h : n ≠ 0) : (lessRefill n).val + 1 = n.val := by
  revert n
  decide

/-! ## The statements -/

/-- Settles O13: the step is the fetch and the advance, `refill` as it was. -/
theorem failedConditionOnlyAdvances : Obligations.FailedConditionOnlyAdvances := by
  intro s h hr hi hc
  obtain ⟨w, d, hw, he⟩ := s.passedOver_eq s.refill
  refine ⟨_, step_failed h hr hi hc, ?_⟩
  rw [he]
  exact ⟨⟨rfl, rfl⟩, rfl, rfl, rfl, rfl, rfl, State.spsrOf_congr ⟨rfl, rfl, rfl, rfl, rfl⟩, rfl, hw, rfl, rfl, h.quiet, rfl⟩

/-- Settles O14: the step is the fetch and the advance, `refill` counted down. -/
theorem bubbleStepOnlyFetches : Obligations.BubbleStepOnlyFetches := by
  intro s h hr
  obtain ⟨w, d, hw, he⟩ := s.passedOver_eq (lessRefill s.refill)
  refine ⟨_, step_bubble h hr, ?_⟩
  rw [he]
  exact ⟨rfl, lessRefill_succ hr, rfl, rfl, rfl, rfl, rfl, State.spsrOf_congr ⟨rfl, rfl, rfl, rfl, rfl⟩, rfl, hw, rfl,
    h.awake, h.quiet, rfl⟩

/-- Settles O16: the core's step gives the state back, which holds no refusal and no call to come. -/
theorem haltedStepChangesNothing : Obligations.HaltedStepChangesNothing := by
  intro s ha hh
  rw [step_quiet ha, coreStep_halted (s := s.fresh) hh]
  exact State.endStep_quiet (s := s.fresh) rfl rfl

end Sys2Proof.Machine
end

section
/-! PROOFS. The barrel shifter and what it feeds: the shifts by an immediate amount in exact arithmetic, operand 2 and the
logical operations (41_shifter_operand2.md R180 to R191; 42_data_processing.md R203, R205, R207, R208, R219 to R222). -/

namespace Sys2Proof.Machine

/-! ## The shifts in exact arithmetic (R180, R185) -/

theorem lsl32_eq_ofNat (m : Word) (n : Nat) : lsl32 m n = BitVec.ofNat 32 (m.toNat * 2 ^ n) := by
  rw [lsl32, ← BitVec.toNat_inj, BitVec.toNat_shiftLeft, BitVec.toNat_ofNat, Nat.shiftLeft_eq]

theorem lsr32_eq_ofNat (m : Word) (n : Nat) : lsr32 m n = BitVec.ofNat 32 (m.toNat / 2 ^ n) := by
  rw [lsr32, ← Nat.shiftRight_eq_div_pow, ← BitVec.toNat_ushiftRight, BitVec.ofNat_toNat, BitVec.setWidth_eq]

theorem asr32_eq_ofInt (m : Word) (n : Nat) : asr32 m n = BitVec.ofInt 32 (m.toInt / 2 ^ n) := by
  rw [asr32, BitVec.sshiftRight, Int.shiftRight_eq_div_pow]
  norm_cast

/-- An arithmetic shift by 32. -/
theorem signFill_eq_ofInt (m : Word) : signFill m = BitVec.ofInt 32 (m.toInt / 2 ^ 32) := by
  rw [← signFill_toInt m 32 le_rfl, BitVec.ofInt_toInt]

/-- The 33-bit rotate by one place: the carry flag comes in above the halved word, whose bit 31 is free. -/
theorem rrx_eq_ofNat (m : Word) (c : Bool) :
    (if c then 0x80000000#32 else 0#32) ||| lsr32 m 1 = BitVec.ofNat 32 (c.toNat * 2 ^ 31 + m.toNat / 2) := by
  rw [lsr32_eq_ofNat, pow_one]
  cases c with
  | false => simp
  | true =>
    have hhalf : m.toNat / 2 < 2 ^ 31 := by omega
    rw [Bool.toNat_true, mul_comm, Nat.two_pow_add_eq_or_of_lt hhalf, BitVec.ofNat_or]
    rfl

/-! ## Shift by immediate (R182 to R185) -/

section
variable (m : Word) (amount : BitVec 5) (c : Bool)

theorem shiftByImm_lsl : shiftByImm .lsl amount m c = ⟨BitVec.ofNat 32 (m.toNat * 2 ^ amount.toNat),
    if amount.toNat = 0 then none else some (m.getLsbD (32 - amount.toNat))⟩ := by
  by_cases h : amount.toNat = 0
  · simp [shiftByImm, h]
  · simp [shiftByImm, h, lsl32_eq_ofNat, bit]

theorem shiftByImm_lsr :
    let full := if amount.toNat = 0 then 32 else amount.toNat
    shiftByImm .lsr amount m c = ⟨BitVec.ofNat 32 (m.toNat / 2 ^ full), some (m.getLsbD (full - 1))⟩ := by
  by_cases h : amount.toNat = 0
  · have hzero := div_two_pow_zero m 32 le_rfl
    simp only [shiftByImm, h, if_true, hzero, Word.msb_eq]
  · simp [shiftByImm, h, lsr32_eq_ofNat, bit]

theorem shiftByImm_asr :
    let full := if amount.toNat = 0 then 32 else amount.toNat
    shiftByImm .asr amount m c = ⟨BitVec.ofInt 32 (m.toInt / 2 ^ full), some (m.getLsbD (full - 1))⟩ := by
  by_cases h : amount.toNat = 0
  · simp [shiftByImm, h, Word.msb_eq, signFill_eq_ofInt]
  · simp [shiftByImm, h, asr32_eq_ofInt, bit]

theorem shiftByImm_ror : shiftByImm .ror amount m c =
    if amount.toNat = 0 then ⟨BitVec.ofNat 32 (c.toNat * 2 ^ 31 + m.toNat / 2), some (m.getLsbD 0)⟩
    else ⟨m.rotateRight amount.toNat, some (m.getLsbD (amount.toNat - 1))⟩ := by
  simp only [shiftByImm, rrx_eq_ofNat, ror32_eq, bit]

end

/-- Settles O20: one lemma for each shift type, in each the amount 0 apart. -/
theorem shiftByImmediate : Obligations.ShiftByImmediate := fun m amount c =>
  ⟨shiftByImm_lsl m amount c, shiftByImm_lsr m amount c, shiftByImm_asr m amount c, shiftByImm_ror m amount c⟩

/-! ## The logical operations (R203) -/

/-- What a logical instruction computes: `g` of Rn and operand 2, with the flags of the result. -/
def logicalOperation (rn : Reg) (g : Word → Word → Word) (s : State) (b : Shifted) : AluOut :=
  s.logicOut (g (s.reg rn) b.value) b.carry

/-- Reading the operands touches no flag, so the flags are those R203 gives from the state before. -/
theorem logicalOperation_beforeOperands {s : State} (h : s.inside = []) {op2 : Operand2} {rn : Reg}
    {g : Word → Word → Word} {r : Word} (hr : r = g (s.operandReg op2 rn) (s.shifted op2).value) :
    logicalOperation rn g (s.beforeOperands op2) (s.shifted op2) = ⟨r, s.cpsr.ofLogical r (s.shifted op2).carry⟩ := by
  rw [hr, logicalOperation, State.logicOut, State.beforeOperands_cpsr h, State.beforeOperands_reg h]
  rfl

/-- Each logical form runs the template of R201 to R206 on the operation its rule names (R207, R208, R219 to R222). -/
theorem State.logicalForms_exec {s : State} {rn : Reg} {op2 : Operand2} {f : DataForm} (hf : f ∈ s.logicalForms rn op2) :
    ∃ g : Word → Word → Word, (∀ sf rd, exec (f.instr sf rd) s = s.dataProcess sf rd op2 (logicalOperation rn g)) ∧
      f.result = g (s.operandReg op2 rn) (s.shifted op2).value ∧
      f.flags = s.cpsr.ofLogical f.result (s.shifted op2).carry := by
  simp only [State.logicalForms, List.mem_cons, List.not_mem_nil, or_false] at hf
  obtain rfl | rfl | rfl | rfl | rfl | rfl := hf
  · exact ⟨fun a b => a &&& b, fun _ _ => rfl, rfl, rfl⟩
  · exact ⟨fun a b => a ^^^ b, fun _ _ => rfl, rfl, rfl⟩
  · exact ⟨fun a b => a ||| b, fun _ _ => rfl, rfl, rfl⟩
  · exact ⟨fun _ b => b, fun _ _ => rfl, rfl, rfl⟩
  · exact ⟨fun a b => a &&& ~~~b, fun _ _ => rfl, rfl, rfl⟩
  · exact ⟨fun _ b => ~~~b, fun _ _ => rfl, rfl, rfl⟩

/-- A logical form with a destination other than R15 writes its result and its flags, and nothing else. -/
theorem State.logicalForms_register {s : State} (h : s.inside = []) {rn rd : Reg} {op2 : Operand2} {f : DataForm}
    (hf : f ∈ s.logicalForms rn op2) (hrd : rd ≠ 15) (sf : Bool) :
    Completes (f.instr sf rd) s fun t => t.reg rd = f.result ∧ t.cpsr = (if sf then f.flags else s.cpsr) ∧
      FallsThrough s t ∧ Frame s t (s.named rd) ∧ NoStore s t := by
  obtain ⟨g, hexec, hresult, hflags⟩ := State.logicalForms_exec hf
  have hout : logicalOperation rn g (s.beforeOperands op2) (s.shifted op2) = ⟨f.result, f.flags⟩ := by
    rw [hflags]
    exact logicalOperation_beforeOperands h hresult
  obtain ⟨t, ht, hpost⟩ := State.dataProcess_register h hout (by rw [hflags]; rfl) sf hrd
  exact ⟨t, (hexec sf rd).trans ht, hpost⟩

/-- Settles O22: operand 2 is the shifter section's in every form, and each logical form runs one template. -/
theorem logicalToRegister : Obligations.LogicalToRegister := by
  constructor
  · intro s type amount rs rm rot imm8 h read used
    have hused : ∀ op2, used op2 = s.shifted op2 := State.operand2_eq h
    refine ⟨?_, hused _, hused _, hused⟩
    simp only [hused, read, State.shifted, BitVec.add_zero]
  · intro s sf rn rd op2 h hrd f hf
    exact State.logicalForms_register h hf hrd sf

end Sys2Proof.Machine
end

section
/-! PROOFS. The adder in exact integers and the arithmetic operations and compares that use it (42_data_processing.md R204,
R205, R209 to R218, R223). -/

namespace Sys2Proof.Machine

/-! ## The adder in exact arithmetic (R204) -/

/-- The outcome of an operation with value `r`, carry `c` and exact signed value `x`: V says that `x` does not fit. -/
def Sum.exact (r : Word) (c : Prop) [Decidable c] (x : Int) : Sum :=
  ⟨r, r.msb, decide (r = 0#32), decide c, decide (x < -(2 ^ 31) ∨ 2 ^ 31 ≤ x)⟩

theorem Sum.exact_congr {r r' : Word} {c c' : Prop} [Decidable c] [Decidable c'] {x x' : Int} (hr : r = r') (hc : c ↔ c')
    (hx : x = x') : Sum.exact r c x = Sum.exact r' c' x' := by
  simp only [Sum.exact, hr, hc, hx]

/-- The adder's result, as a signed number, is the exact signed sum modulo 2^32. -/
theorem addWithCarry_toInt (p q : Word) (cin : Bool) :
    (addWithCarry p q cin).result.toInt = (p.toInt + q.toInt + cin.toNat).bmod (2 ^ 32) := by
  have hresult : (addWithCarry p q cin).result = BitVec.ofInt 32 (p.toInt + q.toInt + cin.toNat) := by
    simp only [addWithCarry, BitVec.ofInt_add, BitVec.ofInt_toInt, BitVec.ofInt_natCast, BitVec.ofNat_add,
      BitVec.ofNat_toNat, BitVec.setWidth_eq]
  rw [hresult, BitVec.toInt_ofInt]

/-- Overflow by the sign bits: two operands of one sign with a sum of the other, exactly when the exact sum does not fit. -/
theorem addWithCarry_v (p q : Word) (cin : Bool) : (addWithCarry p q cin).v =
    decide (p.toInt + q.toInt + cin.toNat < -(2 ^ 31) ∨ 2 ^ 31 ≤ p.toInt + q.toInt + cin.toNat) := by
  have hv : (addWithCarry p q cin).v = (p.msb == q.msb && (addWithCarry p q cin).result.msb != p.msb) := rfl
  have hsum := addWithCarry_toInt p q cin
  have hcin := cin.toNat_le
  have hp : -2 ^ 31 ≤ p.toInt ∧ p.toInt < 2 ^ 31 := ⟨p.le_toInt, p.toInt_lt⟩
  have hq : -2 ^ 31 ≤ q.toInt ∧ q.toInt < 2 ^ 31 := ⟨q.le_toInt, q.toInt_lt⟩
  rw [hv, Bool.eq_iff_iff]
  simp only [BitVec.msb_eq_toInt, Bool.and_eq_true, beq_iff_eq, bne_iff_ne, ne_eq, decide_eq_true_eq,
    decide_eq_decide, hsum, Int.bmod_def]
  omega

theorem addWithCarry_eq_exact (p q : Word) (cin : Bool) : addWithCarry p q cin =
    Sum.exact (p + q + BitVec.ofNat 32 cin.toNat) (2 ^ 32 ≤ p.toNat + q.toNat + cin.toNat)
      (p.toInt + q.toInt + cin.toNat) := by
  have hresult : BitVec.ofNat 32 (p.toNat + q.toNat + cin.toNat) = p + q + BitVec.ofNat 32 cin.toNat := by
    simp only [BitVec.ofNat_add, BitVec.ofNat_toNat, BitVec.setWidth_eq]
  rw [Sum.exact, ← addWithCarry_v, ← hresult]
  rfl

theorem adcOp_eq_exact (p q : Word) (c : Bool) : adcOp p q c =
    Sum.exact (p + q + BitVec.ofNat 32 c.toNat) (2 ^ 32 ≤ p.toNat + q.toNat + c.toNat) (p.toInt + q.toInt + c.toNat) :=
  addWithCarry_eq_exact p q c

theorem addOp_eq_exact (p q : Word) :
    addOp p q = Sum.exact (p + q) (2 ^ 32 ≤ p.toNat + q.toNat) (p.toInt + q.toInt) := by
  rw [addOp, addWithCarry_eq_exact]
  exact Sum.exact_congr (by simp) (by simp) (by simp)

theorem Word.toInt_not (q : Word) : (~~~q).toInt = -q.toInt - 1 := by
  have hn : (~~~q).toNat = 2 ^ 32 - 1 - q.toNat := BitVec.toNat_not
  have hlt := q.isLt
  rw [BitVec.toInt_eq_toNat_cond, BitVec.toInt_eq_toNat_cond, hn]
  split <;> split <;> omega

/-- Adding the complement subtracts, less one where no carry comes in. -/
theorem sbcOp_eq_exact (p q : Word) (c : Bool) : sbcOp p q c =
    Sum.exact (p - q - BitVec.ofNat 32 (1 - c.toNat)) (q.toNat + (1 - c.toNat) ≤ p.toNat)
      (p.toInt - q.toInt - (1 - c.toNat)) := by
  have hresult : p + ~~~q + BitVec.ofNat 32 c.toNat = p - q - BitVec.ofNat 32 (1 - c.toNat) := by
    rw [BitVec.not_eq_neg_add]
    cases c <;> simp <;> ring
  have hborrow : 2 ^ 32 ≤ p.toNat + (~~~q).toNat + c.toNat ↔ q.toNat + (1 - c.toNat) ≤ p.toNat := by
    have hq := q.isLt
    have hc := c.toNat_le
    rw [BitVec.toNat_not]
    omega
  have hsigned : p.toInt + (~~~q).toInt + c.toNat = p.toInt - q.toInt - (1 - c.toNat) := by
    rw [Word.toInt_not]
    ring
  exact (addWithCarry_eq_exact p (~~~q) c).trans (Sum.exact_congr hresult hborrow hsigned)

theorem subOp_eq_exact (p q : Word) :
    subOp p q = Sum.exact (p - q) (q.toNat ≤ p.toNat) (p.toInt - q.toInt) := by
  rw [subOp, ← sbcOp, sbcOp_eq_exact]
  exact Sum.exact_congr (by simp) (by simp) (by simp)

/-! ## The arithmetic operations (R204) -/

/-- What an arithmetic instruction computes: `g` of the carry flag, Rn and operand 2, with the flags of the sum. -/
def arithOperation (rn : Reg) (g : Bool → Word → Word → Sum) (s : State) (b : Shifted) : AluOut :=
  s.arithOut (g s.cpsr.c (s.reg rn) b.value)

/-- Reading the operands touches no flag, so carry in and flags are those of the state before. -/
theorem arithOperation_beforeOperands {s : State} (h : s.inside = []) (op2 : Operand2) (rn : Reg)
    (g : Bool → Word → Word → Sum) :
    arithOperation rn g (s.beforeOperands op2) (s.shifted op2) =
      s.arithOut (g s.cpsr.c (s.operandReg op2 rn) (s.shifted op2).value) := by
  rw [arithOperation, State.beforeOperands_reg h, State.arithOut, State.beforeOperands_cpsr h]
  rfl

/-- Each arithmetic form runs the template of R201 to R206 on the adder's operation its rule names (R209 to R214). -/
theorem State.arithForms_exec {s : State} {rn : Reg} {op2 : Operand2} {f : DataForm} (hf : f ∈ s.arithForms rn op2) :
    ∃ g : Bool → Word → Word → Sum,
      (∀ sf rd, exec (f.instr sf rd) s = s.dataProcess sf rd op2 (arithOperation rn g)) ∧
      s.arithOut (g s.cpsr.c (s.operandReg op2 rn) (s.shifted op2).value) = ⟨f.result, f.flags⟩ := by
  simp only [State.arithForms, List.mem_cons, List.not_mem_nil, or_false] at hf
  obtain rfl | rfl | rfl | rfl | rfl | rfl := hf
  · exact ⟨fun _ a b => subOp a b, fun _ _ => rfl, congrArg s.arithOut (subOp_eq_exact ..)⟩
  · exact ⟨fun _ a b => subOp b a, fun _ _ => rfl, congrArg s.arithOut (subOp_eq_exact ..)⟩
  · exact ⟨fun _ a b => addOp a b, fun _ _ => rfl, congrArg s.arithOut (addOp_eq_exact ..)⟩
  · exact ⟨fun c a b => adcOp a b c, fun _ _ => rfl, congrArg s.arithOut (adcOp_eq_exact ..)⟩
  · exact ⟨fun c a b => sbcOp a b c, fun _ _ => rfl, congrArg s.arithOut (sbcOp_eq_exact ..)⟩
  · exact ⟨fun c a b => sbcOp b a c, fun _ _ => rfl, congrArg s.arithOut (sbcOp_eq_exact ..)⟩

/-- Settles O23: each arithmetic form runs one template on the adder, whose flags are exact. -/
theorem arithmeticToRegister : Obligations.ArithmeticToRegister := by
  intro s sf rn rd op2 h hrd f hf
  obtain ⟨g, hexec, hout⟩ := State.arithForms_exec hf
  have hmode : f.flags.mode = s.cpsr.mode := congrArg (fun out => out.cpsr.mode) hout.symm
  obtain ⟨t, ht, hpost⟩ :=
    State.dataProcess_register h ((arithOperation_beforeOperands h op2 rn g).trans hout) hmode sf hrd
  exact ⟨t, (hexec sf rd).trans ht, hpost⟩

/-! ## The compares (R215 to R218) -/

/-- Each compare runs the compare template on an operation whose flags are those its rule gives. -/
theorem State.compareForms_exec {s : State} (h : s.inside = []) {rn : Reg} {op2 : Operand2} {f : Instr × Cpsr}
    (hf : f ∈ s.compareForms rn op2) :
    ∃ op r, exec f.1 s = s.compare op2 op ∧ op (s.beforeOperands op2) (s.shifted op2) = ⟨r, f.2⟩ := by
  simp only [State.compareForms, List.mem_cons, List.not_mem_nil, or_false] at hf
  obtain rfl | rfl | rfl | rfl := hf
  · exact ⟨logicalOperation rn fun a b => a &&& b, _, rfl, logicalOperation_beforeOperands h rfl⟩
  · exact ⟨logicalOperation rn fun a b => a ^^^ b, _, rfl, logicalOperation_beforeOperands h rfl⟩
  · exact ⟨arithOperation rn fun _ a b => subOp a b, _, rfl,
      (arithOperation_beforeOperands h ..).trans (congrArg s.arithOut (subOp_eq_exact ..))⟩
  · exact ⟨arithOperation rn fun _ a b => addOp a b, _, rfl,
      (arithOperation_beforeOperands h ..).trans (congrArg s.arithOut (addOp_eq_exact ..))⟩

/-- Settles O24: each compare runs the compare template, which writes the flags alone. -/
theorem comparesSetFlagsOnly : Obligations.ComparesSetFlagsOnly := by
  intro s rn op2 h f hf
  obtain ⟨op, r, hexec, hout⟩ := State.compareForms_exec h hf
  obtain ⟨t, ht, hpost⟩ := State.compare_flags h hout
  exact ⟨t, hexec.trans ht, hpost⟩

end Sys2Proof.Machine
end

section
/-! PROOFS. The encoding (30_encoding.md R120 to R137): the class field selects the instruction, the undefined classes are those
of the UNDEFINED rows, and decoding an encoded instruction gives it back. -/

namespace Sys2Proof

/-! ## The class field (R121, R125) -/

/-- Words of one class have the bits 7:4 and 27:20 in common. -/
theorem getLsbD_of_class {v w : Word} (h : classOf v = classOf w) {i : Nat}
    (hi : (4 ≤ i ∧ i < 8) ∨ (20 ≤ i ∧ i < 28)) : v.getLsbD i = w.getLsbD i := by
  obtain ⟨hlow, hhigh⟩ | ⟨hlow, hhigh⟩ := hi
  · have hk := congrArg (·.getLsbD (i - 4)) h
    have h4 : i - 4 < 4 := by omega
    simpa only [classOf, bits, BitVec.getLsbD_append, h4, if_true, BitVec.getLsbD_extractLsb', decide_true, Bool.true_and,
      Nat.add_sub_cancel' hlow] using hk
  · have hk := congrArg (·.getLsbD (i - 16)) h
    have h4 : ¬ i - 16 < 4 := by omega
    have h8 : i - 16 - 4 < 8 := by omega
    have h20 : 20 + (i - 16 - 4) = i := by omega
    simpa only [classOf, bits, BitVec.getLsbD_append, h4, if_false, BitVec.getLsbD_extractLsb', h8, h20, decide_true,
      Bool.true_and] using hk

/-- A field inside the class field is the same in words of one class. -/
theorem bits_of_class {v w : Word} (h : classOf v = classOf w) {lo len : Nat}
    (hlo : (4 ≤ lo ∧ lo + len ≤ 8) ∨ (20 ≤ lo ∧ lo + len ≤ 28)) : bits v lo len = bits w lo len := by
  refine BitVec.eq_of_getLsbD_eq fun i hi => ?_
  simp only [bits, BitVec.getLsbD_extractLsb', hi, decide_true, Bool.true_and]
  exact getLsbD_of_class h (by omega)

theorem bit_of_class {v w : Word} (h : classOf v = classOf w) {i : Nat}
    (hi : (4 ≤ i ∧ i < 8) ∨ (20 ≤ i ∧ i < 28)) : bit v i = bit w i := getLsbD_of_class h hi

section
variable {v w : Word} (h : classOf v = classOf w)
include h

theorem decodeDp_mnemonic_of_class (o o' : Operand2) : (decodeDp v o).mnemonic = (decodeDp w o').mnemonic := by
  unfold decodeDp
  rw [bits_of_class h (lo := 21) (len := 4) (by decide)]
  split <;> rfl

theorem decodeMisc_mnemonic_of_class : (decodeMisc v).mnemonic = (decodeMisc w).mnemonic := by
  unfold decodeMisc
  rw [bits_of_class h (lo := 4) (len := 4) (by decide), bits_of_class h (lo := 21) (len := 2) (by decide)]
  split <;> rfl

theorem decodeNine_mnemonic_of_class : (decodeNine v).mnemonic = (decodeNine w).mnemonic := by
  unfold decodeNine
  rw [bits_of_class h (lo := 21) (len := 4) (by decide), bit_of_class h (i := 20) (by decide)]
  cases bit w 20 <;> split <;> rfl

theorem decodeHalf_mnemonic_of_class : (decodeHalf v).mnemonic = (decodeHalf w).mnemonic := by
  unfold decodeHalf
  rw [bits_of_class h (lo := 5) (len := 2) (by decide), bit_of_class h (i := 20) (by decide)]
  split <;> rfl

theorem decode000_mnemonic_of_class : (decode000 v).mnemonic = (decode000 w).mnemonic := by
  unfold decode000
  rw [bits_of_class h (lo := 23) (len := 2) (by decide), bits_of_class h (lo := 5) (len := 2) (by decide),
    bit_of_class h (i := 20) (by decide), bit_of_class h (i := 4) (by decide), bit_of_class h (i := 7) (by decide)]
  dsimp only
  split_ifs
  · exact decodeNine_mnemonic_of_class h
  · exact decodeHalf_mnemonic_of_class h
  · exact decodeMisc_mnemonic_of_class h
  · exact decodeDp_mnemonic_of_class h ..
  · exact decodeMisc_mnemonic_of_class h
  · exact decodeDp_mnemonic_of_class h ..

theorem decode001_mnemonic_of_class : (decode001 v).mnemonic = (decode001 w).mnemonic := by
  unfold decode001
  rw [bits_of_class h (lo := 23) (len := 2) (by decide), bits_of_class h (lo := 21) (len := 2) (by decide),
    bit_of_class h (i := 20) (by decide)]
  split
  · split <;> rfl
  · exact decodeDp_mnemonic_of_class h ..

theorem decodeSingle_mnemonic_of_class (o o' : WordOffset) :
    (decodeSingle v o).mnemonic = (decodeSingle w o').mnemonic := by
  unfold decodeSingle
  rw [bit_of_class h (i := 24) (by decide), bit_of_class h (i := 21) (by decide), bit_of_class h (i := 22) (by decide),
    bit_of_class h (i := 20) (by decide)]
  dsimp only
  split <;> rfl

theorem decodeBlock_mnemonic_of_class : (decodeBlock v).mnemonic = (decodeBlock w).mnemonic := by
  unfold decodeBlock
  rw [bit_of_class h (i := 22) (by decide), bit_of_class h (i := 20) (by decide)]
  split <;> rfl

theorem decodeWord_mnemonic_of_class : (decodeWord v).mnemonic = (decodeWord w).mnemonic := by
  unfold decodeWord
  rw [bits_of_class h (lo := 25) (len := 3) (by decide), bit_of_class h (i := 4) (by decide),
    bit_of_class h (i := 24) (by decide)]
  split
  · exact decode000_mnemonic_of_class h
  · exact decode001_mnemonic_of_class h
  · exact decodeSingle_mnemonic_of_class h ..
  · split
    · rfl
    · exact decodeSingle_mnemonic_of_class h ..
  · exact decodeBlock_mnemonic_of_class h
  · split <;> rfl
  · rfl
  · split <;> rfl

end

/-- Settles O3: every choice the decoder makes is one of the class field. -/
theorem classSelectsInstruction : Obligations.ClassSelectsInstruction := fun _ _ h => decodeWord_mnemonic_of_class h

/-! ## The undefined classes (R137) -/

theorem mnemonic_undefined_iff {i : Instr} : i.mnemonic = "UNDEFINED" ↔ ∃ b, i = .undefined b := by
  cases i <;> simp [Instr.mnemonic]

/-- Settles O4, by evaluating the decoder on a word of each class. -/
theorem undefinedClassCount : Obligations.UndefinedClassCount := by
  unfold Obligations.UndefinedClassCount
  decide +kernel

/-- The undefined rows over the class field alone, as numbers. -/
def undefinedClassRows : List (Nat × Nat) :=
  undefinedRows.map fun row => ((classOf (row.1.setWidth 32)).toNat, (classOf (row.2.setWidth 32)).toNat)

/-- Does a row match a class? -/
def isUndefinedClass (k : Nat) : Bool := undefinedClassRows.any fun row => k &&& row.1 == row.2

/-- The rows ask for no bit outside the class field. -/
theorem undefinedRows_in_class : ∀ row ∈ undefinedRows,
    row.1 &&& 0xFF000F0#28 = row.1 ∧ row.2 &&& 0xFF000F0#28 = row.2 := by
  simp [undefinedRows]

theorem classOf_and (v w : Word) : classOf (v &&& w) = classOf v &&& classOf w := by
  simp only [classOf, bits, BitVec.extractLsb'_and]
  exact BitVec.and_append.symm

/-- Words with no bit outside the class field are those of their class. -/
theorem eq_of_class {x y : BitVec 28} (hx : x &&& 0xFF000F0#28 = x) (hy : y &&& 0xFF000F0#28 = y)
    (h : classOf (x.setWidth 32) = classOf (y.setWidth 32)) : x = y := by
  rw [← hx, ← hy]
  refine BitVec.eq_of_getLsbD_eq fun i hi => ?_
  rw [BitVec.getLsbD_and, BitVec.getLsbD_and]
  by_cases hclass : (4 ≤ i ∧ i < 8) ∨ (20 ≤ i ∧ i < 28)
  · have hbit := getLsbD_of_class h hclass
    simp only [BitVec.getLsbD_setWidth, show i < 32 by omega, decide_true, Bool.true_and] at hbit
    rw [hbit]
  · have hmask : ∀ i < 28, ¬ ((4 ≤ i ∧ i < 8) ∨ (20 ≤ i ∧ i < 28)) → (0xFF000F0#28).getLsbD i = false := by decide
    simp only [hmask i hi hclass, Bool.and_false]

theorem bits_setWidth_bits (w : Word) {lo len : Nat} (h : lo + len ≤ 28) :
    bits ((bits w 0 28).setWidth 32) lo len = bits w lo len := by
  refine BitVec.eq_of_getLsbD_eq fun i hi => ?_
  have h28 : lo + i < 28 := by omega
  have h32 : lo + i < 32 := by omega
  simp [bits, hi, h28, h32]

theorem isUndefinedBits_eq (w : Word) : isUndefinedBits (bits w 0 28) = isUndefinedClass (classOf w).toNat := by
  have hsetWidth : classOf ((bits w 0 28).setWidth 32) = classOf w := by
    simp only [classOf, bits_setWidth_bits w (show 20 + 8 ≤ 28 by decide), bits_setWidth_bits w (show 4 + 4 ≤ 28 by decide)]
  have hrow : ∀ row ∈ undefinedRows, bits w 0 28 &&& row.1 = row.2 ↔
      (classOf w).toNat &&& (classOf (row.1.setWidth 32)).toNat = (classOf (row.2.setWidth 32)).toNat := by
    intro row hmem
    obtain ⟨hmask, hvalue⟩ := undefinedRows_in_class row hmem
    rw [← BitVec.toNat_and, BitVec.toNat_inj, ← hsetWidth, ← classOf_and, ← BitVec.setWidth_and]
    exact ⟨fun h => by rw [h], fun h => eq_of_class (by rw [BitVec.and_assoc, hmask]) hvalue h⟩
  rw [isUndefinedBits, isUndefinedClass, undefinedClassRows, List.any_map, Bool.eq_iff_iff]
  simp only [List.any_eq_true, beq_iff_eq, Function.comp]
  exact exists_congr fun row => and_congr_right fun hmem => hrow row hmem

theorem isUndefinedClass_table : ((List.range 4096).all fun k =>
    isUndefinedClass k == decide ((decodeWord (wordOfClass (BitVec.ofNat 12 k))).mnemonic = "UNDEFINED")) = true := by
  decide +kernel

theorem classOf_wordOfClass (k : BitVec 12) : classOf (wordOfClass k) = k := by
  simp only [classOf, wordOfClass, bits]
  simp (disch := decide) only [bits_append_high, bits_append_low, Nat.reduceSub]
  rw [BitVec.extractLsb'_eq_self, BitVec.extractLsb'_eq_self]
  exact (BitVec.extractLsb'_append_extractLsb'_eq_extractLsb' rfl).trans BitVec.extractLsb'_eq_self

theorem isUndefinedBits_iff (w : Word) : isUndefinedBits (bits w 0 28) = true ↔ (decodeWord w).mnemonic = "UNDEFINED" := by
  have htable := List.all_eq_true.mp isUndefinedClass_table (classOf w).toNat (List.mem_range.mpr (classOf w).isLt)
  rw [beq_iff_eq, BitVec.ofNat_toNat, BitVec.setWidth_eq, ← isUndefinedBits_eq,
    decodeWord_mnemonic_of_class (classOf_wordOfClass (classOf w))] at htable
  rw [htable, decide_eq_true_iff]

/-! ## What a decoded instruction keeps of its word -/

/-- The trap entry carries the word's bits, and a plain transfer is not of the P = 0, W = 1 form. -/
def FitsWord (w : Word) : Instr → Prop
  | .undefined b => b = bits w 0 28
  | .str p _ wb .. | .ldr p _ wb .. | .strb p _ wb .. | .ldrb p _ wb .. => (!p && wb) = false
  | _ => True

theorem decodeDp_fits (w : Word) (o : Operand2) : FitsWord w (decodeDp w o) := by
  unfold decodeDp
  dsimp only
  split <;> trivial

theorem decodeMisc_fits (w : Word) : FitsWord w (decodeMisc w) := by
  unfold decodeMisc
  split <;> trivial

theorem decodeNine_fits (w : Word) : FitsWord w (decodeNine w) := by
  unfold decodeNine
  cases bit w 20 <;> dsimp only <;> split <;> trivial

theorem decodeHalf_fits (w : Word) : FitsWord w (decodeHalf w) := by
  unfold decodeHalf
  dsimp only
  split <;> trivial

theorem decode000_fits (w : Word) : FitsWord w (decode000 w) := by
  unfold decode000
  dsimp only
  split_ifs
  · exact decodeNine_fits w
  · exact decodeHalf_fits w
  · exact decodeMisc_fits w
  · exact decodeDp_fits w _
  · exact decodeMisc_fits w
  · exact decodeDp_fits w _

theorem decode001_fits (w : Word) : FitsWord w (decode001 w) := by
  unfold decode001
  split
  · split <;> trivial
  · exact decodeDp_fits w _

theorem decodeSingle_fits (w : Word) (off : WordOffset) : FitsWord w (decodeSingle w off) := by
  unfold decodeSingle
  dsimp only
  split
  iterate 4 · assumption
  all_goals trivial

theorem decodeBlock_fits (w : Word) : FitsWord w (decodeBlock w) := by
  unfold decodeBlock
  dsimp only
  split <;> trivial

theorem decodeWord_fits (w : Word) : FitsWord w (decodeWord w) := by
  unfold decodeWord
  split
  · exact decode000_fits w
  · exact decode001_fits w
  · exact decodeSingle_fits w _
  · split
    · rfl
    · exact decodeSingle_fits w _
  · exact decodeBlock_fits w
  · split <;> trivial
  · rfl
  · split <;> trivial

theorem plain_iff {p w : Bool} : (p || !w) = true ↔ (!p && w) = false := by
  cases p <;> cases w <;> decide

/-- Settles O2: the trap entry carries its word's bits, which a row matches, as its class is undefined. -/
theorem decodedIsWellFormed : Obligations.DecodedIsWellFormed := by
  intro w
  have hfits := decodeWord_fits w
  cases hi : decodeWord w <;> rw [hi] at hfits
  case undefined b =>
    rw [show b = bits w 0 28 from hfits, WellFormed, isUndefinedBits_iff, hi]
    rfl
  case str p _ wb _ _ _ | ldr p _ wb _ _ _ | strb p _ wb _ _ _ | ldrb p _ wb _ _ _ =>
    exact plain_iff.mpr hfits
  all_goals rfl


/-! ## Decoding an encoded instruction -/

theorem decodeWord_encodeDp (c : Cond) (op : BitVec 4) (s : Bool) (rn rd : BitVec 4) (op2 : Operand2)
    (h : ¬ (op.extractLsb' 2 2 = 2#2 ∧ s = false)) :
    decodeWord (encodeDp c op s rn rd op2) = decodeDp (encodeDp c op s rn rd op2) op2 := by
  have hmisc : (op.extractLsb' 2 2 == 2#2 && !s) = false := by
    cases s <;> simp_all
  cases op2 <;>
  simp (disch := decide) only [decodeWord, decode000, decode001, opDpi, opDpr, opDpm, shiftTypeAt, regAt, encodeDp, bits, bit,
    bits_append_high, bits_append_low, bit_append_high, bit_append_low, Nat.reduceSub, BitVec.extractLsb'_eq_self, flag_bit,
    hmisc, ShiftType.ofField_code, regCode_toFin] <;> rfl

theorem encodeDp_fields (c : Cond) (op : BitVec 4) (s : Bool) (rn rd : BitVec 4) (op2 : Operand2) :
    let w := encodeDp c op s rn rd op2
    bits w 21 4 = op ∧ bit w 20 = s ∧ bits w 16 4 = rn ∧ bits w 12 4 = rd := by
  cases op2 <;> simp (disch := decide) only [encodeDp, bits, bit, bits_append_high, bits_append_low, bit_append_high,
    bit_append_low, flag_bit, Nat.reduceSub, BitVec.extractLsb'_eq_self, and_self]

theorem decodeWord_encodeSingle (c : Cond) (p u byte w load : Bool) (rn rd : Reg) (off : WordOffset) :
    decodeWord (encodeSingle c p u byte w load rn rd off) =
      decodeSingle (encodeSingle c p u byte w load rn rd off) off := by
  cases off <;>
  simp (disch := decide) only [decodeWord, offSdi, offSdr, shiftTypeAt, regAt, encodeSingle, bits, bit,
    bits_append_high, bits_append_low, bit_append_high, bit_append_low, Nat.reduceSub, BitVec.extractLsb'_eq_self,
    ShiftType.ofField_code, regCode_toFin] <;> rfl

theorem encodeSingle_fields (c : Cond) (p u byte w load : Bool) (rn rd : Reg) (off : WordOffset) :
    let v := encodeSingle c p u byte w load rn rd off
    bit v 24 = p ∧ bit v 23 = u ∧ bit v 22 = byte ∧ bit v 21 = w ∧ bit v 20 = load ∧ regAt v 16 = rn ∧
      regAt v 12 = rd := by
  cases off <;> simp (disch := decide) only [encodeSingle, regAt, regCode_toFin, bits, bit,
    bits_append_high, bits_append_low, bit_append_high,
    bit_append_low, flag_bit, Nat.reduceSub, BitVec.extractLsb'_eq_self, and_self]

theorem decodeWord_encodeHalf (c : Cond) (p u w load : Bool) (sh : BitVec 2) (rn rd : Reg) (off : HalfOffset)
    (h : sh ≠ 0#2) :
    decodeWord (encodeHalf c p u w load sh rn rd off) = decodeHalf (encodeHalf c p u w load sh rn rd off) := by
  have hsh : (sh == 0#2) = false := by simpa using h
  cases off <;>
  simp (disch := decide) only [decodeWord, decode000, encodeHalf, bits, bit, hsh,
    bits_append_high, bits_append_low, bit_append_high, bit_append_low, Nat.reduceSub, BitVec.extractLsb'_eq_self] <;> rfl

theorem encodeHalf_fields (c : Cond) (p u w load : Bool) (sh : BitVec 2) (rn rd : Reg) (off : HalfOffset) :
    let v := encodeHalf c p u w load sh rn rd off
    bits v 5 2 = sh ∧ bit v 24 = p ∧ bit v 23 = u ∧ bit v 21 = w ∧ bit v 20 = load ∧ regAt v 16 = rn ∧ regAt v 12 = rd ∧
      halfOffsetAt v = off := by
  cases off with
  | imm imm8 =>
    have himm : imm8.extractLsb' 4 4 ++ imm8.extractLsb' 0 4 = imm8 :=
      (BitVec.extractLsb'_append_extractLsb'_eq_extractLsb' rfl).trans BitVec.extractLsb'_eq_self
    simp (disch := decide) only [encodeHalf, halfOffsetAt, regAt, regCode_toFin, bits, bit, bits_append_high,
      bits_append_low, bit_append_high, bit_append_low, flag_bit, Nat.reduceSub, BitVec.extractLsb'_eq_self, himm, true_and]
    rfl
  | reg rm =>
    simp (disch := decide) only [encodeHalf, halfOffsetAt, regAt, regCode_toFin, bits, bit, bits_append_high,
      bits_append_low, bit_append_high, bit_append_low, flag_bit, Nat.reduceSub, BitVec.extractLsb'_eq_self, true_and]
    rfl

theorem decodeWord_encodeMul (c : Cond) (op : BitVec 4) (s : Bool) (hi lo : BitVec 4) (rs rm : Reg) :
    decodeWord (encodeMul c op s hi lo rs rm) = decodeNine (encodeMul c op s hi lo rs rm) := by
  simp (disch := decide) only [decodeWord, decode000, encodeMul, bits, bit,
    bits_append_high, bits_append_low, bit_append_high, bit_append_low, Nat.reduceSub, BitVec.extractLsb'_eq_self]
  rfl

theorem encodeMul_fields (c : Cond) (op : BitVec 4) (s : Bool) (hi lo : BitVec 4) (rs rm : Reg) :
    let v := encodeMul c op s hi lo rs rm
    bits v 21 4 = op ∧ bit v 20 = s ∧ bits v 16 4 = hi ∧ bits v 12 4 = lo ∧
      bits v 8 4 = regCode rs ∧ bits v 0 4 = regCode rm := by
  simp (disch := decide) only [encodeMul, bits, bit, bits_append_high, bits_append_low,
    bit_append_high, bit_append_low, flag_bit, Nat.reduceSub, BitVec.extractLsb'_eq_self, and_self]

theorem encodeMisc_fields (c : Cond) (op f19 f15 f11 low f3 : BitVec 4) :
    let v := encodeMisc c op f19 f15 f11 low f3
    bits v 21 4 = op ∧ bits v 21 2 = op.extractLsb' 0 2 ∧ bit v 20 = false ∧ bits v 16 4 = f19 ∧ bits v 12 4 = f15 ∧
      bits v 4 4 = low ∧ bits v 0 4 = f3 := by
  simp (disch := decide) only [encodeMisc, bits, bit, bits_append_high, bits_append_low,
    bit_append_high, bit_append_low, Nat.reduceSub, BitVec.extractLsb'_eq_self, true_and]
  exact ⟨rfl, trivial⟩

/-- The class `0001 0 r 0` with `lo` = 0 or 1: a status transfer or BX. -/
theorem decodeWord_encodeMisc (c : Cond) (op f19 f15 f11 low f3 : BitVec 4) (hop : op.extractLsb' 2 2 = 2#2)
    (hlow : low.getLsbD 3 = false) :
    decodeWord (encodeMisc c op f19 f15 f11 low f3) = decodeMisc (encodeMisc c op f19 f15 f11 low f3) := by
  simp (disch := decide) only [decodeWord, decode000, encodeMisc, bits, bit, hop, hlow,
    bits_append_high, bits_append_low, bit_append_high, bit_append_low, Nat.reduceSub, BitVec.extractLsb'_eq_self]
  cases low.getLsbD 0 <;> rfl

/-- The same class with `lo` = 9: a swap. -/
theorem decodeWord_encodeMisc_nine (c : Cond) (op f19 f15 f11 f3 : BitVec 4) :
    decodeWord (encodeMisc c op f19 f15 f11 9 f3) = decodeNine (encodeMisc c op f19 f15 f11 9 f3) := by
  simp (disch := decide) only [decodeWord, decode000, encodeMisc, bits, bit,
    bits_append_high, bits_append_low, bit_append_high, bit_append_low, Nat.reduceSub, BitVec.extractLsb'_eq_self]
  rfl

theorem decodeWord_encodeMsrImm (c : Cond) (op mask rot : BitVec 4) (imm8 : Byte) :
    decodeWord (encodeMsrImm c op mask rot imm8) = decode001 (encodeMsrImm c op mask rot imm8) := by
  simp (disch := decide) only [decodeWord, encodeMsrImm, bits,
    bits_append_high, bits_append_low, Nat.reduceSub, BitVec.extractLsb'_eq_self]
  rfl

theorem encodeMsrImm_fields (c : Cond) (op mask rot : BitVec 4) (imm8 : Byte) :
    let v := encodeMsrImm c op mask rot imm8
    bits v 23 2 = op.extractLsb' 2 2 ∧ bits v 21 2 = op.extractLsb' 0 2 ∧ bit v 20 = false ∧ bits v 16 4 = mask ∧
      bits v 8 4 = rot ∧ bits v 0 8 = imm8 := by
  simp (disch := decide) only [encodeMsrImm, bits, bit, bits_append_high, bits_append_low,
    bit_append_high, bit_append_low, Nat.reduceSub, BitVec.extractLsb'_eq_self, and_true, true_and]
  rfl

theorem decodeWord_encodeBlock (c : Cond) (p u s w load : Bool) (rn : Reg) (list : BitVec 16) :
    decodeWord (encodeBlock c p u s w load rn list) = decodeBlock (encodeBlock c p u s w load rn list) := by
  simp (disch := decide) only [decodeWord, encodeBlock, bits,
    bits_append_high, bits_append_low, Nat.reduceSub, BitVec.extractLsb'_eq_self]
  rfl

theorem encodeBlock_fields (c : Cond) (p u s w load : Bool) (rn : Reg) (list : BitVec 16) :
    let v := encodeBlock c p u s w load rn list
    bit v 24 = p ∧ bit v 23 = u ∧ bit v 22 = s ∧ bit v 21 = w ∧ bit v 20 = load ∧ regAt v 16 = rn ∧
      bits v 0 16 = list := by
  simp (disch := decide) only [encodeBlock, regAt, regCode_toFin, bits, bit, bits_append_high, bits_append_low,
    bit_append_high, bit_append_low, flag_bit, Nat.reduceSub, BitVec.extractLsb'_eq_self, and_self]

theorem encodeBranch_fields (c : Cond) (top : BitVec 4) (imm24 : BitVec 24) :
    let v := c.code ++ top ++ imm24
    bits v 25 3 = top.extractLsb' 1 3 ∧ bit v 24 = top.getLsbD 0 ∧ bits v 0 24 = imm24 := by
  simp (disch := decide) only [bits, bit, bits_append_high, bits_append_low,
    bit_append_high, bit_append_low, Nat.reduceSub, BitVec.extractLsb'_eq_self, and_self]

/-- The encoder's word decodes to the instruction. -/
theorem decodeWord_encode (c : Cond) (i : Instr) (h : WellFormed i = true) : decodeWord (encode c i) = i := by
  cases i
  case and | eor | sub | rsb | add | adc | sbc | rsc | orr | mov | bic | mvn | tst | teq | cmp | cmn =>
    simp [encode, decodeWord_encodeDp, decodeDp, regAt, encodeDp_fields, regCode_toFin]
  case mul | mla | umull | umlal | smull | smlal =>
    simp [encode, decodeWord_encodeMul, decodeNine, regAt, encodeMul_fields, regCode_toFin]
  case mrsCpsr | mrsSpsr | msrCpsrReg | msrSpsrReg | bx =>
    simp [encode, decodeWord_encodeMisc, decodeMisc, regAt, encodeMisc_fields, regCode_toFin]
  case swp | swpb =>
    rw [encode, decodeWord_encodeMisc_nine]
    simp [decodeNine, regAt, encodeMisc_fields, regCode_toFin]
  case msrCpsrImm | msrSpsrImm =>
    simp [encode, decodeWord_encodeMsrImm, decode001, encodeMsrImm_fields]
  case strh | ldrh | ldrsb | ldrsh =>
    simp [encode, decodeWord_encodeHalf, decodeHalf, encodeHalf_fields]
  case str | ldr | strb | ldrb =>
    simp [encode, decodeWord_encodeSingle, decodeSingle, encodeSingle_fields, plain_iff.mp h]
  case strt | ldrt | strbt | ldrbt =>
    simp [encode, decodeWord_encodeSingle, decodeSingle, encodeSingle_fields]
  case stm | ldm | stmUser | ldmUser =>
    simp [encode, decodeWord_encodeBlock, decodeBlock, encodeBlock_fields]
  case b | bl | swi =>
    simp [encode, decodeWord, encodeBranch_fields]
  case undefined rest =>
    have hrest : bits (encode c (.undefined rest)) 0 28 = rest := by
      rw [encode, bits, bits_append_low _ _ (by decide), BitVec.extractLsb'_eq_self]
    have hname := (isUndefinedBits_iff (encode c (.undefined rest))).mp (by rw [hrest]; exact h)
    obtain ⟨b, hb⟩ := mnemonic_undefined_iff.mp hname
    have hfits := decodeWord_fits (encode c (.undefined rest))
    rw [hb] at hfits ⊢
    rw [show b = bits _ 0 28 from hfits, hrest]

theorem decode_bytesOfWord (w : Word) (rest : List Byte) :
    decode (bytesOfWord w ++ rest) = .ok (condOf w, decodeWord w, rest) := by
  simp only [decode, bytesOfWord, List.cons_append, List.nil_append, wordOfBytes_bytes]

theorem condOf_encode (c : Cond) (i : Instr) : condOf (encode c i) = c := by
  cases i
  case and | eor | sub | rsb | add | adc | sbc | rsc | orr | mov | bic | mvn | tst | teq | cmp | cmn =>
    exact Laws.Condition.encodeDp_condition ..
  case mul | mla | umull | umlal | smull | smlal => exact Laws.Condition.encodeMul_condition ..
  case mrsCpsr | mrsSpsr | msrCpsrReg | msrSpsrReg | bx | swp | swpb => exact Laws.Condition.encodeMisc_condition ..
  case msrCpsrImm | msrSpsrImm => exact Laws.Condition.encodeMsrImm_condition ..
  case strh | ldrh | ldrsb | ldrsh => exact Laws.Condition.encodeHalf_condition ..
  case str | ldr | strb | ldrb | strt | ldrt | strbt | ldrbt => exact Laws.Condition.encodeSingle_condition ..
  case stm | ldm | stmUser | ldmUser => exact Laws.Condition.encodeBlock_condition ..
  case b => exact Laws.Condition.b _ c
  case bl => exact Laws.Condition.bl _ c
  case swi => exact Laws.Condition.swi _ c
  case undefined => exact Laws.Condition.undefined _ c

/-- Settles O1: the encoder's word decodes to its instruction, format by format, and its condition is read back. -/
theorem decodeOfEncode : Obligations.DecodeOfEncode := by
  intro c i rest h
  rw [decode_bytesOfWord, condOf_encode, decodeWord_encode c i h]

/-- Settles O5, by evaluating the decoder on each word. -/
theorem sampleWordsDecode : Obligations.SampleWordsDecode := by
  unfold Obligations.SampleWordsDecode
  decide +kernel

end Sys2Proof
end

section
/-! PROOFS. Registers and their banks, memory, reset, the condition table, and the steps that fetch, take an interrupt or run
an instruction (10_state.md R21, R22, R41; 20_memory.md R62; 40_pipeline_condition.md R150 to R161; 60_exceptions.md R377;
70_reset_and_hazards.md R411). -/

namespace Sys2Proof.Machine

/-! ## Registers and memory (10 R21, R22; 20 R62) -/

/-- When the bank table makes two visible registers one (R21). -/
theorem physical_eq_iff (m m' : Mode) {n n' : Reg} (hn : n ≠ 15) :
    physical m n = physical m' n' ↔
      n = n' ∧ (n.val ≤ 7 ∨ (n.val ≤ 12 ∧ (m = .fiq ↔ m' = .fiq)) ∨ m = m' ∨
        (m ∈ [Mode.user, .system] ∧ m' ∈ [Mode.user, .system])) := by
  cases m <;> cases m' <;> revert n n' <;> decide

theorem State.regIn_eq {s : State} {m : Mode} {n : Reg} {p : PhysReg} (h : physical m n = some p) :
    s.regIn m n = s.phys p := by
  simp only [State.regIn, h]

theorem State.regIn_fifteen (s : State) (m : Mode) : s.regIn m 15 = s.r15 := by
  simp only [State.regIn, physical_eq_none.mpr]

/-- Settles O6: a write reaches one physical register, which a read names exactly where the bank table says. -/
theorem bankedReadAfterWrite : Obligations.BankedReadAfterWrite := by
  intro s m m' n n' v hn
  simp only [← physical_eq_iff m m' hn]
  by_cases hn' : n' = 15
  · subst hn'
    have hne : physical m n ≠ physical m' 15 := fun h => hn (physical_eq_none.mp (h.trans (physical_eq_none.mpr rfl)))
    rw [State.regIn_fifteen, State.regIn_fifteen, State.setRegIn_r15, if_neg hne]
  · obtain ⟨p, hp⟩ := physical_some (m := m') hn'
    rw [State.regIn_eq hp, State.regIn_eq hp, State.phys_setRegIn, hp]

/-- Settles O7: the memory laws at the numbers of two words. -/
theorem memoryReadAfterWrite : Obligations.MemoryReadAfterWrite := by
  intro m a b v hm
  refine ⟨?_, Memory.wf_write hm a.isLt v⟩
  simp only [Memory.read_write hm, BitVec.toNat_inj]

/-! ## Reset (10 R41, 70 R411) -/

/-- Settles O8, by evaluating the reset state. -/
theorem resetValues : Obligations.ResetValues := by
  unfold Obligations.ResetValues
  decide

/-- Settles O9: the reset sequence writes R14_svc, SPSR_svc and CPSR, and branches. -/
theorem resetCall : Obligations.ResetCall := by
  intro s
  refine ⟨s.resetSequence, rfl, rfl, rfl, ⟨rfl, rfl⟩, rfl, rfl, rfl, rfl, fun p hp => ?_, fun b hb => ?_⟩
  · exact (State.phys_setPhys s .r14_svc p _).trans (if_neg hp)
  · cases b with
    | supervisor => exact absurd rfl hb
    | fiq | irq | abort | undefined => rfl

/-! ## Conditions (40 R154, R155) -/

/-- A condition reads the four flags alone. -/
theorem condPass_flags (c : Cond) (p : Cpsr) :
    condPass c p = condPass c ⟨p.n, p.z, p.c, p.v, false, false, false, .user⟩ := by
  cases c <;> rfl

/-- Settles O10: a condition reads the four flags alone, and the table is evaluated at each of their settings. -/
theorem conditionTable : Obligations.ConditionTable := by
  intro p c
  rw [condPass_flags]
  generalize p.n = n, p.z = z, p.c = carry, p.v = v
  revert n z carry v c
  decide

/-! ## Steps (40 R150 to R161) -/

/-- What the platform leaves alone inside a step: the word about to execute, and what it still has to do there. -/
structure Undisturbed (s t : State) : Prop where
  execute : t.execute = s.execute
  inside : t.inside = s.inside

theorem Undisturbed.trans {s t u : State} (h : Undisturbed s t) (h' : Undisturbed t u) : Undisturbed s u :=
  ⟨h'.execute.trans h.execute, h'.inside.trans h.inside⟩

theorem Undisturbed.restoreCpsr {s t : State} (h : s.restoreCpsr = .next t) : Undisturbed s t := by
  unfold State.restoreCpsr at h
  split at h
  · rw [next_inj h]; exact ⟨rfl, rfl⟩
  · dsimp only at h
    split at h
    · rw [next_inj h]; exact ⟨rfl, rfl⟩
    · cases h

theorem Undisturbed.switchBank {s t : State} {m : BitVec 5} {flags : Option (Bool × Bool × Bool)}
    (h : s.switchBank m flags = .next t) : Undisturbed s t := by
  unfold State.switchBank at h
  split at h
  · cases h
  · split at h <;> rw [next_inj h] <;> exact ⟨rfl, rfl⟩

theorem Undisturbed.platformCall {c : PlatformCall} {s t : State} (h : platformCall c s = .next t) : Undisturbed s t := by
  cases c <;> simp only [Machine.platformCall] at h
  case switchBank => exact .switchBank h
  case spsrToCpsr => exact .restoreCpsr h
  case writeReg | writeUser => split at h <;> rw [next_inj h] <;> exact ⟨by simp, by simp⟩
  case dmaByte => rw [next_inj h]; exact ⟨by simp, by simp⟩
  all_goals rw [next_inj h]; exact ⟨rfl, rfl⟩

theorem Undisturbed.innerCall {c : PlatformCall} {s t : State} (h : innerCall c s = .next t) : Undisturbed s t := by
  unfold Machine.innerCall at h
  split at h
  · rw [next_inj h]; exact ⟨rfl, rfl⟩
  · exact .platformCall h

theorem Undisturbed.runCalls {l : List PlatformCall} {s t : State} (h : runCalls Machine.innerCall l s = .next t) :
    Undisturbed s t := by
  induction l generalizing s with
  | nil => rw [next_inj h]; exact ⟨rfl, rfl⟩
  | cons c l ih =>
    obtain ⟨u, hu, h⟩ := andThen_next h
    exact (Undisturbed.innerCall hu).trans (ih h)

theorem State.attend_execute (s : State) : s.attend.execute = s.execute := by
  unfold State.attend
  split
  · rfl
  · split
    · next h => exact (Undisturbed.runCalls h).execute
    · rfl

theorem State.fetchNext_execute (s : State) : s.fetchNext.execute = s.execute := by
  simp only [State.fetchNext, State.fetch32, State.answered_execute, State.call, State.attend_execute]
  rfl

/-- Settles O11: the step is its three parts, the word that executes being the one before the fetch. -/
theorem stepRunsDecoded : Obligations.StepRunsDecoded := by
  intro s u c i rest hturn hawake hrefill hline hdecode hpass
  rw [decode_bytesOfWord] at hdecode
  cases hdecode
  have hstage : u.fetchNext.executeStage = exec (decodeWord u.execute) u.fetchNext := by
    rw [State.executeStage, State.fetchNext_execute, if_pos hpass]
  rw [step, machineStep, hturn, Result.andThen, coreStep_normal hawake hrefill hline, State.normalStep, hstage]
  cases exec (decodeWord u.execute) u.fetchNext <;> rfl

/-- The platform acts inside the fetch: after its charge, before its data. -/
theorem State.fetchNext_attended {u t : State} {batch : List PlatformCall} {later : List (List PlatformCall)}
    (h : u.inside = batch :: later)
    (hrun : runCalls innerCall batch { u with
      inside := later, ws := u.ws.fetchCost u.params (u.params.inCart u.r15) u.r15,
      calls := u.calls ++ [.fetch32 u.r15] } = .next t) :
    u.fetchNext = { t.answered u.r15 4 with fetch := t.peek32 u.r15 } := by
  have hcall : u.call (fun ws => ws.fetchCost u.params (u.params.inCart u.r15) u.r15) (.fetch32 u.r15) = t :=
    State.attend_next (s := (u.clock _).note _) h hrun
  rw [State.fetchNext, State.fetch32, hcall]

/-- Settles O12: a quiet fetch changes what a call changes; else its data are those the platform's calls leave. -/
theorem fetchComesFirst : Obligations.FetchComesFirst := by
  refine ⟨fun s => ?_, fun u t batch later h hrun => ?_⟩
  · obtain ⟨w, d, hw, hfetch⟩ := State.fetchNext_quiet (s := s.fresh) rfl
    have hdraws : s.plainWord s.r15 → s.fetched.draws = s.draws := fun hplain => by
      have hio := State.touchesIo_plain hplain
      simp only [State.fetched, State.fetchNext, State.fetch32_quiet (s := s.fresh) rfl, State.answered_draws]
      exact if_neg (Bool.eq_false_iff.mp hio)
    refine ⟨by rw [State.fetched, hfetch]; rfl, by rw [State.fetched, hfetch]; rfl, ?_, hdraws, ?_⟩
    · rw [State.fetched, hfetch]; exact hw
    · rw [State.fetched, hfetch]
  · rw [State.fetchNext_attended h hrun]
    exact ⟨rfl, by simp, by simp, by simp, by simp, by simp, by simp [(Undisturbed.runCalls hrun).inside]⟩

/-- A word in memory outside the I/O window. -/
theorem State.peek32_memory {s : State} {a : Word} (h : s.plainWord a) :
    s.peek32 a = wordOfBytes (s.mem.read a.toNat) (s.mem.read (a + 1#32).toNat) (s.mem.read (a + 2#32).toNat)
      (s.mem.read (a + 3#32).toNat) := by
  have h0 : s.params.isIo a = false := by simpa using h 0 (by decide)
  simp only [State.peek32, State.byteAt, h0, h 1 (by decide), h 2 (by decide), h 3 (by decide)]
  rfl

/-- Settles O15: each of the two steps is a bubble; the first fetches the word the second moves to `execute`. -/
theorem twoBubblesAfterBranch : Obligations.TwoBubblesAfterBranch := by
  intro s hrun hrefill hplain
  obtain ⟨w, d, -, hfirst⟩ := s.passedOver_eq 1
  have hrun' : Running (s.passedOver 1) := by
    rw [hfirst]
    exact ⟨⟨hrun.awake, hrun.primary⟩, hrun.quiet⟩
  have hstep : step s = .next (s.passedOver 1) := by rw [step_bubble hrun (by simp [hrefill]), hrefill]; rfl
  have hstep' : step (s.passedOver 1) = .next ((s.passedOver 1).passedOver 0) :=
    step_bubble hrun' (by simp [hfirst])
  obtain ⟨w', d', -, hsecond⟩ := (s.passedOver 1).passedOver_eq 0
  refine ⟨_, _, hstep, hstep', ?_⟩
  rw [hsecond, hfirst]
  refine ⟨rfl, BitVec.add_assoc .., rfl, rfl, rfl, State.spsrOf_congr ⟨rfl, rfl, rfl, rfl, rfl⟩, ?_⟩
  exact State.peek32_memory hplain

theorem coreStep_compact {s : State} (h : s.halted = false) (ht : s.cpsr.t = true) :
    coreStep s = .refused (.compactEncoding s.r15) := by
  simp [coreStep, h, ht]

/-- Settles O17: the core's step is refused. -/
theorem compactEncodingRefused : Obligations.CompactEncodingRefused := by
  intro s ha hh ht
  rw [step_quiet ha, coreStep_compact (s := s.fresh) hh ht]
  rfl

theorem coreStep_interrupt {s : State} (h : Awake s) (hr : s.refill = 0) (hline : s.irqLine = true)
    (hi : s.cpsr.i = false) : coreStep s = .next s.raiseIrq := by
  simp [coreStep, h.awake, h.primary, hr, hline, hi]

/-- Settles O18: the core's step is the entry of an IRQ. -/
theorem interruptEntry : Obligations.InterruptEntry := by
  intro s h hr hline hi
  obtain ⟨hcpsr, hspsr, hr14, hbranch, hcalls, hframe, hstore⟩ := s.fresh.raiseIrq_effect
  obtain ⟨-, hinside, hstop⟩ := hframe.fixed
  refine ⟨s.fresh.raiseIrq, ?_, hcpsr, hspsr, hr14, hbranch, hframe, ⟨hstore.memory, hstore.control⟩, hcalls⟩
  rw [step_quiet h.quiet, coreStep_interrupt (s := s.fresh) ⟨h.awake, h.primary⟩ hr hline hi]
  exact State.endStep_quiet hstop hinside

end Sys2Proof.Machine
end

section
/-! PROOFS. The shifts by a register amount, the rotated immediate, data processing with destination R15, and the multiplies
(41_shifter_operand2.md R186 to R191; 42_data_processing.md R205, R206; 43_multiply.md R230 to R238). -/

namespace Sys2Proof.Machine

/-! ## Shift by register (41 R186 to R190) -/

section
variable (m : Word) {n : Nat} (hn : 0 < n)

theorem shiftByReg_zero (type : ShiftType) : shiftByReg type 0 m = ⟨m, none⟩ := rfl

include hn

theorem shiftByReg_lsl : (shiftByReg .lsl n m).value.toNat = m.toNat * 2 ^ n % 2 ^ 32 ∧
    (shiftByReg .lsl n m).carry = some (decide (n ≤ 32) && m.getLsbD (32 - n)) := by
  rw [shiftByReg, if_neg hn.ne']
  rcases Nat.lt_trichotomy n 32 with h | rfl | h
  · simp [h, h.le, lsl32_eq_ofNat, bit]
  · simp [bit]
  · rw [mul_two_pow_mod m n h.le]
    simp [h.not_gt, h.ne', h.not_ge]

theorem shiftByReg_lsr : (shiftByReg .lsr n m).value.toNat = m.toNat / 2 ^ n ∧
    (shiftByReg .lsr n m).carry = some (m.getLsbD (n - 1)) := by
  rw [shiftByReg, if_neg hn.ne']
  rcases Nat.lt_trichotomy n 32 with h | rfl | h
  · simp [h, lsr32, Nat.shiftRight_eq_div_pow, bit]
  · rw [div_two_pow_zero m 32 le_rfl]
    simp [Word.msb_eq]
  · simp [h.not_gt, h.ne', div_two_pow_zero m n h.le, BitVec.getLsbD_of_ge m (n - 1) (by omega)]

theorem shiftByReg_asr : (shiftByReg .asr n m).value.toInt = m.toInt / 2 ^ n ∧
    (shiftByReg .asr n m).carry = some (m.getLsbD (min (n - 1) 31)) := by
  rw [shiftByReg, if_neg hn.ne']
  by_cases h : n < 32
  · have hmin : min (n - 1) 31 = n - 1 := by omega
    simp [h, hmin, asr32, BitVec.toInt_sshiftRight, Int.shiftRight_eq_div_pow, bit]
  · have hmin : min (n - 1) 31 = 31 := by omega
    simp [h, hmin, signFill_toInt m n (by omega), Word.msb_eq]

omit hn in
theorem shiftByReg_ror (hn : 0 < n) : (shiftByReg .ror n m).value = m.rotateRight n ∧
    (shiftByReg .ror n m).carry = some (m.rotateRight n).msb := by
  rw [shiftByReg, if_neg hn.ne', msb_rotateRight]
  by_cases h : n % 32 = 0
  · simp [h, rotateRight_of_mod m n h]
  · simp [h, ror32_eq, bit]

end

/-- Settles O19: one lemma for each shift type, in each the amounts below, at and above 32 apart. -/
theorem shiftByRegister : Obligations.ShiftByRegister := fun m _ _ =>
  ⟨fun type h => h ▸ shiftByReg_zero m type, shiftByReg_lsl m, shiftByReg_lsr m, shiftByReg_asr m, shiftByReg_ror m⟩

/-- Settles O21: the rotation is BitVec's. -/
theorem rotatedImmediate : Obligations.RotatedImmediate := by
  intro rot imm8
  simp only [rotatedImm, ror32_eq, and_self]

/-! ## Data processing with destination R15 (42 R205, R206) -/

/-- A form that writes a register runs the template on some operation, which keeps the mode and T. -/
theorem State.dataForms_exec {s : State} (h : s.inside = []) {rn : Reg} {op2 : Operand2} {f : DataForm}
    (hf : f ∈ s.logicalForms rn op2 ++ s.arithForms rn op2) :
    ∃ op, (∀ sf rd, exec (f.instr sf rd) s = s.dataProcess sf rd op2 op) ∧
      op (s.beforeOperands op2) (s.shifted op2) = ⟨f.result, f.flags⟩ ∧
      f.flags.mode = s.cpsr.mode ∧ f.flags.t = s.cpsr.t := by
  rcases List.mem_append.mp hf with hf | hf
  · obtain ⟨g, hexec, hresult, hflags⟩ := State.logicalForms_exec hf
    refine ⟨logicalOperation rn g, hexec, ?_, by rw [hflags]; rfl, by rw [hflags]; rfl⟩
    rw [hflags]
    exact logicalOperation_beforeOperands h hresult
  · obtain ⟨g, hexec, hout⟩ := State.arithForms_exec hf
    exact ⟨arithOperation rn g, hexec, (arithOperation_beforeOperands h op2 rn g).trans hout,
      congrArg (fun out => out.cpsr.mode) hout.symm, congrArg (fun out => out.cpsr.t) hout.symm⟩

theorem branchMask_false : branchMask false = 0xFFFFFFFC#32 := rfl

/-- Settles O25: the template's branch, masked for T = 0. -/
theorem dataToPcBranches : Obligations.DataToPcBranches := by
  intro s rn op2 h ht f hf
  obtain ⟨op, hexec, hout, -, -⟩ := State.dataForms_exec h hf
  obtain ⟨t, hnext, hpost⟩ := State.dataProcess_branch h hout
  rw [ht, branchMask_false] at hpost
  exact ⟨t, (hexec false 15).trans hnext, hpost⟩

/-- Settles O26: the template's return, in its three outcomes. -/
theorem dataReturnRestores : Obligations.DataReturnRestores := by
  intro s rn op2 h f hf
  obtain ⟨op, hexec, hout, hmode, ht⟩ := State.dataForms_exec h hf
  have hreturn := State.dataProcess_return h hout hmode ht
  simp only [Completes, hexec]
  exact hreturn

/-! ## Multiplies (43 R230 to R238) -/

/-- MUL and MLA end alike, whether or not they make the multiplier call. -/
theorem State.multiply_exec {s : State} (h : s.inside = []) (sf : Bool) (rd rn rs rm : Reg) {f : Instr × Word}
    (hf : f ∈ [(Instr.mul sf rd rs rm, if rd = rm then 0#32 else BitVec.ofNat 32 ((s.reg rm).toNat * (s.reg rs).toNat)),
      (Instr.mla sf rd rn rs rm, if rd = rm then s.params.mlaResult (s.reg rn)
        else BitVec.ofNat 32 ((s.reg rm).toNat * (s.reg rs).toNat) + s.reg rn)]) :
    ∃ s', Still s s' ∧ exec f.1 s = .next (s'.finishMul sf rd f.2) := by
  simp only [List.mem_cons, List.not_mem_nil, or_false] at hf
  by_cases halias : rd = rm
  · obtain rfl | rfl := hf
    · exact ⟨s, .refl s, by simp [exec, execMul, halias]⟩
    · exact ⟨s, .refl s, by simp [exec, execMla, halias]⟩
  · obtain rfl | rfl := hf
    · exact ⟨_, Still.multiplier h (mulCyclesSigned (s.reg rs)), by simp [exec, execMul, halias, mul32]⟩
    · exact ⟨_, Still.multiplier h (mulCyclesSigned (s.reg rs) + 1), by simp [exec, execMla, halias, mul32]⟩

/-- Settles O27: the end of MUL and MLA at a register. -/
theorem multiplyToRegister : Obligations.MultiplyToRegister := by
  intro s sf rd rn rs rm h hrd product f hf
  obtain ⟨s', hs, hexec⟩ := State.multiply_exec h sf rd rn rs rm hf
  obtain ⟨hreg, -, hcpsr, hframe, hstore⟩ := State.finishMul_next hs sf rd f.2
  exact ⟨_, hexec, (hreg hrd).1, hcpsr, (hreg hrd).2, hframe, hstore⟩

/-- The accumulator as a number. -/
theorem State.accumulator_eq (s : State) (hi lo : Reg) :
    s.accumulator hi lo = BitVec.ofNat 64 ((s.reg hi).toNat * 2 ^ 32 + (s.reg lo).toNat) := by
  rw [State.accumulator, ← BitVec.toNat_inj, BitVec.toNat_append, Nat.shiftLeft_eq, mul_comm (s.reg hi).toNat,
    ← Nat.two_pow_add_eq_or_of_lt (s.reg lo).isLt, BitVec.toNat_ofNat, Nat.mod_eq_of_lt]
  have hhi := (s.reg hi).isLt
  have hlo := (s.reg lo).isLt
  omega

/-- Each long multiply is the shared sequence on its 64-bit value. -/
theorem State.longForms_exec {s : State} {sf : Bool} {hi lo rs rm : Reg} {f : Instr × BitVec 64}
    (hf : f ∈ s.longForms sf hi lo rs rm) : ∃ m, exec f.1 s = .next (s.finishLong sf hi lo f.2 m) := by
  simp only [State.longForms, List.mem_cons, List.not_mem_nil, or_false] at hf
  obtain rfl | rfl | rfl | rfl := hf
  · exact ⟨_, rfl⟩
  · refine ⟨mulCyclesUnsigned (s.reg rs) + 2, ?_⟩
    rw [BitVec.ofNat_add, ← State.accumulator_eq]
    rfl
  · exact ⟨_, rfl⟩
  · refine ⟨mulCyclesSigned (s.reg rs) + 2, ?_⟩
    rw [BitVec.ofInt_add, BitVec.ofInt_natCast, ← State.accumulator_eq]
    rfl

/-- Settles O28: the end of a long multiply at a register. -/
theorem longMultiplyToRegisters : Obligations.LongMultiplyToRegisters := by
  intro s sf rdHi rdLo rs rm h hrd f hf
  obtain ⟨m, hexec⟩ := State.longForms_exec hf
  obtain ⟨hhigh, -, hlow, hcpsr, hframe, hstore⟩ := State.finishLong_next h sf rdHi rdLo f.2 m
  exact ⟨_, hexec, (hhigh hrd).1, hlow, hcpsr, (hhigh hrd).2, hframe, hstore⟩

/-- Settles O29: both ends at R15, where nothing is named. -/
theorem multiplyToPcBranches : Obligations.MultiplyToPcBranches := by
  intro s sf rdLo rn rs rm h ht product
  refine ⟨fun f hf => ?_, fun f hf => ?_⟩
  · obtain ⟨s', hs, hexec⟩ := State.multiply_exec h sf 15 rn rs rm (f := f) (by simpa only [eq_comm] using hf)
    obtain ⟨-, hbranch, hcpsr, hframe, hstore⟩ := State.finishMul_next hs sf 15 f.2
    rw [State.named_fifteen] at hframe
    rw [ht, branchMask_false] at hbranch
    exact ⟨_, hexec, hbranch rfl, hcpsr, hframe, hstore⟩
  · obtain ⟨m, hexec⟩ := State.longForms_exec hf
    obtain ⟨-, hbranch, hlow, hcpsr, hframe, hstore⟩ := State.finishLong_next h sf 15 rdLo f.2 m
    rw [State.named_fifteen, List.nil_append] at hframe
    rw [ht, branchMask_false] at hbranch
    exact ⟨_, hexec, hbranch rfl, fun hlo => hlow hlo hlo, hcpsr, hframe, hstore⟩

end Sys2Proof.Machine
end

section
/-! PROOFS. The single transfers and the swaps (44_single_transfer.md R251 to R270; 48_swap.md R350 to R352; 20_memory.md R64 to
R67; 21_waitstate.md R93, R94, R105). -/

namespace Sys2Proof.Machine

/-! ## Addresses (44 R251 to R254) -/

theorem effective_eq (p u w : Bool) (base off : Word) :
    effective p u w base off =
      ⟨if p then (if u then base + off else base - off) else base,
        if p && !w then none else some (if u then base + off else base - off)⟩ := by
  cases p <;> cases w <;> rfl

/-- Settles O30: one equation for the address, at each offset form. -/
theorem effectiveAddress : Obligations.EffectiveAddress := by
  intro s p u w rn rm imm12 imm8 ea
  have hoff : ∀ off, effective p u w (s.reg rn) off = ea off := effective_eq p u w (s.reg rn)
  refine ⟨?_, fun type amount => ?_, ?_, ?_⟩
  · rw [State.wordAddress, hoff, State.wordOffset, BitVec.ofNat_toNat]
  · exact hoff _
  · rw [State.halfAddress, hoff, State.halfOffset, BitVec.ofNat_toNat]
  · exact hoff _

/-! ## Reads (20 R64 to R66) -/

/-- A read that leaves all but the controller, the calls and the draws, and gives `v`. -/
structure Reads (s : State) (r : Word × State) (v : Word) : Prop where
  still : Still s r.2
  value : r.1 = v

theorem Word.low2 (a : Word) : (a.extractLsb' 0 2).toNat = a.toNat % 4 := by
  simp

theorem Word.odd_iff (a : Word) : a.getLsbD 0 = true ↔ a.toNat % 2 = 1 := by
  simp [BitVec.getLsbD]

theorem align2_of_even {a : Word} (h : ¬ a.toNat % 2 = 1) : align2 a = a := by
  have hlow : a.setWidth 1 = 0 := by
    rw [← BitVec.toNat_inj, BitVec.toNat_setWidth]
    exact Nat.mod_two_ne_one.mp h
  exact (masked_iff (k := 1) (m := 0xFFFFFFFE#32) (by decide) (by decide) a).mpr hlow

/-- The low bits of a zero-extended value are the value. -/
theorem low_setWidth {k : Nat} (hk : k ≤ 32) (x : BitVec k) : (x.setWidth 32).extractLsb' 0 k = x := by
  ext i hi
  simp [show i < 32 by omega, BitVec.getLsbD_eq_getElem hi]

section
variable {s : State} (h : s.inside = [])
include h

theorem readWord_reads (attr : BusAttr) (a : Word) : Reads s.nonSeq (readWord attr s.nonSeq a) (s.rotatedWord a) := by
  have hq := (Still.nonSeq h).quiet h
  refine ⟨Still.memRead32 hq _ attr, ?_⟩
  rw [readWord, State.memRead32_quiet hq, (State.peek_nonSeq h _).2.2.2, ror32_eq, Word.low2]
  rfl

theorem readByte_reads (attr : BusAttr) (a : Word) : Reads s.nonSeq (readByte attr s.nonSeq a) (s.peek8 a) := by
  have hq := (Still.nonSeq h).quiet h
  refine ⟨Still.memRead8 hq a attr, ?_⟩
  rw [readByte, State.memRead8_quiet hq, (State.peek_nonSeq h _).2.1]

theorem readHalf_reads (a : Word) : Reads s.nonSeq (readHalf s.nonSeq a)
    (if a.toNat % 2 = 1 then (s.peek16 (align2 a)).rotateRight 8 else s.peek16 a) := by
  have hq := (Still.nonSeq h).quiet h
  refine ⟨Still.memRead16 hq _ _, ?_⟩
  rw [readHalf, State.memRead16_quiet hq, (State.peek_nonSeq h _).2.2.1, ror32_eq]
  simp only [Word.odd_iff]
  split
  · rfl
  · next heven => rw [align2_of_even heven]

theorem readSignedByte_reads (a : Word) : Reads s.nonSeq (readSignedByte s.nonSeq a) ((s.byteAt a).signExtend 32) := by
  have hq := (Still.nonSeq h).quiet h
  refine ⟨Still.memRead8 hq a _, ?_⟩
  rw [readSignedByte, State.memRead8_quiet hq, (State.peek_nonSeq h _).2.1, State.peek8, low_setWidth (by decide)]

theorem readSignedHalf_reads (a : Word) : Reads s.nonSeq (readSignedHalf s.nonSeq a)
    (if a.toNat % 2 = 1 then (s.byteAt a).signExtend 32 else (s.byteAt (a + 1#32) ++ s.byteAt a).signExtend 32) := by
  rw [readSignedHalf]
  by_cases hodd : a.toNat % 2 = 1
  · rw [if_pos ((Word.odd_iff a).mpr hodd), if_pos hodd]
    exact readSignedByte_reads h a
  · rw [if_neg (mt (Word.odd_iff a).mp hodd), if_neg hodd]
    have hq := (Still.nonSeq h).quiet h
    refine ⟨Still.memRead16 hq a _, ?_⟩
    rw [State.memRead16_quiet hq, (State.peek_nonSeq h _).2.2.1, State.peek16]
    exact congrArg (·.signExtend 32) (low_setWidth (k := 16) (by decide) _)

/-- Each load runs the load sequence on a read of its value. -/
theorem State.loads_exec {p u w : Bool} {rn : Reg} {off : WordOffset} {half : HalfOffset} {f : TransferForm}
    (hf : f ∈ s.wordLoads p u w rn off ++ s.halfLoads p u w rn half) :
    ∃ read, (∀ rd, exec (f.instr rd) s = s.load f.address rn rd read) ∧
      Reads s.nonSeq (read s.nonSeq f.address.addr) f.value := by
  simp only [State.wordLoads, State.halfLoads, List.cons_append, List.nil_append, List.mem_cons, List.not_mem_nil,
    or_false] at hf
  obtain rfl | rfl | rfl | rfl | rfl | rfl | rfl := hf
  · exact ⟨readWord plainAccess, fun _ => rfl, readWord_reads h ..⟩
  · exact ⟨readByte plainAccess, fun _ => rfl, readByte_reads h ..⟩
  · exact ⟨readWord userAccess, fun _ => rfl, readWord_reads h ..⟩
  · exact ⟨readByte userAccess, fun _ => rfl, readByte_reads h ..⟩
  · exact ⟨readHalf, fun _ => rfl, readHalf_reads h _⟩
  · exact ⟨readSignedByte, fun _ => rfl, readSignedByte_reads h _⟩
  · exact ⟨readSignedHalf, fun _ => rfl, readSignedHalf_reads h _⟩

end

/-- Settles O31: the load sequence at a register. -/
theorem loadsToRegister : Obligations.LoadsToRegister := by
  intro s p u w rn rd off half h hrd f hf hwb
  obtain ⟨read, hexec, hread⟩ := State.loads_exec h hf
  obtain ⟨t, hnext, hcpsr, hreg, -, hbase, hframe, hstore⟩ := State.load_next h f.address rn rd read hread.still hwb
  obtain ⟨hvalue, hfalls⟩ := hreg hrd
  exact ⟨t, (hexec rd).trans hnext, hvalue.trans hread.value, hbase, hcpsr, hfalls, hframe, hstore⟩

/-- Settles O32: the load sequence at R15, which names no register. -/
theorem loadsToPcBranch : Obligations.LoadsToPcBranch := by
  intro s p u w rn off half h ht f hf hwb
  obtain ⟨read, hexec, hread⟩ := State.loads_exec h hf
  obtain ⟨t, hnext, hcpsr, -, hbranch, hbase, hframe, hstore⟩ := State.load_next h f.address rn 15 read hread.still hwb
  rw [State.named_fifteen, List.nil_append] at hframe
  have hpc := hbranch rfl
  rw [hread.value, ht, branchMask_false] at hpc
  refine ⟨t, (hexec 15).trans hnext, hpc, fun v hv => hbase v hv ?_, hcpsr, hframe, hstore⟩
  rintro rfl
  simp [hwb rfl] at hv

/-! ## Writes (20 R67) -/

/-- Each store runs the store sequence on a write of its bytes. -/
theorem State.stores_exec {s : State} (h : s.inside = []) (hm : s.mem.wf) {p u w : Bool} {rn : Reg} {off : WordOffset}
    {half : HalfOffset} {f : StoreForm} (hf : f ∈ s.stores p u w rn off half) :
    ∃ write, (∀ rd, exec (f.instr rd) s = s.store f.address rn rd write) ∧
      ∀ v, Wrote s.nonSeq (write s.nonSeq f.address.addr v) f.first f.bytes v := by
  have hq := (Still.nonSeq h).quiet h
  have hm' : s.nonSeq.mem.wf := (Still.nonSeq h).mem.symm ▸ hm
  simp only [State.stores, List.mem_cons, List.not_mem_nil, or_false] at hf
  obtain rfl | rfl | rfl | rfl | rfl := hf
  · exact ⟨writeWord plainAccess, fun _ => rfl, fun v => State.memWrite32_wrote hq hm' _ v _⟩
  · exact ⟨writeByte plainAccess, fun _ => rfl, fun v => State.memWrite8_wrote hq hm' _ v _⟩
  · exact ⟨writeWord userAccess, fun _ => rfl, fun v => State.memWrite32_wrote hq hm' _ v _⟩
  · exact ⟨writeByte userAccess, fun _ => rfl, fun v => State.memWrite8_wrote hq hm' _ v _⟩
  · exact ⟨writeHalf, fun _ => rfl, fun v => State.memWrite16_wrote hq hm' _ v _⟩

/-- Settles O33: the store sequence. -/
theorem storesReachTheirBytes : Obligations.StoresReachTheirBytes := by
  intro s p u w rn rd off half h hm f hf hwb
  obtain ⟨write, hexec, hwrote⟩ := State.stores_exec h hm hf
  obtain ⟨t, hnext, hpost⟩ := State.store_next h (e := f.address) (rd := rd) (hwrote (s.storeValue rd)) hwb
  rw [State.storeValue_eq] at hpost
  exact ⟨t, (hexec rd).trans hnext, hpost⟩

/-! ## The wait-control store (21 R93, R94, R105) -/

theorem State.pokeByte_waitControl (s : State) (b : Byte) :
    s.pokeByte s.params.waitControl b =
      s.clock fun ws => ws.setControl s.params (ws.wcnt.extractLsb' 8 8 ++ b) := if_pos rfl

theorem State.pokeByte_waitControl_high {s : State} {p : Params} (h : p = s.params) (b : Byte) :
    s.pokeByte (p.waitControl + 1#32) b =
      s.clock fun ws => ws.setControl s.params (b ++ ws.wcnt.extractLsb' 0 8) := by
  have hnext : s.params.waitControl + 1#32 ≠ s.params.waitControl := by bv_omega
  rw [h, State.pokeByte, if_neg hnext, if_pos rfl]

/-- The two bytes of a halfword stored there set the control value one after the other. -/
theorem State.poke16_waitControl (s : State) (v : Word) :
    s.poke16 s.params.waitControl v = s.clock fun ws =>
      (ws.setControl s.params (ws.wcnt.extractLsb' 8 8 ++ v.extractLsb' 0 8)).setControl s.params (v.extractLsb' 0 16) := by
  have hlow : (s.ws.wcnt.extractLsb' 8 8 ++ v.extractLsb' 0 8).extractLsb' 0 8 = v.extractLsb' 0 8 := by
    rw [bits_append_low _ _ (by decide), BitVec.extractLsb'_eq_self]
  have hhalf : v.extractLsb' 8 8 ++ v.extractLsb' 0 8 = v.extractLsb' 0 16 :=
    BitVec.extractLsb'_append_extractLsb'_eq_extractLsb' rfl
  rw [State.poke16, State.pokeByte_waitControl, State.pokeByte_waitControl_high (State.clock_params ..).symm]
  simp only [State.clock, WaitState.setControl_wcnt, hlow, hhalf]

/-- A write that turns the prefetch buffer on or off empties it (R105). -/
theorem WaitState.setControl_flushes {ws : WaitState} {p : Params} {v : BitVec 16} (h : v.getLsbD 14 ≠ ws.prefetchEn) :
    (ws.setControl p v).buffer = 0 ∧ (ws.setControl p v).clocks = 0 := by
  simp only [WaitState.setControl, if_neg h]
  exact ⟨rfl, rfl⟩

/-- A store of a halfword there is, between accesses that only the controller sees, the setting of the control value. -/
theorem State.strh_waitControl {s : State} (h : s.inside = []) {p u w : Bool} {rn rd : Reg} {half : HalfOffset}
    (hrd : rd ≠ 15) (hrn : rn ≠ 15) (haddr : align2 (s.halfAddress p u w rn half).addr = s.params.waitControl) :
    ∃ t, ∃ ws : WaitState, exec (.strh p u w rn rd half) s = .next t ∧ t.mem = s.mem ∧ ws.wcnt = s.ws.wcnt ∧
      t.ws = ((ws.setControl s.params (ws.wcnt.extractLsb' 8 8 ++ (s.reg rd).extractLsb' 0 8)).setControl s.params
        ((s.reg rd).extractLsb' 0 16)).nonSeq := by
  have hns := Still.nonSeq h
  have hs := hns.trans (Still.noted s.nonSeq (s.nonSeq.dataCost s.params.waitControl false)
    (by simp [State.dataCost]) (.memWrite s.params.waitControl 2 (s.reg rd &&& 0xFFFF#32) plainAccess))
  have hvalue : s.storeValue rd = s.reg rd := if_neg hrd
  have hexec : exec (.strh p u w rn rd half) s =
      .next ((writeHalf s.nonSeq (s.halfAddress p u w rn half).addr (s.storeValue rd)).nonSeq.writeBack rn
        (s.halfAddress p u w rn half).writeback).advancePC := if_neg fun hpc => hrn hpc.1
  rw [hvalue, writeHalf, haddr, State.memWrite16_quiet (hns.quiet h)] at hexec
  generalize ((s.nonSeq.clock _).note _) = s1 at hs hexec
  rw [← hs.params, State.poke16_waitControl, State.nonSeq_quiet (by exact hs.quiet h)] at hexec
  refine ⟨_, s1.ws, hexec, ?_, hs.control, ?_⟩
  · simp [State.writeBack_other, hs.mem]
  · simp [State.writeBack_other, hs.params]

/-- Settles O34: of the two bytes the first keeps the prefetch bit, so that the second empties the buffer if it changes. -/
theorem waitControlStore : Obligations.WaitControlStore := by
  intro s p u w rn rd half h hrd hrn _ haddr
  obtain ⟨t, ws, hexec, hmem, hwcnt, hws⟩ := State.strh_waitControl h hrd hrn haddr
  refine ⟨t, hexec, ?_⟩
  beta_reduce
  rw [hws]
  refine ⟨rfl, ?_, hmem, fun hbit => WaitState.setControl_flushes (p := s.params) ?_⟩
  · exact (WaitState.Kept.nonSeq (cap := 0) _).configured (WaitState.setControl_configured ..)
  · have hfirst : (ws.wcnt.extractLsb' 8 8 ++ (s.reg rd).extractLsb' 0 8).getLsbD 14 = s.ws.wcnt.getLsbD 14 := by
      rw [BitVec.getLsbD_append, if_neg (by decide), BitVec.getLsbD_extractLsb', hwcnt]
      rfl
    have hsecond : ((s.reg rd).extractLsb' 0 16).getLsbD 14 = (s.reg rd).getLsbD 14 := by simp
    rw [hsecond]
    exact fun heq => hbit (heq.trans hfirst)

/-! ## Swaps (48 R350 to R352) -/

/-- Both swaps run the swap sequence on a read and a write of their width. -/
theorem State.swaps_exec {s : State} (h : s.inside = []) (hm : s.mem.wf) {rn rd rm : Reg}
    {f : Instr × Word × Word × Nat}
    (hf : f ∈ [(Instr.swp rn rd rm, s.rotatedWord (s.reg rn), align4 (s.reg rn), 4),
      (Instr.swpb rn rd rm, s.peek8 (s.reg rn), s.reg rn, 1)]) :
    ∃ read write, exec f.1 s = .next (s.swap rn rd rm read write) ∧
      Reads s.nonSeq (read s.nonSeq (s.reg rn)) f.2.1 ∧
      Wrote (read s.nonSeq (s.reg rn)).2 (write (read s.nonSeq (s.reg rn)).2 (s.reg rn) (s.reg rm)) f.2.2.1 f.2.2.2
        (s.reg rm) := by
  have hwrites : ∀ {t}, Still s.nonSeq t → t.inside = [] ∧ t.mem.wf := fun ht =>
    have hs := (Still.nonSeq h).trans ht
    ⟨hs.quiet h, hs.mem.symm ▸ hm⟩
  simp only [List.mem_cons, List.not_mem_nil, or_false] at hf
  obtain rfl | rfl := hf
  · have hread := readWord_reads h s.swapAccess (s.reg rn)
    obtain ⟨hq, hwf⟩ := hwrites hread.still
    exact ⟨readWord s.swapAccess, writeWord s.swapAccess, rfl, hread, State.memWrite32_wrote hq hwf ..⟩
  · have hread := readByte_reads h s.swapAccess (s.reg rn)
    obtain ⟨hq, hwf⟩ := hwrites hread.still
    exact ⟨readByte s.swapAccess, writeByte s.swapAccess, rfl, hread, State.memWrite8_wrote hq hwf ..⟩

/-- Settles O35: the swap sequence at a register. -/
theorem swapsExchange : Obligations.SwapsExchange := by
  intro s rn rd rm h hrd hm f hf
  obtain ⟨read, write, hexec, hread, hwrote⟩ := State.swaps_exec h hm hf
  obtain ⟨hreg, -, hstored, hcpsr, hframe⟩ := State.swap_next h (rd := rd) hread.still hwrote
  obtain ⟨hvalue, hfalls⟩ := hreg hrd
  exact ⟨_, hexec, hvalue.trans hread.value, hstored, hcpsr, hfalls, hframe⟩

/-- Settles O36: the swap sequence at R15, which names no register. -/
theorem swapsToPcBranch : Obligations.SwapsToPcBranch := by
  intro s rn rm h ht hm f hf
  obtain ⟨read, write, hexec, hread, hwrote⟩ := State.swaps_exec h hm hf
  obtain ⟨-, hbranch, hstored, hcpsr, hframe⟩ := State.swap_next h (rd := 15) hread.still hwrote
  have hpc := hbranch rfl
  rw [hread.value, ht, branchMask_false] at hpc
  rw [State.named_fifteen] at hframe
  exact ⟨_, hexec, hpc, hstored, hcpsr, hframe⟩

end Sys2Proof.Machine
end

section
/-! PROOFS. The transfers that write back to R15, the branches, the status transfers and the exceptions (44 R271, 45 R305;
46_branch.md R320 to R322; 47_status_transfer.md R330 to R337; 49_swi_undefined.md R360, R361; 60_exceptions.md R375, R376). -/

namespace Sys2Proof.Machine

/-! ## Writeback to R15 (44 R271, 45 R305) -/

theorem effective_writeback_isSome (p u w : Bool) (base off : Word) :
    (effective p u w base off).writeback.isSome = (!p || w) := by
  cases p <;> cases w <;> rfl

/-- Settles O44: each transfer sequence begins with the test. -/
theorem writebackToPcRefused : Obligations.WritebackToPcRefused := by
  intro i s hi
  cases i
  case str | ldr | strb | ldrb | strh | ldrh | ldrsb | ldrsh =>
    obtain ⟨hrn, hwb⟩ := Bool.and_eq_true_iff.mp hi
    exact if_pos ⟨eq_of_beq hrn, (effective_writeback_isSome ..).trans hwb⟩
  case strt | ldrt | strbt | ldrbt => exact if_pos ⟨eq_of_beq hi, rfl⟩
  case stm | ldm | stmUser | ldmUser =>
    obtain ⟨hrn, hw⟩ := Bool.and_eq_true_iff.mp hi
    exact if_pos ⟨eq_of_beq hrn, hw⟩
  all_goals cases hi

/-! ## Branches (46 R320 to R322) -/

/-- Four times the signed displacement. -/
theorem State.branchTarget_eq (s : State) (imm24 : BitVec 24) :
    s.branchTarget imm24 = s.r15 + BitVec.ofInt 32 (4 * imm24.toInt) := by
  rw [State.branchTarget, BitVec.shiftLeft_eq_mul_twoPow, BitVec.ofInt_mul, BitVec.mul_comm]
  rfl

/-- A multiple of 4 added to an aligned address. -/
theorem Word.aligned_add {a d : Word} (ha : a &&& 3#32 = 0#32) (hd : d.setWidth 2 = 0#2) :
    (a + d) &&& branchMask false = a + d := by
  have hlow := congrArg (·.setWidth 2) ha
  rw [BitVec.setWidth_and, show (3#32).setWidth 2 = BitVec.allOnes 2 from rfl, BitVec.and_allOnes] at hlow
  refine (masked_iff (k := 2) (by decide) (by decide) _).mpr ?_
  rw [BitVec.setWidth_add _ _ (by decide), hlow, hd]
  rfl

theorem State.branchTarget_aligned {s : State} (h : s.r15 &&& 3#32 = 0#32) (imm24 : BitVec 24) :
    s.branchTarget imm24 &&& branchMask false = s.branchTarget imm24 := by
  refine Word.aligned_add h (BitVec.eq_of_getLsbD_eq fun i hi => ?_)
  rw [BitVec.getLsbD_setWidth, BitVec.getLsbD_shiftLeft]
  simp [hi]

/-- What a branch leaves of the state. -/
theorem NoStore.branch (s : State) (a : Word) : NoStore s (s.branch a) := ⟨fun _ => rfl, rfl⟩

/-- Settles O45: the target is aligned, as R15 and the displacement are. -/
theorem branchesReachTheirTarget : Obligations.BranchesReachTheirTarget := by
  intro s imm24 ht hpc target
  have htarget : s.branchTarget imm24 &&& branchMask s.cpsr.t = target := by
    rw [ht, State.branchTarget_aligned hpc, State.branchTarget_eq]
  refine ⟨⟨_, rfl, ⟨htarget, rfl⟩, rfl, Frame.branch .., NoStore.branch ..⟩, ?_⟩
  have h14 : (14 : Reg) ≠ 15 := by decide
  refine ⟨(s.setReg 14 (s.r15 - 4#32)).branch (s.branchTarget imm24), rfl, ⟨by simpa using htarget, rfl⟩, ?_,
    by simp, ?_, by simp, by simp⟩
  · rw [State.reg_congr' (s := s.setReg 14 (s.r15 - 4#32)) (by simp) (by simp) h14, State.reg_setReg _ _ _ _ h14, if_pos rfl]
  · exact (Frame.setReg ..).trans (Frame.nil (Frame.branch ..))

/-- Settles O46: BX is a write of T and a branch. -/
theorem branchAndExchange : Obligations.BranchAndExchange := by
  intro s rm
  refine ⟨_, rfl, rfl, ⟨?_, rfl⟩, Frame.setCpsr_branch .., fun _ => rfl, rfl⟩
  rw [State.branch_r15, State.setCpsr_cpsr]
  cases (s.reg rm).getLsbD 0 <;> rfl

/-! ## Status words (10 R26, R31) -/

/-- A status word holds the implemented bits of the word it is made from. -/
theorem Spsr.toWord_ofWord (w : Word) : (Spsr.ofWord w).toWord = w &&& 0xF00000FF#32 := by
  refine BitVec.eq_of_getLsbD_eq fun i hi => ?_
  simp only [Spsr.ofWord, Spsr.toWord, bit, bits, BitVec.getLsbD_append, BitVec.getLsbD_and, BitVec.getLsbD_extractLsb']
  interval_cases i <;> simp [flag]

theorem Spsr.ofWord_toWord (p : Spsr) : Spsr.ofWord p.toWord = p := by
  simp (disch := decide) only [Spsr.ofWord, Spsr.toWord, bit, bits, bits_append_low, bit_append_low, bit_append_high,
    Nat.reduceSub, flag_bit, BitVec.extractLsb'_eq_self]

theorem Cpsr.toWord_eq (p : Cpsr) : p.toWord = p.save.toWord := rfl

/-- A word with the implemented bits alone is the status word its fields are of. -/
theorem Spsr.toWord_eq {p : Spsr} {w : Word} (h : Spsr.ofWord w = p) (hw : w &&& 0xF00000FF#32 = w) : p.toWord = w := by
  rw [← h, Spsr.toWord_ofWord, hw]

theorem Spsr.toWord_implemented (p : Spsr) : p.toWord &&& 0xF00000FF#32 = p.toWord := by
  rw [← Spsr.toWord_ofWord, Spsr.ofWord_toWord]

/-- The bits of a status word (R26, R31). -/
theorem Spsr.toWord_bits (p : Spsr) :
    p.toWord.getLsbD 31 = p.n ∧ p.toWord.getLsbD 30 = p.z ∧ p.toWord.getLsbD 29 = p.c ∧ p.toWord.getLsbD 28 = p.v ∧
      p.toWord.extractLsb' 8 20 = 0#20 ∧ p.toWord.getLsbD 7 = p.i ∧ p.toWord.getLsbD 6 = p.f ∧
      p.toWord.getLsbD 5 = p.t ∧ p.toWord.extractLsb' 0 5 = p.m := by
  simp (disch := decide) only [Spsr.toWord, bits_append_low, bits_append_high, bit_append_low, bit_append_high,
    Nat.reduceSub, flag_bit, BitVec.extractLsb'_eq_self, and_self]

/-! ## MRS (47 R331, R332) -/

/-- The saved status word MRS reads: that of the mode, or CPSR where it has none. -/
def State.savedStatus (s : State) : Spsr :=
  match s.cpsr.mode.banked with
  | some b => s.spsrOf b
  | none => s.cpsr.save

theorem State.spsrWord_eq (s : State) : s.spsrWord = s.savedStatus.toWord := by
  unfold State.spsrWord State.savedStatus
  cases s.cpsr.mode.banked <;> rfl

/-- A guarded write to a register other than R15. -/
theorem State.guardedWrite_effect (s : State) {rd : Reg} (h : rd ≠ 15) (v : Word) :
    (s.guardedWrite rd v).reg rd = v ∧ (s.guardedWrite rd v).cpsr = s.cpsr ∧ FallsThrough s (s.guardedWrite rd v) ∧
      Frame s (s.guardedWrite rd v) (s.named rd) ∧ NoStore s (s.guardedWrite rd v) :=
  ⟨State.guardedWrite_reg s h v, State.guardedWrite_cpsr .., State.guardedWrite_falls s h v, Frame.guardedWrite ..,
    fun _ => by rw [State.guardedWrite_mem], State.guardedWrite_wcnt ..⟩

/-- Settles O47: a guarded write of a status word. -/
theorem statusRead : Obligations.StatusRead := by
  intro s rd hrd Reads
  have hreads : ∀ (i : Instr) (p : Spsr), exec i s = .next (s.guardedWrite rd p.toWord) → Reads i p := fun i p hexec => by
    obtain ⟨hreg, hpost⟩ := s.guardedWrite_effect hrd p.toWord
    exact ⟨_, hexec, by rw [hreg]; exact p.toWord_bits, hpost⟩
  exact ⟨hreads _ _ rfl, hreads _ s.savedStatus (by rw [← State.spsrWord_eq]; rfl)⟩

/-- Settles O48: a guarded write at R15 branches. -/
theorem statusReadToPc : Obligations.StatusReadToPc := by
  intro s ht Branches
  have hbranches : ∀ (i : Instr) (w : Word), exec i s = .next (s.branch w) → Branches i w := fun i w hexec =>
    ⟨_, hexec, ⟨by rw [State.branch_r15, ht]; rfl, rfl⟩, rfl, Frame.branch .., NoStore.branch ..⟩
  refine ⟨hbranches _ _ rfl, hbranches _ _ ?_⟩
  show exec _ s = .next (s.branch s.spsrWord)
  rfl

/-! ## MSR to CPSR (47 R333, R334) -/

theorem Mode.privileged_iff {m : Mode} : m.privileged = true ↔ m ≠ .user := by cases m <;> decide

/-- What MSR makes of the old CPSR (R333). -/
structure MsrEffect (old : Cpsr) (mask : BitVec 4) (op : Word) (p : Cpsr) : Prop where
  flags : if mask.getLsbD 3 then p.n = op.getLsbD 31 ∧ p.z = op.getLsbD 30 ∧ p.c = op.getLsbD 29 ∧ p.v = op.getLsbD 28
    else p.n = old.n ∧ p.z = old.z ∧ p.c = old.c ∧ p.v = old.v
  control : mask.getLsbD 0 = true ∧ old.mode ≠ .user →
    p.i = op.getLsbD 7 ∧ p.f = op.getLsbD 6 ∧ p.mode.code = op.extractLsb' 0 5
  kept : ¬ (mask.getLsbD 0 = true ∧ old.mode ≠ .user) → p.i = old.i ∧ p.f = old.f ∧ p.mode = old.mode
  t : p.t = old.t

theorem State.msrCpsr_next {s : State} {mask : BitVec 4} {op : Word}
    (h : mask.getLsbD 0 = true ∧ s.cpsr.mode ≠ .user → legalMode (op.extractLsb' 0 5) = true) :
    ∃ p, s.msrCpsr mask op = .next (s.setCpsr p).advancePC ∧ MsrEffect s.cpsr mask op p := by
  have hcontrol : (maskC mask && s.cpsr.mode.privileged) = true ↔ mask.getLsbD 0 = true ∧ s.cpsr.mode ≠ .user := by
    rw [Bool.and_eq_true, Mode.privileged_iff, maskC]
  unfold State.msrCpsr
  by_cases hc : mask.getLsbD 0 = true ∧ s.cpsr.mode ≠ .user
  · obtain ⟨m, hm⟩ := Option.isSome_iff_exists.mp (h hc)
    have hcode := Mode.code_of_ofCode hm
    rw [if_pos (hcontrol.mpr hc)]
    simp only [bits, hm]
    refine ⟨_, rfl, ?_, fun _ => ⟨rfl, rfl, hcode⟩, fun hn => absurd hc hn, ?_⟩
    · unfold maskF; split <;> simp [bit]
    · split <;> rfl
  · rw [if_neg (mt hcontrol.mp hc)]
    refine ⟨_, rfl, ?_, fun hp => absurd hp hc, fun _ => ?_, ?_⟩
    · unfold maskF; split <;> simp [bit]
    · split <;> exact ⟨rfl, rfl, rfl⟩
    · split <;> rfl

theorem rotatedImm_value (rot : BitVec 4) (imm8 : Byte) :
    (rotatedImm rot imm8).value = (imm8.setWidth 32).rotateRight (2 * rot.toNat) := ror32_eq ..

theorem Frame.setCpsr_advancePC (s : State) (p : Cpsr) : Frame s (s.setCpsr p).advancePC [] :=
  .of_eq (by simp) (by simp) (by simp) (by simp) (by simp)

/-- Settles O49: both forms run one sequence on their operand. -/
theorem statusWrite : Obligations.StatusWrite := by
  intro s mask rot rm imm8 f hf control hlegal
  have hexec : exec f.1 s = s.msrCpsr mask f.2 := by
    simp only [List.mem_cons, List.not_mem_nil, or_false] at hf
    obtain rfl | rfl := hf
    · rfl
    · rw [← rotatedImm_value]; rfl
  obtain ⟨p, hnext, heffect⟩ := State.msrCpsr_next hlegal
  exact ⟨_, hexec.trans hnext, heffect.flags, heffect.control, heffect.kept, heffect.t, ⟨rfl, rfl⟩,
    Frame.setCpsr_advancePC .., fun _ => rfl, rfl⟩

/-! ## MSR to SPSR (47 R335) -/

/-- The bits a field mask selects in an SPSR. -/
def fieldBits (mask : BitVec 4) : Word :=
  (if mask.getLsbD 3 then 0xF0000000#32 else 0#32) ||| (if mask.getLsbD 0 then 0x000000FF#32 else 0#32)

theorem fieldBits_implemented (mask : BitVec 4) : fieldBits mask &&& 0xF00000FF#32 = fieldBits mask := by
  unfold fieldBits
  split_ifs <;> rfl

theorem and_thirtyOne (x : BitVec 5) : x &&& 31#5 = x := BitVec.and_allOnes

/-- The selected fields are the operand's, the others stay (R335). -/
theorem Spsr.withFields_ofWord (w op : Word) (mask : BitVec 4) :
    (Spsr.ofWord w).withFields mask op = Spsr.ofWord ((w &&& ~~~fieldBits mask) ||| (op &&& fieldBits mask)) := by
  unfold Spsr.withFields fieldBits maskF maskC
  cases mask.getLsbD 3 <;> cases mask.getLsbD 0 <;>
    simp [Spsr.ofWord, bit, bits, BitVec.extractLsb'_or, BitVec.extractLsb'_and, and_thirtyOne]

theorem Spsr.toWord_withFields (p : Spsr) (mask : BitVec 4) (op : Word) :
    (p.withFields mask op).toWord = (p.toWord &&& ~~~fieldBits mask) ||| (op &&& fieldBits mask) := by
  refine Spsr.toWord_eq (by rw [← Spsr.withFields_ofWord, Spsr.ofWord_toWord]) ?_
  rw [BitVec.and_or_distrib_right, BitVec.and_assoc op, fieldBits_implemented, BitVec.and_assoc, BitVec.and_comm (~~~_),
    ← BitVec.and_assoc, Spsr.toWord_implemented]

theorem State.advancePC_spsrOf (s : State) (b : Banked) : s.advancePC.spsrOf b = s.spsrOf b := by cases b <;> rfl

theorem State.setCpsr_spsrOf (s : State) (p : Cpsr) (b : Banked) : (s.setCpsr p).spsrOf b = s.spsrOf b := by
  cases b <;> rfl

theorem Frame.setSpsrOf (s : State) (b : Banked) (p : Spsr) : Frame s (s.setSpsrOf b p) [] [b] where
  regs q _ := State.phys_congr (by simp) q
  spsrs c hc := by rw [State.spsrOf_setSpsrOf, if_neg (by simpa using hc)]
  latches := by simp
  inputs := by simp
  fixed := by simp

/-- Settles O51: both forms write the selected fields of the operand. -/
theorem savedStatusWrite : Obligations.SavedStatusWrite := by
  intro s mask rot rm imm8 f hf
  have hexec : exec f.1 s = s.msrSpsr mask f.2 := by
    simp only [List.mem_cons, List.not_mem_nil, or_false] at hf
    obtain rfl | rfl := hf
    · rfl
    · rw [← rotatedImm_value]; rfl
  rw [State.msrSpsr] at hexec
  cases hb : s.cpsr.mode.banked with
  | none =>
    simp only [hb] at hexec
    exact ⟨_, hexec, Frame.setCpsr_advancePC s s.cpsr, rfl, ⟨rfl, rfl⟩, fun _ => rfl, rfl⟩
  | some b =>
    simp only [hb] at hexec
    refine ⟨_, hexec, ⟨?_, ?_⟩, by simp, ⟨by simp, by simp⟩, fun _ => by simp, by simp⟩
    · rw [State.advancePC_spsrOf, State.spsrOf_setSpsrOf, if_pos rfl]
      exact Spsr.toWord_withFields ..
    · exact (Frame.setSpsrOf ..).trans (Frame.nil (Frame.setCpsr_advancePC _ _))

/-! ## The round trip (47 R337) -/

theorem MsrEffect.toWord_privileged {s : State} {v : Word} {p : Cpsr} (h : MsrEffect s.cpsr 9 v p)
    (hmode : s.cpsr.mode ≠ .user) (ht : s.cpsr.t = false) : p.save.toWord = v &&& 0xF00000DF#32 := by
  obtain ⟨hn, hz, hc, hv⟩ := (if_pos rfl).mp h.flags
  obtain ⟨hi, hf, hm⟩ := h.control ⟨rfl, hmode⟩
  have hT := h.t
  refine Spsr.toWord_eq ?_ ?_
  · simp [Spsr.ofWord, Cpsr.save, bit, bits, BitVec.extractLsb'_and, and_thirtyOne, *]
  · rw [BitVec.and_assoc]; rfl

theorem MsrEffect.toWord_user {s : State} {v : Word} {p : Cpsr} (h : MsrEffect s.cpsr 9 v p) (hmode : s.cpsr.mode = .user) :
    p.save.toWord = (v &&& 0xF0000000#32) ||| (s.cpsr.toWord &&& 0x000000FF#32) := by
  have hsave : p.save = s.cpsr.save.withFields 8 v := by
    obtain ⟨hn, hz, hc, hv⟩ := (if_pos rfl).mp h.flags
    obtain ⟨hi, hf, hm⟩ := h.kept fun hcontrol => hcontrol.2 hmode
    have hT := h.t
    simp [Spsr.withFields, maskF, maskC, Spsr.ofWord, Cpsr.save, bit, *]
  rw [hsave, Spsr.toWord_withFields, ← Spsr.toWord_implemented s.cpsr.save, BitVec.and_assoc, BitVec.or_comm]
  rfl

theorem Spsr.toWord_withFields_all (p : Spsr) (v : Word) : (p.withFields 9 v).toWord = v &&& 0xF00000FF#32 := by
  rw [Spsr.toWord_withFields, ← Spsr.toWord_implemented, BitVec.and_assoc,
    show 0xF00000FF#32 &&& ~~~fieldBits 9 = 0#32 from rfl, BitVec.and_zero, BitVec.zero_or]
  rfl

/-- Settles O52: what MSR leaves, read back by MRS. -/
theorem statusRoundTrip : Obligations.StatusRoundTrip := by
  intro s rm rd hrd ht v
  have hmrs : ∀ t : State, Completes (.mrsCpsr rd) t fun u => u.reg rd = t.cpsr.save.toWord :=
    fun t => ⟨_, rfl, t.guardedWrite_reg hrd _⟩
  refine ⟨fun hmode hlegal => ?_, fun hmode => ?_, fun hbanked => ?_⟩
  · obtain ⟨p, hnext, heffect⟩ := State.msrCpsr_next (s := s) (mask := 9) (op := v) fun _ => hlegal
    refine ⟨_, hnext, ?_⟩
    rw [← heffect.toWord_privileged hmode ht]
    exact hmrs _
  · obtain ⟨p, hnext, heffect⟩ := State.msrCpsr_next (s := s) (mask := 9) (op := v) fun hcontrol => absurd hmode hcontrol.2
    refine ⟨_, hnext, ?_⟩
    rw [← heffect.toWord_user hmode]
    exact hmrs _
  · obtain ⟨b, hb⟩ := Option.isSome_iff_exists.mp hbanked
    refine ⟨(s.setSpsrOf b ((s.spsrOf b).withFields 9 v)).advancePC, ?_, _, rfl, (State.guardedWrite_reg _ hrd _).trans ?_⟩
    · show s.msrSpsr 9 v = _
      simp only [State.msrSpsr, hb]
    · rw [State.spsrWord_eq]
      simp only [State.savedStatus, State.advancePC_cpsr, State.setSpsrOf_cpsr, hb, State.advancePC_spsrOf,
        State.spsrOf_setSpsrOf, if_true]
      exact Spsr.toWord_withFields_all ..

/-! ## Exceptions (49 R360, R361; 60 R375, R376) -/

/-- Settles O53: the entry of Supervisor mode. -/
theorem softwareInterrupt : Obligations.SoftwareInterrupt := by
  intro s comment
  obtain ⟨hcpsr, hspsr, hr14, hbranch, -, hframe, hstore⟩ := s.enter_effect .supervisor swiVector false
  rw [Bool.or_false] at hcpsr
  exact ⟨_, rfl, hcpsr, hspsr, hr14, hbranch, hframe, hstore⟩

/-- Settles O54: the entry of Undefined mode. -/
theorem undefinedTrap : Obligations.UndefinedTrap := by
  intro s rest
  obtain ⟨hcpsr, hspsr, hr14, hbranch, -, hframe, hstore⟩ := s.enter_effect .undefined undefinedVector false
  rw [Bool.or_false] at hcpsr
  exact ⟨_, rfl, hcpsr, hspsr, hr14, hbranch, hframe, hstore⟩

/-- MOVS R15, R14 is a return to R14, its operand being neither shifted nor advanced over. -/
theorem exec_movsReturn (s : State) : exec (.mov true 15 (.shiftImm .lsl 0 14)) s =
    (s.setCpsr (s.cpsr.logical (s.reg 14) none)).returnTo (s.reg 14) := rfl

theorem Cpsr.eq_of_save {p q : Cpsr} (h : p.save = q.save) (hm : p.mode = q.mode) : p = q := by
  obtain ⟨hn, hz, hc, hv, hi, hf, ht, -⟩ := Spsr.mk.inj h
  cases p
  cases q
  simp_all

/-- A return in a mode whose saved status word is a CPSR puts that CPSR back. -/
theorem State.returnTo_saved {s : State} {b : Banked} {p : Cpsr} (hb : s.cpsr.mode.banked = some b)
    (hs : s.spsrOf b = p.save) (v : Word) : s.returnTo v = .next ((s.setCpsr p).branch v) := by
  have hcases := s.returnTo_cases v
  have hlegal : Mode.ofCode p.save.m = some p.mode := Mode.ofCode_code _
  simp only [hb, hs, hlegal] at hcases
  obtain ⟨q, hnext, hsave, hmode, -⟩ := hcases
  rw [hnext, Cpsr.eq_of_save hsave hmode]

/-- The return right after an entry restores CPSR and reaches the next instruction. -/
theorem State.enter_return {s : State} (ht : s.cpsr.t = false) (hpc : s.r15 &&& 3#32 = 0#32) (b : Banked) (vector : Word) :
    Completes (.mov true 15 (.shiftImm .lsl 0 14)) (s.enter b vector false) fun u =>
      u.cpsr = s.cpsr ∧ BranchedTo u (s.r15 - 4#32) := by
  obtain ⟨hcpsr, hspsr, hr14, -⟩ := s.enter_effect b vector false
  generalize s.enter b vector false = t at *
  have hmode : t.cpsr.mode = b.mode := by rw [hcpsr]
  have h14 : t.reg 14 = s.r15 - 4#32 := by rw [State.reg_eq (p := b.mode.r14) (by rw [hmode, physical_fourteen]), hr14]
  have hbanked : (t.cpsr.logical (t.reg 14) none).mode.banked = some b := by
    rw [← Mode.banked_mode b, ← hmode]
    rfl
  have hreturn := State.returnTo_saved (s := t.setCpsr (t.cpsr.logical (t.reg 14) none)) (p := s.cpsr) hbanked
    ((State.setCpsr_spsrOf ..).trans hspsr) (t.reg 14)
  refine ⟨_, (exec_movsReturn t).trans hreturn, rfl, ⟨?_, rfl⟩⟩
  rw [State.branch_r15, State.setCpsr_cpsr, ht, h14]
  rw [BitVec.sub_eq_add_neg]
  exact Word.aligned_add hpc (by decide)

/-- Settles O55: both traps are entries. -/
theorem returnAfterTrap : Obligations.ReturnAfterTrap := by
  intro s comment rest ht hpc i hi
  simp only [List.mem_cons, List.not_mem_nil, or_false] at hi
  obtain rfl | rfl := hi
  · exact ⟨_, rfl, State.enter_return ht hpc ..⟩
  · exact ⟨_, rfl, State.enter_return ht hpc ..⟩

end Sys2Proof.Machine
end

section
/-! PROOFS. The block transfers (45_block_transfer.md R290 to R305): their addresses, the stores with the writeback at the first
word, the loads, the empty list and the exception return. -/

namespace Sys2Proof.Machine

/-! ## Addresses (45 R291, R296) -/

theorem transferCount_eq (list : BitVec 16) :
    transferCount list = if population list = 0 then 16 else population list := by
  simp only [transferCount, population_eq_zero, listed_length]

/-- Settles O37: the tables of R291, at the number of registers moved. -/
theorem blockAddresses : Obligations.BlockAddresses := fun _ list =>
  ⟨transferCount_eq list, rfl, rfl, rfl, rfl, rfl, rfl⟩

/-! ## The stores of a list (45 R292 to R299) -/

theorem State.commit_eq_writeBack (s : State) (rn : Reg) (wb : Option Word) : s.commit rn wb = s.writeBack rn wb := by
  cases wb <;> rfl

theorem State.listedReg_eq (s : State) (user : Bool) (i : Reg) : s.listedReg user i = s.regIn (blockBank user s) i := by
  cases user <;> rfl

theorem State.commit_params (s : State) (rn : Reg) (wb : Option Word) : (s.commit rn wb).params = s.params := by
  cases wb <;> simp [State.commit]

theorem State.commit_regs_congr {s t : State} (hr : t.regs = s.regs) (hc : t.cpsr = s.cpsr) (rn : Reg) (wb : Option Word) :
    (t.commit rn wb).regs = (s.commit rn wb).regs := by
  cases wb with
  | none => exact hr
  | some v =>
    simp only [State.commit, State.setReg, State.setRegIn, hc]
    split <;> simp [hr]

theorem Frame.commit (s : State) (rn : Reg) (wb : Option Word) :
    Frame s (s.commit rn wb) (s.writtenBack rn wb.isSome) := by
  rw [State.commit_eq_writeBack]
  exact Frame.writeBack ..

/-- What the stores of a list do, the writeback after the first of them: every word at its place, those after the first as the
writeback leaves them. -/
structure Stores (user : Bool) (rn : Reg) (wb : Option Word) (l : List Reg) (addr : Word) (s t : State) : Prop where
  frame : Frame s t (s.writtenBack rn wb.isSome)
  regs : t.regs = (s.commit rn wb).regs
  r15 : t.r15 = s.r15
  refill : t.refill = s.refill
  cpsr : t.cpsr = s.cpsr
  bytes : ∀ k (hk : k < l.length), ∀ j, j < 4 →
    s.params.isIo (align4 (addr + BitVec.ofNat 32 (4 * k)) + BitVec.ofNat 32 j) = false →
    t.mem.read (align4 (addr + BitVec.ofNat 32 (4 * k)) + BitVec.ofNat 32 j).toNat =
      (storedWord user (if k = 0 then s else s.commit rn wb) l[k]).extractLsb' (8 * j) 8
  others : ∀ x : Word, (∀ k, k < l.length → ¬ within (align4 (addr + BitVec.ofNat 32 (4 * k))) 4 x) ∨
    s.params.isIo x = true → t.mem.read x.toNat = s.mem.read x.toNat
  control : (∀ k, k < l.length → ¬ within (align4 (addr + BitVec.ofNat 32 (4 * k))) 4 s.params.waitControl ∧
    ¬ within (align4 (addr + BitVec.ofNat 32 (4 * k))) 4 (s.params.waitControl + 1#32)) → t.ws.wcnt = s.ws.wcnt

theorem storeWords_stores (user : Bool) (rn : Reg) (wb : Option Word) (i : Reg) (l : List Reg) (addr : Word) {s : State}
    (h : s.mem.wf) (hl : l.length < 16) :
    Stores user rn wb (i :: l) addr s (storeWords user rn (i :: l) wb addr s) := by
  have hw := State.memWriteRaw32_wrote h (align4 addr) (storedWord user s i)
  have hregs : (s.memWriteRaw32 (align4 addr) (storedWord user s i)).regs = s.regs := by simp
  have hst : storeWords user rn (i :: l) wb addr s = storeWords user rn l none (addr + 4#32)
    ((s.memWriteRaw32 (align4 addr) (storedWord user s i)).commit rn wb) := rfl
  generalize s.memWriteRaw32 (align4 addr) (storedWord user s i) = s1 at hw hst hregs
  have hfirst : addr + BitVec.ofNat 32 (4 * 0) = addr := by simp
  obtain ⟨hr15, hrefill, hmem, hws, hcpsr⟩ := s1.commit_keeps rn wb
  have hparams : (s1.commit rn wb).params = s.params := (State.commit_params ..).trans hw.frame.fixed.1
  have hbase := State.commit_regs_congr hregs hw.cpsr rn wb
  have hframe : Frame s (s1.commit rn wb) (s.writtenBack rn wb.isSome) := by
    have hcommit := Frame.commit s1 rn wb
    rw [State.writtenBack, State.named, hw.cpsr] at hcommit
    exact (Frame.nil hw.frame).trans hcommit
  rw [hst]
  have htail := storeWords_tail user rn l (addr + 4#32) (s1.commit rn wb) (hmem.symm ▸ hw.wf) hl.le
  have hword : ∀ j, storedWord user (s1.commit rn wb) j = storedWord user (s.commit rn wb) j := by
    obtain ⟨hr15', -, -, -, hcpsr'⟩ := s.commit_keeps rn wb
    refine storedWord_congr hbase ?_ ?_ ?_ user
    · rw [hr15, hr15', hw.r15]
    · rw [hcpsr, hcpsr', hw.cpsr]
    · rw [hparams, State.commit_params]
  generalize storeWords user rn l none (addr + 4#32) (s1.commit rn wb) = t at htail
  refine ⟨hframe.trans (Frame.nil htail.frame), htail.regs.trans hbase, htail.r15.trans (hr15.trans hw.r15),
    htail.refill.trans (hrefill.trans hw.refill), htail.cpsr.trans (hcpsr.trans hw.cpsr), ?_, ?_, ?_⟩
  · intro k hk j hj hio
    cases k with
    | zero =>
      rw [hfirst] at hio ⊢
      rw [htail.others _ (Or.inl fun k hk => ?_), hmem, hw.stored.bytes j hj hio]
      · rfl
      · rw [next_word]
        exact align_far addr (k + 1) (by omega) (by omega) _ (within_add _ hj)
    | succ k =>
      rw [← next_word] at hio ⊢
      rw [htail.bytes k (by simpa using hk) j hj (hparams ▸ hio), hword]
      rfl
  · rintro x (hx | hx)
    · have hx0 := hx 0 (by simp)
      rw [hfirst] at hx0
      rw [htail.others x (Or.inl fun k hk => by rw [next_word]; exact hx (k + 1) (by simpa using hk)), hmem,
        hw.stored.others x (Or.inl hx0)]
    · rw [htail.others x (Or.inr (hparams.symm ▸ hx)), hmem, hw.stored.others x (Or.inr hx)]
  · intro hx
    have hx0 := hx 0 (by simp)
    rw [hfirst] at hx0
    rw [htail.control fun k hk => by rw [next_word, hparams]; exact hx (k + 1) (by simpa using hk), hws,
      hw.stored.control hx0.1 hx0.2]

/-- Calls before the stores change nothing of what they do. -/
theorem Still.stores {user : Bool} {rn : Reg} {wb : Option Word} {l : List Reg} {addr : Word} {s s' t : State}
    (hs : Still s s') (h : Stores user rn wb l addr s' t) : Stores user rn wb l addr s t := by
  have hbase := State.commit_regs_congr hs.regs hs.cpsr rn wb
  have hword : ∀ (k : Nat) (i : Reg), storedWord user (if k = 0 then s' else s'.commit rn wb) i =
      storedWord user (if k = 0 then s else s.commit rn wb) i := by
    intro k i
    split
    · exact storedWord_congr hs.regs hs.r15 hs.cpsr hs.params user i
    · obtain ⟨hr15, -, -, -, hcpsr⟩ := s.commit_keeps rn wb
      obtain ⟨hr15', -, -, -, hcpsr'⟩ := s'.commit_keeps rn wb
      exact storedWord_congr hbase (by rw [hr15, hr15', hs.r15]) (by rw [hcpsr, hcpsr', hs.cpsr])
        (by rw [State.commit_params, State.commit_params, hs.params]) user i
  refine ⟨?_, h.regs.trans hbase, h.r15.trans hs.r15, h.refill.trans hs.refill, h.cpsr.trans hs.cpsr, ?_, ?_, ?_⟩
  · have hframe := h.frame
    rw [State.writtenBack, State.named, hs.cpsr] at hframe
    exact (Frame.nil hs.frame).trans hframe
  · intro k hk j hj hio
    rw [h.bytes k hk j hj (hs.params.symm ▸ hio), hword]
  · intro x hx
    rw [h.others x (hs.params.symm ▸ hx), hs.mem]
  · intro hx
    rw [h.control (hs.params.symm ▸ hx), hs.control]

/-- Calls after the stores change nothing of what they did. -/
theorem Stores.still {user : Bool} {rn : Reg} {wb : Option Word} {l : List Reg} {addr : Word} {s t t' : State}
    (h : Stores user rn wb l addr s t) (ht : Still t t') : Stores user rn wb l addr s t' := by
  refine ⟨h.frame.trans (Frame.nil ht.frame), ht.regs.trans h.regs, ht.r15.trans h.r15, ht.refill.trans h.refill,
    ht.cpsr.trans h.cpsr, ?_, ?_, ?_⟩
  · intro k hk j hj hio
    rw [ht.mem, h.bytes k hk j hj hio]
  · intro x hx
    rw [ht.mem, h.others x hx]
  · intro hx
    rw [ht.control, h.control hx]

/-- What follows the stores: the charge of the words and the end of the instruction. -/
theorem Still.storeTail {s : State} (h : s.inside = []) (n : Nat) (a : Word) : Still s (s.bulkCharge n a).nonSeq :=
  have hbulk := Still.bulkCharge h n a
  hbulk.trans (Still.nonSeq (hbulk.quiet h))

/-- The stores of a list between the calls of STM. -/
theorem storeWords_called {s : State} (h : s.inside = []) (hm : s.mem.wf) (user : Bool) (rn : Reg) (wb : Option Word)
    {l : List Reg} (hne : l ≠ []) (hlen : l.length ≤ 16) (start : Word) (n : Nat) (a : Word) :
    Stores user rn wb l start s ((storeWords user rn l wb start s.nonSeq).bulkCharge n a).nonSeq := by
  have hns := Still.nonSeq h
  obtain ⟨i, l, rfl⟩ := List.exists_cons_of_ne_nil hne
  have hstores := storeWords_stores user rn wb i l start (hns.mem.symm ▸ hm) hlen
  exact hns.stores (hstores.still (Still.storeTail (hstores.frame.fixed.2.1.trans (hns.quiet h)) n a))

/-- What is stored for a listed register, before the writeback or after it, is what R294, R297 and R299 give. -/
theorem storedWord_eq_blockValue (s : State) (user w : Bool) (rn : Reg) (list : BitVec 16) (final : Word) (i : Reg) :
    storedWord user (if rank list i.val = 0 then s else s.commit rn (if w then some final else none)) i =
      s.blockValue (blockBank user s) w rn list final i := by
  obtain ⟨hr15, -, -, -, hcpsr⟩ := s.commit_keeps rn (if w then some final else none)
  have hbank : blockBank user (s.commit rn (if w then some final else none)) = blockBank user s := by
    simp only [blockBank, hcpsr]
  unfold storedWord State.blockValue
  by_cases h15 : i = 15
  · rw [if_pos h15, if_pos h15, State.storeValue, State.storedPc, if_pos rfl]
    split
    · rfl
    · rw [hr15, State.commit_params]
  · obtain ⟨p, hp⟩ := physical_some (m := blockBank user s) h15
    rw [if_neg h15, if_neg h15, State.listedReg_eq]
    by_cases hrank : rank list i.val = 0
    · rw [if_pos hrank, if_neg (by simp [hrank])]
    · rw [if_neg hrank, hbank, State.regIn_eq hp, State.regIn_eq hp, State.phys_commit, hp]
      cases w <;> simp [hrank, eq_comm]

theorem State.storeMultiple_eq (s : State) (p u w user : Bool) (rn : Reg) {list : BitVec 16} (hl : list ≠ 0)
    (hrn : ¬ (rn = 15 ∧ w = true)) :
    let start := blockStart p u (s.reg rn) (population list)
    s.storeMultiple p u w user rn list =
      .next (((storeWords user rn (listed list) (if w then some (blockFinal u (s.reg rn) (population list)) else none) start
        s.nonSeq).bulkCharge (listed list).length (align4 start)).nonSeq.advancePC) := by
  have hpop := mt (population_eq_zero list).mp hl
  simp only [State.storeMultiple, if_neg hrn, transferCount_eq, if_neg hpop, transferred, if_neg hl]

theorem Frame.advancePC (s : State) : Frame s s.advancePC [] := Frame.setCpsr_advancePC s s.cpsr

/-- The base after the stores is the value written back. -/
theorem Stores.base {user : Bool} {rn : Reg} {wb : Option Word} {l : List Reg} {addr v : Word} {s t : State}
    (h : Stores user rn wb l addr s t) (hrn : rn ≠ 15) (hwb : wb = some v) : t.advancePC.reg rn = v := by
  have hregs : t.advancePC.regs = (s.setReg rn v).regs := by rw [State.advancePC_regs, h.regs, hwb]; rfl
  rw [State.reg_congr' (s := s.setReg rn v) hregs (by simp [h.cpsr]) hrn, State.reg_setReg _ _ _ _ hrn, if_pos rfl]

/-- The `k`-th word of a transfer is that of a listed register. -/
theorem listed_slot (list : BitVec 16) (start : Word) {k : Nat} (hk : k < (listed list).length) :
    ∃ i : Reg, list.getLsbD i.val = true ∧ slot list start i = align4 (start + BitVec.ofNat 32 (4 * k)) := by
  have hi := (mem_listed list _).mp (List.getElem_mem hk)
  obtain ⟨hrank, hat⟩ := listed_at list _ hi
  refine ⟨_, hi, ?_⟩
  rw [slot, (listed_nodup list).getElem_inj_iff.mp hat]

/-- STM of a list that is not empty, by the bank its registers are read from. -/
theorem State.storeMultiple_next {s : State} (h : s.inside = []) (hm : s.mem.wf) (p u w user : Bool) (rn : Reg)
    {list : BitVec 16} (hl : list ≠ 0) (hrn : ¬ (rn = 15 ∧ w = true)) :
    let start := blockStart p u (s.reg rn) (population list)
    let final := blockFinal u (s.reg rn) (population list)
    ∃ t, s.storeMultiple p u w user rn list = .next t ∧
      (∀ i : Reg, list.getLsbD i.val = true → ∀ k, k < 4 → s.params.isIo (slot list start i + BitVec.ofNat 32 k) = false →
        t.mem.read (slot list start i + BitVec.ofNat 32 k).toNat =
          (s.blockValue (blockBank user s) w rn list final i).extractLsb' (8 * k) 8) ∧
      (∀ x : Word, (∀ i : Reg, list.getLsbD i.val = true → ¬ within (slot list start i) 4 x) →
        t.mem.read x.toNat = s.mem.read x.toNat) ∧
      ((∀ i : Reg, list.getLsbD i.val = true → ¬ within (slot list start i) 4 s.params.waitControl ∧
        ¬ within (slot list start i) 4 (s.params.waitControl + 1#32)) → t.ws.wcnt = s.ws.wcnt) ∧
      (w = true → t.reg rn = final) ∧ t.cpsr = s.cpsr ∧ FallsThrough s t ∧ Frame s t (s.writtenBack rn w) := by
  intro start final
  have hne : listed list ≠ [] := fun hnil =>
    hl ((population_eq_zero list).mp (by rw [← listed_length, hnil]; rfl))
  have hstores := storeWords_called h hm user rn (if w then some final else none) hne (listed_length_le list) start
    (listed list).length (align4 start)
  have hexec := s.storeMultiple_eq p u w user rn hl hrn
  dsimp only at hexec
  generalize ((storeWords user rn (listed list) (if w then some final else none) start s.nonSeq).bulkCharge
    (listed list).length (align4 start)).nonSeq = t at hstores hexec
  refine ⟨_, hexec, ?_, ?_, ?_, ?_, hstores.cpsr, ⟨?_, hstores.refill⟩, ?_⟩
  · intro i hi k hk hio
    obtain ⟨hrank, hat⟩ := listed_at list i hi
    have hbytes := hstores.bytes (rank list i.val) hrank k hk hio
    rw [hat, storedWord_eq_blockValue] at hbytes
    exact hbytes
  · intro x hx
    refine hstores.others x (Or.inl fun k hk => ?_)
    obtain ⟨i, hi, hslot⟩ := listed_slot list start hk
    exact hslot ▸ hx i hi
  · intro hx
    refine hstores.control fun k hk => ?_
    obtain ⟨i, hi, hslot⟩ := listed_slot list start hk
    exact hslot ▸ hx i hi
  · intro hw
    exact hstores.base (fun h15 => hrn ⟨h15, hw⟩) (if_pos hw)
  · rw [State.advancePC_r15, hstores.r15]
  · have hframe := hstores.frame
    rw [show (if w then some final else none).isSome = w by cases w <;> rfl] at hframe
    exact hframe.trans (Frame.nil (Frame.advancePC t))

/-- Settles O38: both forms run one sequence, on the bank of their mode. -/
theorem storeMultiple : Obligations.StoreMultiple := by
  intro s p u w rn list h hl hrn hm start final f hf
  simp only [List.mem_cons, List.not_mem_nil, or_false] at hf
  obtain rfl | rfl := hf
  · exact State.storeMultiple_next h hm p u w false rn hl hrn
  · exact State.storeMultiple_next h hm p u w true rn hl hrn

end Sys2Proof.Machine
end

section
/-! PROOFS. LDM (45_block_transfer.md R295, R296, R298, R300, R301, R303): what its loads leave in the registers, the branch to
the word loaded for R15, the exception return, and the empty list. -/

namespace Sys2Proof.Machine

/-! ## The loads of a list (45 R295, R298) -/

/-- `t` is `s` after the loads of a list into the bank of `m` and the writeback: the registers by what they hold. -/
structure ListLoaded (m : Mode) (w : Bool) (rn : Reg) (list : BitVec 16) (start final : Word) (s t : State) : Prop where
  loaded : ∀ i : Reg, list.getLsbD i.val = true → s.plainWord (slot list start i) → ∀ p, physical m i = some p →
    t.phys p = s.loadedValue m w rn list start final i
  others : ∀ p, p ∉ listedIn m list →
    t.phys p = if w = true ∧ physical s.cpsr.mode rn = some p then final else s.phys p
  frame : Frame s t (listedIn m list ++ s.writtenBack rn w)
  noStore : NoStore s t

section
variable {m : Mode} {w : Bool} {rn : Reg} {list : BitVec 16} {start final : Word} {s t : State}

theorem Still.noStore {s t : State} (h : Still s t) : NoStore s t := ⟨fun a => by rw [h.mem], h.control⟩

theorem NoStore.advancePC (s : State) : NoStore s s.advancePC := ⟨fun _ => rfl, rfl⟩

theorem NoStore.trans {s t u : State} (h : NoStore s t) (h' : NoStore t u) : NoStore s u :=
  ⟨fun a => (h'.memory a).trans (h.memory a), h'.control.trans h.control⟩

/-- What changes no register afterwards. -/
theorem ListLoaded.followed {u : State} (h : ListLoaded m w rn list start final s t) (hf : Frame t u [])
    (hn : NoStore t u) : ListLoaded m w rn list start final s u where
  loaded i hi hplain p hp := (hf.regs p (by simp)).trans (h.loaded i hi hplain p hp)
  others p hp := (hf.regs p (by simp)).trans (h.others p hp)
  frame := h.frame.trans (Frame.nil hf)
  noStore := h.noStore.trans hn

/-- The registers do not change but for the listed ones and the base. -/
theorem ListLoaded.of_same {r : State} (hs : Same s r)
    (hloaded : ∀ i : Reg, list.getLsbD i.val = true → s.plainWord (slot list start i) → ∀ p, physical m i = some p →
      r.phys p = s.loadedValue m w rn list start final i)
    (hothers : ∀ p, p ∉ listedIn m list →
      r.phys p = if w = true ∧ physical s.cpsr.mode rn = some p then final else s.phys p) :
    ListLoaded m w rn list start final s r := by
  refine ⟨hloaded, hothers, ⟨fun p hp => ?_, fun b _ => hs.spsrs b, hs.latches, hs.inputs, hs.fixed⟩,
    fun a => by rw [hs.mem], hs.wcnt⟩
  obtain ⟨hlisted, hbase⟩ := not_or.mp (mt List.mem_append.mpr hp)
  rw [hothers p hlisted, if_neg (mt (mem_writtenBack s rn w p).mpr hbase)]

theorem ListLoaded.regIn (h : ListLoaded m w rn list start final s t) {i : Reg} (h15 : i ≠ 15)
    (hi : list.getLsbD i.val = true) (hplain : s.plainWord (slot list start i)) :
    t.regIn m i = s.loadedValue m w rn list start final i := by
  obtain ⟨p, hp⟩ := physical_some (m := m) h15
  rw [State.regIn_eq hp]
  exact h.loaded i hi hplain p hp

/-- A base that is not loaded keeps the value written back. -/
theorem ListLoaded.base (h : ListLoaded m w rn list start final s t) (hrn : ¬ (rn = 15 ∧ w = true)) (hw : w = true)
    (hq : ∀ q ∈ s.named rn, q ∉ listedIn m list) : t.regIn s.cpsr.mode rn = final := by
  obtain ⟨p, hp⟩ := physical_some (m := s.cpsr.mode) fun h15 => hrn ⟨h15, hw⟩
  rw [State.regIn_eq hp, h.others p (hq p (State.mem_named.mpr hp)), if_pos ⟨hw, hp⟩]

/-- In one bank, a base that is not listed is no listed register. -/
theorem named_not_listed (h : list.getLsbD rn.val = false) : ∀ q ∈ s.named rn, q ∉ listedIn s.cpsr.mode list := by
  intro q hq hlisted
  obtain ⟨i, hi, hp⟩ := (mem_listedIn ..).mp hlisted
  rw [physical_inj (hp.trans (State.mem_named.mp hq).symm), h] at hi
  cases hi

end

/-! ## LDM without R15 and with it -/

section
variable {s : State} (h : s.inside = []) (p u w sbit : Bool) {rn : Reg} {list : BitVec 16} (hrn : ¬ (rn = 15 ∧ w = true))
include h hrn

/-- LDM of a list without R15 loads it and goes on with the next instruction. -/
theorem State.loadMultiple_next (hl : list ≠ 0) (h15 : list.getLsbD 15 = false) :
    ∃ t, s.loadMultiple p u w sbit rn list = .next t ∧ t.cpsr = s.cpsr ∧ FallsThrough s t ∧
      ListLoaded (blockBank sbit s) w rn list (blockStart p u (s.reg rn) (population list))
        (blockFinal u (s.reg rn) (population list)) s t := by
  obtain ⟨r, hr, hsame, hloaded, hothers, -, hnone⟩ := loadWords_list h sbit w rn list hl
    (blockStart p u (s.reg rn) (population list)) (blockFinal u (s.reg rn) (population list))
  have hexec := s.loadMultiple_eq p u w sbit rn list hl hrn
  simp only [h15, Bool.not_false, Bool.and_true, hr, hnone h15] at hexec
  have htail := Still.loadTail (hsame.fixed.2.1.trans h) (listed list).length
    (align4 (blockStart p u (s.reg rn) (population list)))
  refine ⟨_, hexec, htail.cpsr.trans hsame.cpsr, ⟨?_, htail.refill.trans hsame.refill⟩, ?_⟩
  · rw [State.advancePC_r15, htail.r15, hsame.r15]
  · exact ((ListLoaded.of_same hsame hloaded hothers).followed htail.frame htail.noStore).followed (Frame.advancePC _)
      (NoStore.advancePC _)

omit h hrn in
/-- The empty list's one word is at the start address. -/
theorem slot_empty (start : Word) : slot 0 start 15 = align4 start := by
  rw [slot, show rank 0 (15 : Reg).val = 0 by decide, Nat.mul_zero, BitVec.add_zero]

/-- LDM of the empty list is the one load, for R15. -/
theorem State.loadMultiple_empty_eq :
    let start := blockStart p u (s.reg rn) (transferCount 0)
    let r := loadWords false rn [15] (if w then some (blockFinal u (s.reg rn) (transferCount 0)) else none) start s.nonSeq
    let s' := (r.1.bulkCharge [(15 : Reg)].length (align4 start)).internal.nonSeq
    s.loadMultiple p u w sbit rn 0 =
      if sbit then s'.returnTo (s.peek32 (align4 start)) else .next (s'.branch (s.peek32 (align4 start))) := by
  intro start r s'
  have huser : (sbit && !(transferred 0).contains 15) = false := by cases sbit <;> rfl
  have hvalue : r.2 = some (s.peek32 (align4 start)) := by
    have hread : r.2 = some (s.nonSeq.memReadRaw32 (align4 start)).1 := rfl
    rw [hread, State.memReadRaw32_eq, (State.peek_nonSeq h _).2.2.2]
  rw [State.loadMultiple, if_neg hrn]
  dsimp only
  rw [huser, show transferred 0 = [15] from rfl, hvalue]

/-- It reads the word at the start address and writes the base back. -/
theorem State.loadMultiple_empty :
    let start := blockStart p u (s.reg rn) (transferCount 0)
    ∃ s' v, s.loadMultiple p u w sbit rn 0 = (if sbit then s'.returnTo v else .next (s'.branch v)) ∧
      s'.cpsr = s.cpsr ∧
      ListLoaded s.cpsr.mode w rn 0 start (blockFinal u (s.reg rn) (transferCount 0)) s s' ∧
      v = s.peek32 (align4 start) := by
  intro start
  have hns := Still.nonSeq h
  have hloads := loadWords_loads false rn (if w then some (blockFinal u (s.reg rn) (transferCount 0)) else none) [15] start
    s.nonSeq (List.nodup_singleton _)
  have hsame := (Still.same hns).trans hloads.same
  have htail := Still.loadTail (hsame.fixed.2.1.trans h) [(15 : Reg)].length (align4 start)
  refine ⟨_, _, State.loadMultiple_empty_eq h p u w sbit hrn, htail.cpsr.trans hsame.cpsr, ?_, rfl⟩
  refine (ListLoaded.of_same hsame (fun i hi => ?_) fun p _ => ?_).followed htail.frame htail.noStore
  · simp at hi
  · have hpc : physical (blockBank false s.nonSeq) 15 ≠ some p := by simp [physical_eq_none.mpr]
    rw [hloads.others p (by simpa using hpc), if_neg (List.cons_ne_nil _ _), State.phys_commit, hns.cpsr,
      State.phys_congr hns.regs]
    cases w <;> simp

/-- LDM with R15, which the empty list stands for too, loads the registers of the mode's own bank and branches or returns to
the word loaded for R15. -/
theorem State.loadMultiple_pc (h15 : list = 0 ∨ list.getLsbD 15 = true) :
    let start := blockStart p u (s.reg rn) (transferCount list)
    ∃ s' v, s.loadMultiple p u w sbit rn list = (if sbit then s'.returnTo v else .next (s'.branch v)) ∧
      s'.cpsr = s.cpsr ∧
      ListLoaded s.cpsr.mode w rn list start (blockFinal u (s.reg rn) (transferCount list)) s s' ∧
      (list = 0 ∨ s.plainWord (slot list start 15) → v = s.peek32 (slot list start 15)) := by
  intro start
  by_cases hl : list = 0
  · subst hl
    obtain ⟨s', v, hexec, hcpsr, hlist, hv⟩ := State.loadMultiple_empty h p u w sbit hrn
    exact ⟨s', v, hexec, hcpsr, hlist, fun _ => hv.trans (by rw [slot_empty])⟩
  · have h15 := h15.resolve_left hl
    have hcount : transferCount list = population list := by
      rw [transferCount_eq, if_neg (mt (population_eq_zero list).mp hl)]
    simp only [start, hcount]
    obtain ⟨r, hr, hsame, hloaded, hothers, hpc, -⟩ := loadWords_list h false w rn list hl
      (blockStart p u (s.reg rn) (population list)) (blockFinal u (s.reg rn) (population list))
    obtain ⟨v, hv, hvalue⟩ := hpc h15
    have hexec := s.loadMultiple_eq p u w sbit rn list hl hrn
    simp only [h15, Bool.not_true, Bool.and_false, hr, hv] at hexec
    have htail := Still.loadTail (hsame.fixed.2.1.trans h) (listed list).length
      (align4 (blockStart p u (s.reg rn) (population list)))
    exact ⟨_, v, hexec, htail.cpsr.trans hsame.cpsr,
      (ListLoaded.of_same hsame hloaded hothers).followed htail.frame htail.noStore,
      fun hplain => hvalue (hplain.resolve_left hl)⟩

end

/-! ## The statements -/

/-- Settles O39: both forms load the bank of their mode. -/
theorem loadMultiple : Obligations.LoadMultiple := by
  intro s p u w rn list h hl h15 hrn start final f hf
  have hload : ∀ (sbit : Bool) (i : Instr), exec i s = s.loadMultiple p u w sbit rn list →
      Completes i s fun t =>
        (∀ i : Reg, list.getLsbD i.val = true → s.plainWord (slot list start i) →
          t.regIn (blockBank sbit s) i = s.loadedValue (blockBank sbit s) w rn list start final i) ∧
        (w = true → (∀ q ∈ s.named rn, q ∉ listedIn (blockBank sbit s) list) → t.reg rn = final) ∧ t.cpsr = s.cpsr ∧
        FallsThrough s t ∧ Frame s t (listedIn (blockBank sbit s) list ++ s.writtenBack rn w) ∧ NoStore s t := by
    intro sbit i hexec
    obtain ⟨t, hnext, hcpsr, hfalls, hlist⟩ := State.loadMultiple_next h p u w sbit hrn hl h15
    refine ⟨t, hexec.trans hnext, fun i hi hplain => hlist.regIn ?_ hi hplain, fun hw hq => ?_, hcpsr, hfalls, hlist.frame,
      hlist.noStore⟩
    · rintro rfl
      cases hi.symm.trans h15
    · rw [State.reg, hcpsr]
      exact hlist.base hrn hw hq
  simp only [List.mem_cons, List.not_mem_nil, or_false] at hf
  obtain rfl | rfl := hf
  · exact hload false _ rfl
  · exact hload true _ rfl

theorem transferCount_of_ne {list : BitVec 16} (hl : list ≠ 0) : transferCount list = population list := by
  rw [transferCount_eq, if_neg (mt (population_eq_zero list).mp hl)]

theorem list_ne_zero {list : BitVec 16} (h : list.getLsbD 15 = true) : list ≠ 0 := by
  rintro rfl
  cases h

/-- Settles O40: LDM with R15 ends in the plain branch. -/
theorem loadMultipleToPc : Obligations.LoadMultipleToPc := by
  intro s p u w rn list h h15 hrn ht start final hplain
  obtain ⟨s', v, hexec, hcpsr, hlist, hv⟩ := State.loadMultiple_pc h p u w false hrn (.inr h15)
  rw [transferCount_of_ne (list_ne_zero h15)] at hlist hv
  have hend := hlist.followed (Frame.branch s' v) (NoStore.branch s' v)
  refine ⟨_, hexec, ⟨?_, rfl⟩, fun i hi hbit hword => ?_, fun hw hbase => ?_, hcpsr, hend.frame, hend.noStore⟩
  · rw [State.branch_r15, hcpsr, ht, hv (.inr hplain)]
    rfl
  · rw [State.reg, State.branch_cpsr, hcpsr]
    exact hend.regIn hi hbit hword
  · rw [State.reg, State.branch_cpsr, hcpsr]
    exact hend.base hrn hw (named_not_listed hbase)

/-- The exception return after the loads, in its three outcomes; `Rest` is what is asked of the loads. -/
theorem ListLoaded.returned {m : Mode} {w : Bool} {rn : Reg} {list : BitVec 16} {start final : Word} {s s' : State}
    (hl : ListLoaded m w rn list start final s s') (hc : s'.cpsr = s.cpsr) {i : Instr} {v : Word}
    (hexec : exec i s = s'.returnTo v) {Rest : State → Prop}
    (hrest : ∀ t, ListLoaded m w rn list start final s t → Rest t) :
    match s.cpsr.mode.banked with
    | some b =>
      match Mode.ofCode (s.spsrOf b).m with
      | some n => Completes i s fun t => t.cpsr.save = s.spsrOf b ∧ t.cpsr.mode = n ∧
          BranchedTo t (v &&& branchMask (s.spsrOf b).t) ∧ Rest t
      | none => exec i s = .refused (.illegalMode (s.spsrOf b).m)
    | none => Completes i s fun t => t.cpsr = s.cpsr ∧ BranchedTo t (v &&& branchMask s.cpsr.t) ∧ Rest t := by
  have key := s'.returnTo_cases v
  have hspsr : ∀ b, s'.spsrOf b = s.spsrOf b := fun b => hl.frame.spsrs b (by simp)
  simp only [hc, hspsr, ← hexec] at key
  split
  · next b hb =>
    simp only [hb] at key
    split
    · next n hn =>
      simp only [hn] at key
      obtain ⟨q, hnext, hsave, hmode, ht⟩ := key
      exact ⟨_, hnext, hsave, hmode, ⟨by rw [State.branch_r15, State.setCpsr_cpsr, ht], rfl⟩,
        hrest _ (hl.followed (Frame.setCpsr_branch s' q v) ⟨fun _ => rfl, rfl⟩)⟩
    · next hn => simpa only [hn] using key
  · next hb =>
    simp only [hb] at key
    exact ⟨_, key, hc, ⟨by rw [State.branch_r15, hc], rfl⟩,
      hrest _ (hl.followed (Frame.branch s' v) (NoStore.branch s' v))⟩

/-- Settles O41: LDM with the S bit and R15 ends in the exception return. -/
theorem loadMultipleReturns : Obligations.LoadMultipleReturns := by
  intro s p u w rn list h h15 hrn start final hplain Loaded
  obtain ⟨s', v, hexec, hcpsr, hlist, hv⟩ := State.loadMultiple_pc h p u w true hrn (.inr h15)
  rw [transferCount_of_ne (list_ne_zero h15)] at hlist hv
  rw [hv (.inr hplain)] at hexec
  exact hlist.returned hcpsr (i := .ldmUser p u w rn list) hexec fun t hl =>
    ⟨fun i hi hbit hword => hl.regIn hi hbit hword, fun hw hbase => hl.base hrn hw (named_not_listed hbase), hl.frame,
      hl.noStore⟩

/-! ## The empty list (45 R296) -/

/-- The start address of the empty list, as if it named sixteen registers. -/
theorem align4_blockStart_empty (p u : Bool) (base : Word) :
    align4 (blockStart p u base (transferCount 0)) =
      align4 (if u then (if p then base + 4#32 else base) else (if p then base - 0x40#32 else base - 0x3C#32)) := by
  cases p <;> cases u
  · have hlow : base - 0x40#32 + 4#32 = base - 0x3C#32 := by bv_omega
    exact congrArg align4 hlow
  · rfl
  · rfl
  · rfl

theorem listedIn_empty (m : Mode) : listedIn m 0 = [] := rfl

theorem not_listed_empty {s : State} {rn : Reg} : ∀ q ∈ s.named rn, q ∉ listedIn s.cpsr.mode 0 := fun _ _ => by
  rw [listedIn_empty]
  exact List.not_mem_nil

/-- Settles O43: LDM with the S bit and the empty list ends in the exception return. -/
theorem emptyListReturns : Obligations.EmptyListReturns := by
  intro s p u w rn h hrn start final Rest
  obtain ⟨s', v, hexec, hcpsr, hlist, hv⟩ := State.loadMultiple_empty h p u w true hrn
  rw [align4_blockStart_empty] at hv
  rw [hv] at hexec
  exact hlist.returned hcpsr (i := .ldmUser p u w rn 0) hexec fun t hl =>
    ⟨fun hw => hl.base hrn hw not_listed_empty, hl.frame, hl.noStore⟩

/-- The stores of R15 alone are the store of its word. -/
theorem Stores.pcAlone {user : Bool} {rn : Reg} {wb : Option Word} {addr : Word} {s t : State}
    (h : Stores user rn wb [15] addr s t) : Stored s t.advancePC (align4 addr) 4 s.storedPc := by
  have hfirst : addr + BitVec.ofNat 32 (4 * 0) = addr := by simp
  have honly : ∀ {P : Nat → Prop}, P 0 → ∀ k, k < [(15 : Reg)].length → P k := fun h0 k hk => by
    obtain rfl : k = 0 := Nat.lt_one_iff.mp hk
    exact h0
  refine ⟨fun j hj hio => ?_, fun x hx => h.others x (hx.imp_left fun hout => ?_), fun h0 h1 => h.control ?_⟩
  · have hbytes := h.bytes 0 (by decide) j hj
    rw [hfirst] at hbytes
    exact hbytes hio
  · exact honly (hfirst.symm ▸ hout)
  · exact honly (hfirst.symm ▸ ⟨h0, h1⟩)

/-- STM of the empty list stores R15 alone. -/
theorem State.storeMultiple_empty {s : State} (h : s.inside = []) (hm : s.mem.wf) (p u w user : Bool) {rn : Reg}
    (hrn : ¬ (rn = 15 ∧ w = true)) :
    ∃ t, s.storeMultiple p u w user rn 0 = .next t ∧
      Stored s t (align4 (blockStart p u (s.reg rn) (transferCount 0))) 4 s.storedPc ∧
      (w = true → t.reg rn = blockFinal u (s.reg rn) (transferCount 0)) ∧ t.cpsr = s.cpsr ∧ FallsThrough s t ∧
      Frame s t (s.writtenBack rn w) := by
  have hexec : s.storeMultiple p u w user rn 0 = .next _ := if_neg hrn
  rw [show transferred 0 = [15] from rfl] at hexec
  have hstores := storeWords_called h hm user rn (if w then some (blockFinal u (s.reg rn) (transferCount 0)) else none)
    (List.cons_ne_nil 15 []) (by decide) (blockStart p u (s.reg rn) (transferCount 0)) [(15 : Reg)].length
    (align4 (blockStart p u (s.reg rn) (transferCount 0)))
  generalize (State.bulkCharge _ _ _).nonSeq = t at hstores hexec
  refine ⟨_, hexec, hstores.pcAlone, fun hw => hstores.base (fun h15 => hrn ⟨h15, hw⟩) (if_pos hw), hstores.cpsr,
    ⟨by rw [State.advancePC_r15, hstores.r15], hstores.refill⟩, ?_⟩
  have hframe := hstores.frame
  rw [show (if w then some (blockFinal u (s.reg rn) (transferCount 0)) else none).isSome = w by cases w <;> rfl] at hframe
  exact hframe.trans (Frame.nil (Frame.advancePC t))

/-- Settles O42: both stores are of R15 alone, and the load ends in the plain branch. -/
theorem emptyListMovesPcAlone : Obligations.EmptyListMovesPcAlone := by
  intro s p u w rn h hrn hm ht start final
  refine ⟨fun i hi => ?_, ?_⟩
  · have hstore : ∀ user, exec i s = s.storeMultiple p u w user rn 0 → Completes i s fun t =>
        Stored s t start 4 s.storedPc ∧ (w = true → t.reg rn = final) ∧ t.cpsr = s.cpsr ∧ FallsThrough s t ∧
          Frame s t (s.writtenBack rn w) := fun user hexec => by
      obtain ⟨t, hnext, hpost⟩ := State.storeMultiple_empty h hm p u w user hrn
      rw [align4_blockStart_empty] at hpost
      exact ⟨t, hexec.trans hnext, hpost⟩
    simp only [List.mem_cons, List.not_mem_nil, or_false] at hi
    obtain rfl | rfl := hi
    · exact hstore false rfl
    · exact hstore true rfl
  · obtain ⟨s', v, hexec, hcpsr, hlist, hv⟩ := State.loadMultiple_empty h p u w false hrn
    rw [align4_blockStart_empty] at hv
    have hend := hlist.followed (Frame.branch s' v) (NoStore.branch s' v)
    refine ⟨_, hexec, ⟨?_, rfl⟩, fun hw => ?_, hcpsr, hend.frame, hend.noStore⟩
    · rw [State.branch_r15, hcpsr, ht, hv]
      rfl
    · rw [State.reg, State.branch_cpsr, hcpsr]
      exact hend.base hrn hw not_listed_empty

end Sys2Proof.Machine
end

section
/-! PROOFS. Which instructions complete: all but those that write back to R15 and those that install an illegal mode number, which are
refused (40_pipeline_condition.md R160, R166; 44_single_transfer.md R271; 47_status_transfer.md R334). -/

namespace Sys2Proof.Machine

/-! ## The mode number a return installs (40 R160) -/

/-- The mode number of the saved status word, in a mode that has one. -/
def State.savedMode (s : State) : Option (BitVec 5) := s.cpsr.mode.banked.map fun b => (s.spsrOf b).m

/-- A return depends on the mode and the saved words. -/
theorem State.savedMode_congr {s t : State} (hc : t.cpsr.mode = s.cpsr.mode) (hs : ∀ b, t.spsrOf b = s.spsrOf b) :
    t.savedMode = s.savedMode := by
  simp only [State.savedMode, hc, hs]

theorem State.returnTo_illegal {s : State} {m : BitVec 5} (h : s.savedMode = some m) (hm : legalMode m = false) (v : Word) :
    s.returnTo v = .refused (.illegalMode m) := by
  obtain ⟨b, hb, rfl⟩ := Option.map_eq_some_iff.mp h
  have hnone : Mode.ofCode (s.spsrOf b).m = none := Option.not_isSome_iff_eq_none.mp (by simpa [legalMode] using hm)
  have hcases := s.returnTo_cases v
  simpa only [hb, hnone] using hcases

theorem State.returnTo_completes {s : State} (h : ∀ m, s.savedMode = some m → legalMode m = true) (v : Word) :
    ∃ t, s.returnTo v = .next t := by
  have hcases := s.returnTo_cases v
  cases hb : s.cpsr.mode.banked with
  | none =>
    simp only [hb] at hcases
    exact ⟨_, hcases⟩
  | some b =>
    obtain ⟨m, hm⟩ := Option.isSome_iff_exists.mp (h (s.spsrOf b).m (by rw [State.savedMode, hb]; rfl))
    simp only [hb, hm] at hcases
    obtain ⟨p, hnext, -⟩ := hcases
    exact ⟨_, hnext⟩

/-! ## Data processing -/

section
variable {s : State} (h : s.inside = []) {op2 : Operand2} {f : State → Shifted → AluOut}
  (hf : ∀ x b, (f x b).cpsr.mode = x.cpsr.mode)
include h hf

/-- The state a return of a data-processing instruction is made in has the mode and the saved words of the one before it. -/
theorem State.dataProcess_return_eq : ∃ s' : State, ∃ v : Word,
    s.dataProcess true 15 op2 f = s'.returnTo v ∧ s'.savedMode = s.savedMode := by
  refine ⟨_, _, State.dataProcess_eq h rfl true 15, State.savedMode_congr ?_ fun b => ?_⟩
  · rw [(State.atResult_fields h true op2 _).1, if_pos rfl, hf, State.beforeOperands_cpsr h]
  · exact (Frame.atResult h true op2 _).spsrs b (by simp)

theorem State.dataProcess_illegal {sf : Bool} {rd : Reg} {m : BitVec 5}
    (hi : (if sf && rd == 15 then s.savedMode else none) = some m) (hm : legalMode m = false) :
    s.dataProcess sf rd op2 f = .refused (.illegalMode m) := by
  obtain ⟨hreturn, hsaved⟩ := Option.ite_none_right_eq_some.mp hi
  obtain ⟨rfl, hrd⟩ := Bool.and_eq_true_iff.mp hreturn
  obtain rfl := eq_of_beq hrd
  obtain ⟨s', v, hexec, hmode⟩ := State.dataProcess_return_eq h hf (op2 := op2)
  rw [hexec]
  exact State.returnTo_illegal (hmode.trans hsaved) hm v

theorem State.dataProcess_completes {sf : Bool} {rd : Reg}
    (hi : ∀ m, (if sf && rd == 15 then s.savedMode else none) = some m → legalMode m = true) :
    ∃ t, s.dataProcess sf rd op2 f = .next t := by
  by_cases hrd : rd = 15
  · subst hrd
    cases sf with
    | false => exact ⟨_, rfl⟩
    | true =>
      obtain ⟨s', v, hexec, hmode⟩ := State.dataProcess_return_eq h hf (op2 := op2)
      rw [hexec]
      exact State.returnTo_completes (fun m hm => hi m (by simpa using hmode.symm.trans hm)) v
  · exact ⟨_, if_neg hrd⟩

end

/-! ## MSR and LDM -/

theorem State.msrCpsr_illegal {s : State} {mask : BitVec 4} {op : Word} {m : BitVec 5}
    (hi : (if maskC mask && s.cpsr.mode.privileged then some (bits op 0 5) else none) = some m)
    (hm : legalMode m = false) : s.msrCpsr mask op = .refused (.illegalMode m) := by
  obtain ⟨hcontrol, hbits⟩ := Option.ite_none_right_eq_some.mp hi
  obtain rfl := Option.some.inj hbits
  have hnone : Mode.ofCode (bits op 0 5) = none := Option.not_isSome_iff_eq_none.mp (by simpa [legalMode] using hm)
  simp only [State.msrCpsr, hcontrol, if_true, hnone]

/-- LDM with the S bit and R15, the empty list included, is a return. -/
theorem State.loadMultiple_return {s : State} (h : s.inside = []) (p u w : Bool) {rn : Reg} {list : BitVec 16}
    (hrn : ¬ (rn = 15 ∧ w = true)) (h15 : list = 0 ∨ list.getLsbD 15 = true) :
    ∃ s' : State, ∃ v : Word, s.loadMultiple p u w true rn list = s'.returnTo v ∧ s'.savedMode = s.savedMode := by
  obtain ⟨s', v, hexec, hcpsr, hlist, -⟩ := State.loadMultiple_pc h p u w true hrn h15
  exact ⟨s', v, hexec, State.savedMode_congr (by rw [hcpsr]) fun b => hlist.frame.spsrs b (by simp)⟩

theorem not_writeback {rn : Reg} {w : Bool} (h : (rn == 15 && w) = false) : ¬ (rn = 15 ∧ w = true) := by
  simpa using h

/-- LDM without a return completes. -/
theorem State.loadMultiple_completes {s : State} (h : s.inside = []) (p u w sbit : Bool) {rn : Reg} {list : BitVec 16}
    (hrn : ¬ (rn = 15 ∧ w = true)) (hreturn : ¬ (sbit = true ∧ (list = 0 ∨ list.getLsbD 15 = true))) :
    ∃ t, s.loadMultiple p u w sbit rn list = .next t := by
  by_cases h15 : list = 0 ∨ list.getLsbD 15 = true
  · obtain ⟨s', v, hexec, -⟩ := State.loadMultiple_pc h p u w sbit hrn h15
    exact ⟨_, hexec.trans (if_neg fun hsbit => hreturn ⟨hsbit, h15⟩)⟩
  · obtain ⟨hl, h15⟩ := not_or.mp h15
    obtain ⟨t, hexec, -⟩ := State.loadMultiple_next h p u w sbit hrn hl (Bool.not_eq_true _ ▸ h15)
    exact ⟨t, hexec⟩

theorem State.msrCpsr_completes {s : State} {mask : BitVec 4} {op : Word}
    (hi : ∀ m, (if maskC mask && s.cpsr.mode.privileged then some (bits op 0 5) else none) = some m → legalMode m = true) :
    ∃ t, s.msrCpsr mask op = .next t := by
  obtain ⟨p, hexec, -⟩ := State.msrCpsr_next (s := s) (mask := mask) (op := op) fun ⟨hmask, hmode⟩ =>
    hi _ (if_pos (Bool.and_eq_true_iff.mpr ⟨hmask, Mode.privileged_iff.mpr hmode⟩))
  exact ⟨_, hexec⟩

theorem State.msrSpsr_completes (s : State) (mask : BitVec 4) (op : Word) : ∃ t, s.msrSpsr mask op = .next t := by
  unfold State.msrSpsr
  split <;> exact ⟨_, rfl⟩

/-- A single transfer tests for its writeback alone. -/
theorem no_writeback_to_pc {p w : Bool} (u : Bool) (base off : Word) {rn : Reg} (h : (rn == 15 && (!p || w)) = false) :
    ¬ (rn = 15 ∧ (effective p u w base off).writeback.isSome = true) := by
  rw [effective_writeback_isSome]
  simpa using h

/-- Settles O50: MSR tests the number, and every other way to install one is a return. -/
theorem illegalModeRefused : Obligations.IllegalModeRefused := by
  intro i s m h hwb hi hm
  cases i
  case and | eor | sub | rsb | add | adc | sbc | rsc | orr | mov | bic | mvn =>
    simp only [exec, execAnd, execEor, execSub, execRsb, execAdd, execAdc, execSbc, execRsc, execOrr, execMov, execBic, execMvn]
    exact State.dataProcess_illegal h (fun _ _ => rfl) hi hm
  case msrCpsrReg | msrCpsrImm => exact State.msrCpsr_illegal hi hm
  case ldmUser p u w rn list =>
    obtain ⟨h15, hsaved⟩ := Option.ite_none_right_eq_some.mp hi
    obtain ⟨s', v, hexec, hmode⟩ := State.loadMultiple_return h p u w (not_writeback hwb)
      ((Bool.or_eq_true_iff.mp h15).imp_left eq_of_beq)
    exact hexec.trans (State.returnTo_illegal (hmode.trans hsaved) hm v)
  all_goals cases hi

/-- Settles O56: the refusals are the test for writeback to R15, MSR's test of the number and the one of a return. -/
theorem everyInstructionCompletes : Obligations.EveryInstructionCompletes := by
  intro i s h hwb hi
  cases i
  case and | eor | sub | rsb | add | adc | sbc | rsc | orr | mov | bic | mvn =>
    simp only [exec, execAnd, execEor, execSub, execRsb, execAdd, execAdc, execSbc, execRsc, execOrr, execMov, execBic, execMvn]
    exact State.dataProcess_completes h (fun _ _ => rfl) hi
  case msrCpsrReg | msrCpsrImm => exact State.msrCpsr_completes hi
  case msrSpsrReg | msrSpsrImm => exact s.msrSpsr_completes ..
  case mul | mla =>
    simp only [exec, execMul, execMla]
    split <;> exact ⟨_, rfl⟩
  case str | ldr | strb | ldrb | strh | ldrh | ldrsb | ldrsh => exact ⟨_, if_neg (no_writeback_to_pc _ _ _ hwb)⟩
  case strt | ldrt | strbt | ldrbt => exact ⟨_, if_neg (not_and_of_not_left _ (beq_eq_false_iff_ne.mp hwb))⟩
  case stm | stmUser => exact ⟨_, if_neg (not_writeback hwb)⟩
  case ldm => exact State.loadMultiple_completes h _ _ _ _ (not_writeback hwb) (by simp)
  case ldmUser p u w rn list =>
    by_cases h15 : list = 0 ∨ list.getLsbD 15 = true
    · obtain ⟨s', v, hexec, hmode⟩ := State.loadMultiple_return h p u w (not_writeback hwb) h15
      have hinstalls : (Instr.ldmUser p u w rn list).installs s = s.savedMode :=
        if_pos (Bool.or_eq_true_iff.mpr (h15.imp_left beq_iff_eq.mpr))
      obtain ⟨t, ht⟩ := State.returnTo_completes (fun m hm => hi m (hinstalls.trans (hmode.symm.trans hm))) v
      exact ⟨t, hexec.trans ht⟩
    · exact State.loadMultiple_completes h p u w true (not_writeback hwb) (fun hreturn => h15 hreturn.2)
  all_goals exact ⟨_, rfl⟩

end Sys2Proof.Machine
end

section
/-! PROOFS. The whole machine: every step keeps the invariant, confines User mode and gives the wait-state controller no say in
any value (10_state.md R25; 21_waitstate.md R112; 60_exceptions.md R384, R385). -/

namespace Sys2Proof.Machine

/-! ## A step in its three parts -/

/-- A step that answers: the platform's turn, the core's step, and the end of the step. -/
theorem step_next {s t : State} (h : step s = .next t) :
    ∃ u v, platformTurn s.fresh = .next u ∧ coreStep u = .next v ∧ v.endStep = .next t := by
  obtain ⟨u, hu, h⟩ := andThen_next h
  obtain ⟨v, hv, h⟩ := andThen_next h
  exact ⟨u, v, hu, hv, h⟩

/-- The end of a step that answers drops what is left of the platform's calls inside it. -/
theorem State.endStep_next {s t : State} (h : s.endStep = .next t) : t = { s with inside := [] } := by
  unfold State.endStep at h
  split at h
  · cases h
  · exact next_inj h

/-! ## The invariant -/

/-- Between two steps the invariant is what the operations keep. -/
theorem Inv.calm {s : State} (h : Inv s) : Calm s.fresh :=
  ⟨h.memory, h.configured, h.buffered, h.agenda, by simp [State.fresh]⟩

theorem Calm.inv {s : State} (h : Calm s) (ha : Aligned s) : Inv s :=
  ⟨h.memory, h.configured, h.buffered, ha, h.agenda⟩

/-- The platform's turn: the turn it takes from the agenda is one of those the invariant speaks of. -/
theorem Keeps.platformTurn {s t : State} (h : platformTurn s = .next t) : Keeps s t := by
  suffices hk : Calm s → Keeps s t from
    ⟨⟨fun c => (hk c).params c, fun c => (hk c).calm c⟩, fun c => (hk c).aligned c⟩
  intro hc
  unfold Machine.platformTurn at h
  split at h
  · rw [next_inj h]; exact .refl s
  · next turn rest hagenda =>
    have hturn : turn.keepsAlignment := hc.agenda turn (by simp [hagenda])
    have htaken : Keeps s { s with agenda := rest, inside := turn.inside } :=
      ⟨⟨fun _ => rfl, fun c => ⟨c.memory, c.configured, c.buffered, fun x hx => c.agenda x (by simp [hagenda, hx]),
        hturn.2⟩⟩, fun _ a => a⟩
    exact htaken.trans (Keeps.runCalls Keeps.platformCall hturn.1 h)

theorem Keeps.endStep {s t : State} (h : s.endStep = .next t) : Keeps s t := by
  rw [State.endStep_next h]
  exact ⟨⟨fun _ => rfl, fun c => ⟨c.memory, c.configured, c.buffered, c.agenda, by simp⟩⟩, fun _ a => a⟩

/-- Settles O58: each part of a step keeps the invariant, of which a step begins with all. -/
theorem stepKeepsInvariant : Obligations.StepKeepsInvariant := by
  intro s t hinv h
  obtain ⟨u, v, hturn, hcore, hend⟩ := step_next h
  have hk : Keeps s.fresh t := ((Keeps.platformTurn hturn).trans (Keeps.coreStep hcore)).trans (Keeps.endStep hend)
  exact ⟨(hk.calm hinv.calm).inv (hk.aligned hinv.calm hinv.aligned), hk.params hinv.calm⟩

/-- Settles O59: the tables of the reset state are those of control value 0, its memory and agenda are empty. -/
theorem resetHasInvariant : Obligations.ResetHasInvariant :=
  ⟨Memory.wf_nil, WaitState.reset_configured _, Nat.zero_le _, by decide, by simp [State.reset]⟩

/-! ## Timing (21 R112) -/

section
variable {s u : State}

theorem Alike.spsrWord (h : Alike s u) : u.spsrWord = s.spsrWord := by
  simp only [State.spsrWord, h.cpsr, h.spsrOf]

theorem Alike.accumulator (h : Alike s u) (hi lo : Reg) : u.accumulator hi lo = s.accumulator hi lo := by
  simp only [State.accumulator, h.reg]

theorem Alike.swapAccess (h : Alike s u) : u.swapAccess = s.swapAccess := by simp only [State.swapAccess, h.params]

theorem Alike.branchTarget (h : Alike s u) (imm24 : BitVec 24) : u.branchTarget imm24 = s.branchTarget imm24 := by
  simp only [State.branchTarget, h.r15]

/-- Every instruction leaves states alike alike. -/
theorem Alike.exec (i : Instr) (h : Alike s u) : AlikeR (exec i s) (exec i u) := by
  cases i
  all_goals simp only [Machine.exec, execAnd, execEor, execSub, execRsb, execAdd, execAdc, execSbc, execRsc, execTst,
    execTeq, execCmp, execCmn, execOrr, execMov, execBic, execMvn, execMrsCpsr, execMrsSpsr, execMsrCpsrReg,
    execMsrSpsrReg, execMsrCpsrImm, execMsrSpsrImm, execBx, execMul, execMla, execUmull, execUmlal, execSmull, execSmlal,
    execSwp, execSwpb, execStrh, execLdrh, execLdrsb, execLdrsh, execStr, execLdr, execStrb, execLdrb, execStrt, execLdrt,
    execStrbt, execLdrbt, execStm, execLdm, execStmUser, execLdmUser, execB, execBl, execSwi, execUndefined]
  case and | eor | sub | rsb | add | adc | sbc | rsc | orr | mov | bic | mvn =>
    exact h.dataProcess _ _ _ _ fun _ _ b k => by simp only [State.logicOut, State.arithOut, k.reg, k.cpsr]
  case tst | teq | cmp | cmn =>
    exact h.compare _ _ fun _ _ b k => by simp only [State.logicOut, State.arithOut, k.reg, k.cpsr]
  case mrsCpsr => rw [h.cpsr]; exact h.guardedWrite ..
  case mrsSpsr => rw [h.spsrWord]; exact h.guardedWrite ..
  case msrCpsrReg => rw [h.reg]; exact h.msrCpsr ..
  case msrCpsrImm => exact h.msrCpsr ..
  case msrSpsrReg => rw [h.reg]; exact h.msrSpsr ..
  case msrSpsrImm => exact h.msrSpsr ..
  case bx => rw [h.reg, h.cpsr]; exact (h.setCpsr _).branch _
  case mul | mla =>
    simp only [h.reg, h.params]
    split
    · exact h.finishMul ..
    · exact (h.multiplier _).finishMul ..
  case umull | smull => rw [h.reg, h.reg]; exact h.finishLong ..
  case umlal | smlal => rw [h.reg, h.reg, h.accumulator]; exact h.finishLong ..
  case swp => rw [h.swapAccess]; exact h.swap _ _ _ _ _ (Alike.readWord _) (Alike.writeWord _)
  case swpb => rw [h.swapAccess]; exact h.swap _ _ _ _ _ (Alike.readByte _) (Alike.writeByte _)
  case strh => exact h.store (h.halfAddress ..) _ _ _ Alike.writeHalf
  case ldrh => exact h.load (h.halfAddress ..) _ _ _ Alike.readHalf
  case ldrsb => exact h.load (h.halfAddress ..) _ _ _ Alike.readSignedByte
  case ldrsh => exact h.load (h.halfAddress ..) _ _ _ Alike.readSignedHalf
  case str | strt => exact h.store (h.wordAddress ..) _ _ _ (Alike.writeWord _)
  case ldr | ldrt => exact h.load (h.wordAddress ..) _ _ _ (Alike.readWord _)
  case strb | strbt => exact h.store (h.wordAddress ..) _ _ _ (Alike.writeByte _)
  case ldrb | ldrbt => exact h.load (h.wordAddress ..) _ _ _ (Alike.readByte _)
  case stm | stmUser => exact h.storeMultiple ..
  case ldm | ldmUser => exact h.loadMultiple ..
  case b => rw [h.branchTarget]; exact h.branch _
  case bl => rw [h.branchTarget, h.r15]; exact (h.setReg ..).branch _
  case swi | undefined => exact h.enter ..

theorem Alike.fetchNext (h : Alike s u) : Alike s.fetchNext u.fetchNext := by
  obtain ⟨hvalue, w, hw, hstate⟩ := h.fetch32 s.r15
  refine ⟨w, hw, ?_⟩
  rw [State.fetchNext, State.fetchNext, h.r15, hvalue, hstate]

theorem Alike.executeStage (h : Alike s u) : AlikeR s.executeStage u.executeStage := by
  have hword : u.execute = s.execute := by obtain ⟨w, -, rfl⟩ := h; rfl
  simp only [State.executeStage, hword, h.cpsr]
  split
  · exact Alike.exec _ h
  · exact h.advancePC

theorem Alike.bubbleStep (h : Alike s u) : Alike s.bubbleStep u.bubbleStep := by
  obtain ⟨w, hw, hstate⟩ := h.fetchNext.advancePC.shiftLatches
  exact ⟨w, hw, by rw [State.bubbleStep, State.bubbleStep, hstate]⟩

theorem Alike.coreStep (h : Alike s u) : AlikeR (coreStep s) (coreStep u) := by
  have hinputs : u.halted = s.halted ∧ u.refill = s.refill ∧ u.irqLine = s.irqLine := by
    obtain ⟨w, -, rfl⟩ := h
    exact ⟨rfl, rfl, rfl⟩
  obtain ⟨hhalted, hrefill, hline⟩ := hinputs
  simp only [Machine.coreStep, hhalted, hrefill, hline, h.cpsr, h.r15]
  split
  · exact h
  · split
    · exact rfl
    · split
      · exact h.bubbleStep
      · split
        · exact h.raiseIrq
        · exact h.fetchNext.executeStage.andThen fun _ _ k => k.shiftLatches

theorem Alike.platformTurn (h : Alike s u) : AlikeR (platformTurn s) (platformTurn u) := by
  obtain ⟨w, hw, rfl⟩ := h
  unfold Machine.platformTurn
  dsimp only
  split
  · exact ⟨w, hw, rfl⟩
  · exact Alike.runCalls Alike.platformCall _ _ _ ⟨w, hw, rfl⟩

theorem Alike.endStep (h : Alike s u) : AlikeR s.endStep u.endStep := by
  obtain ⟨w, hw, rfl⟩ := h
  unfold State.endStep
  dsimp only
  split
  · exact rfl
  · exact ⟨w, hw, rfl⟩

theorem Alike.step (h : Alike s u) : AlikeR (step s) (step u) := by
  have hfresh : Alike s.fresh u.fresh := by
    obtain ⟨w, hw, rfl⟩ := h
    exact ⟨w, hw, rfl⟩
  exact hfresh.platformTurn.andThen fun _ _ k => k.coreStep.andThen fun _ _ k => k.endStep

end

/-- Settles O60: a step, part by part, leaves two states alike that were alike. -/
theorem timingChangesNoValue : Obligations.TimingChangesNoValue := by
  intro s ws hws
  have h : AlikeR (step s) (step { s with ws := ws }) := Alike.step ⟨ws, hws, rfl⟩
  revert h
  cases step s <;> cases step { s with ws := ws } <;> intro h
  case next.next t u => obtain ⟨w, hw, rfl⟩ := h; exact ⟨rfl, hw⟩
  all_goals exact h

/-! ## User mode (60 R384, R385) -/

/-- User mode is left as it was: its I and F, the saved status words and the registers of the other modes' banks. -/
structure Confined (s t : State) : Prop where
  mode : t.cpsr.mode = .user
  masks : t.cpsr.i = s.cpsr.i ∧ t.cpsr.f = s.cpsr.f
  spsrs : ∀ b, t.spsrOf b = s.spsrOf b
  priv : ∀ p, (∀ n, physical .user n ≠ some p) → t.phys p = s.phys p

/-- The core has taken the exception of bank `e.1` with vector `e.2`. -/
structure Entered (s t : State) (e : Banked × Word) : Prop where
  mode : t.cpsr.mode = e.1.mode
  masks : t.cpsr.i = true ∧ t.cpsr.f = s.cpsr.f
  saved : t.spsrOf e.1 = s.cpsr.save
  pc : BranchedTo t e.2

/-- The exceptions a step from User mode can enter by, with their vectors. -/
def userExceptions : List (Banked × Word) :=
  [(.supervisor, swiVector), (.undefined, undefinedVector), (.irq, irqVector)]

/-- What a step from User mode can do. -/
def UserStep (s t : State) : Prop := Confined s t ∨ ∃ e ∈ userExceptions, Entered s t e

theorem Plain.confined {s t : State} (h : Plain s t) (hu : s.cpsr.mode = .user) : Confined s t :=
  ⟨h.mode.1.trans hu, h.mode.2, h.spsrs, fun p hp => h.priv p (by rw [hu]; exact hp) hp⟩

/-- An exception entered from a state with the CPSR of `s` saves the CPSR of `s`. -/
theorem Entered.enter {s u : State} (h : u.cpsr = s.cpsr) {e : Banked × Word} (hv : e.2 &&& 0xFFFFFFFC#32 = e.2) :
    Entered s (u.enter e.1 e.2 false) e := by
  obtain ⟨hcpsr, hsaved, -, hpc, -⟩ := State.enter_effect u e.1 e.2 false
  rw [h] at hcpsr hsaved
  exact ⟨by rw [hcpsr], by simp [hcpsr], hsaved, by rwa [hv] at hpc⟩

/-- An instruction run in User mode confines it or takes one of its two exceptions. -/
theorem exec_userStep {i : Instr} {s t : State} (q : s.inside = []) (hu : s.cpsr.mode = .user)
    (h : exec i s = .next t) : UserStep s t := by
  obtain hplain | hpriv | ⟨e, he, rfl⟩ := exec_ending q h
  · exact .inl (hplain.confined hu)
  · exact absurd hu hpriv
  · simp only [List.mem_cons, List.not_mem_nil, or_false] at he
    obtain rfl | rfl := he
    · exact .inr ⟨_, by simp [userExceptions], Entered.enter rfl (by decide)⟩
    · exact .inr ⟨_, by simp [userExceptions], Entered.enter rfl (by decide)⟩

/-- What stands before a step in User mode may stand after something plain that leaves CPSR. -/
theorem UserStep.after {s s' t : State} (h : UserStep s' t) (hp : Plain s s') (hc : s'.cpsr = s.cpsr)
    (hu : s.cpsr.mode = .user) : UserStep s t := by
  obtain ⟨hmode, hmasks, hspsrs, hpriv⟩ | ⟨e, he, hmode, hmasks, hsaved, hpc⟩ := h
  · rw [hc] at hmasks
    exact .inl ⟨hmode, hmasks, fun b => (hspsrs b).trans (hp.spsrs b),
      fun p hn => (hpriv p hn).trans (hp.priv p (by rw [hu]; exact hn) hn)⟩
  · rw [hc] at hmasks hsaved
    exact .inr ⟨e, he, hmode, hmasks, hsaved, hpc⟩

/-- The latches and what is left of the platform's calls are not spoken of. -/
theorem UserStep.before {s t t' : State} (h : UserStep s t)
    (he : t' = { t with decode := t'.decode, execute := t'.execute, inside := t'.inside }) : UserStep s t' := by
  have hspsrs : ∀ b, t'.spsrOf b = t.spsrOf b := fun b => by rw [he]; cases b <;> rfl
  have hphys : ∀ p, t'.phys p = t.phys p := State.phys_congr (by rw [he])
  have hcpsr : t'.cpsr = t.cpsr := by rw [he]
  obtain ⟨hmode, hmasks, hs, hpriv⟩ | ⟨e, hmem, hmode, hmasks, hsaved, hpc⟩ := h
  · exact .inl ⟨by rw [hcpsr, hmode], by rw [hcpsr]; exact hmasks, fun b => (hspsrs b).trans (hs b),
      fun p hn => (hphys p).trans (hpriv p hn)⟩
  · exact .inr ⟨e, hmem, by rw [hcpsr, hmode], by rw [hcpsr]; exact hmasks, (hspsrs _).trans hsaved,
      by rw [he]; exact hpc.pc, by rw [he]; exact hpc.refill⟩

/-- The execute stage runs the decoded instruction, or nothing at all. -/
theorem executeStage_userStep {s t : State} (q : s.inside = []) (hu : s.cpsr.mode = .user)
    (h : s.executeStage = .next t) : UserStep s t := by
  unfold State.executeStage at h
  split at h
  · exact exec_userStep q hu h
  · rw [next_inj h]
    exact .inl ((Plain.advancePC s).confined hu)

theorem normalStep_userStep {s t : State} (q : s.inside = []) (hu : s.cpsr.mode = .user)
    (h : s.normalStep = .next t) : UserStep s t := by
  have hfetch := (Mild.fetchNext s).untouched q
  obtain ⟨u, hstage, hlatches⟩ := andThen_next h
  have hexec := executeStage_userStep hfetch.inside (by rw [hfetch.cpsr, hu]) hstage
  exact (hexec.after hfetch.plain hfetch.cpsr hu).before (by rw [next_inj hlatches]; rfl)

theorem bubbleStep_confined {s : State} (q : s.inside = []) (hu : s.cpsr.mode = .user) : Confined s s.bubbleStep := by
  have hfetch := ((Mild.fetchNext s).untouched q).plain
  have hrest : Plain s.fetchNext s.bubbleStep :=
    ⟨State.spsrOf_congr ⟨rfl, rfl, rfl, rfl, rfl⟩, fun p _ _ => State.phys_congr rfl p, rfl, rfl, rfl⟩
  exact (hfetch.trans hrest).confined hu

theorem raiseIrq_entered (s : State) : Entered s s.raiseIrq (.irq, irqVector) := by
  obtain ⟨hcpsr, hsaved, -, hpc, -⟩ := s.raiseIrq_effect
  exact ⟨by rw [hcpsr]; rfl, by simp [hcpsr], hsaved, hpc⟩

theorem coreStep_userStep {s t : State} (q : s.inside = []) (hu : s.cpsr.mode = .user)
    (h : coreStep s = .next t) : UserStep s t := by
  unfold coreStep at h
  split at h
  · rw [next_inj h]
    exact .inl ((Plain.refl s).confined hu)
  · split at h
    · cases h
    · split at h
      · rw [next_inj h]
        exact .inl (bubbleStep_confined q hu)
      · split at h
        · rw [next_inj h]
          exact .inr ⟨_, by simp [userExceptions], raiseIrq_entered s⟩
        · exact normalStep_userStep q hu h

/-- Settles O57: an instruction that completes ends plainly, by an exception, or by an effect User mode does not have. -/
theorem userModeIsConfined : Obligations.UserModeIsConfined := by
  intro s t hquiet hu h
  rw [step_quiet hquiet] at h
  obtain ⟨u, hcore, hend⟩ := andThen_next h
  have hstep : UserStep s.fresh t :=
    (coreStep_userStep (s := s.fresh) rfl hu hcore).before (by rw [State.endStep_next hend])
  have hfresh : Plain s s.fresh :=
    ⟨State.spsrOf_congr ⟨rfl, rfl, rfl, rfl, rfl⟩, fun p _ _ => State.phys_congr rfl p, rfl, rfl, rfl⟩
  obtain ⟨hmode, hmasks, hspsrs, hpriv⟩ | ⟨e, he, hmode, hmasks, hsaved, hpc⟩ := hstep.after hfresh rfl hu
  · exact .inl ⟨hmode, hmasks.1, hmasks.2, hspsrs, hpriv⟩
  · exact .inr ⟨e, he, hmode, hmasks.1, hmasks.2, hsaved, hpc⟩

end Sys2Proof.Machine
end
